-- ==== Sys2Proof/Word.lean ====
section
/-! DEFINITION. Words and bytes: the engine's registers are 32 bits wide (10_state.md R22), its buffer and its wire
formats are bytes (00_scope.md R8). -/

namespace Sys2Proof

/-- A register's contents, 32 bits (R22, parameter `REG_WIDTH` of R6). -/
abbrev Word := BitVec 32

/-- A byte, 0..255 (R8). A byte sequence is a `List Byte`. -/
abbrev Byte := BitVec 8

end Sys2Proof
end

