-- ==== Sys2Proof/Syntax.lean ====
section
/-! DEFINITION. The operations of the engine: one constructor for each row of spec/opcode_table.json (30_encoding.md
R82). -/

namespace Sys2Proof

/-- An operation with the operand bits its word holds. Only `FRAME_ENCODE` has any: `C` (`calc_checksum`) and `P`
(`pad_to_chunk`), one bit each (R80, R81). All other operands are read from registers and the buffer (R83). -/
inductive Instr where
  | nop
  | frameEncode (c p : Bool)
  | frameDecode
  | chunkOut
  | chunkIn
  | rxAbort
  | mcuWrap
  | mcuUnwrap
  | sha256
  | hmacSha256
  | prfDerive
  | aes128CbcDec
  | geaXor
  | crc32Mpeg2
  | gtlsHello
  | gtlsIdentify
  | gtlsDone
  | sensorDecrypt
  | srst
  deriving DecidableEq, Repr

end Sys2Proof
end

