-- ==== Sys2Proof/Decode.lean ====
section
/-! DEFINITION. The decoder of command words and the encoder, both from 30_encoding.md R80 and R82. -/

namespace Sys2Proof

/-- What is wrong with an illegal word (R84). All three complete with `BAD_OPCODE` (R103). -/
inductive Illegal where
  /-- `OP` is not in the table of R82. -/
  | reservedOp
  /-- One of bits 7..6 or 31..10 is 1. -/
  | reservedBits
  /-- `C` or `P` is 1 and the operation is not `FRAME_ENCODE`. -/
  | flagNotAllowed
  deriving DecidableEq, Repr

/-- What a word decodes to: "every 32-bit word written to `CMD` is either one row of rule R82 with its `C`/`P` values
or illegal" (R85). -/
inductive Decoded where
  | op (i : Instr)
  | illegal (why : Illegal)
  deriving DecidableEq, Repr

/-- `OP`, bits 5..0 of the word (R80). -/
def opField (w : Word) : BitVec 6 := w.extractLsb' 0 6

/-- Bit 8, `C` (R80). -/
def cField (w : Word) : Bool := w.getLsbD 8

/-- Bit 9, `P` (R80). -/
def pField (w : Word) : Bool := w.getLsbD 9

/-- The reserved bits 7..6 and 31..10 are all 0 (R80: "must be 0"). -/
def reservedBitsClear (w : Word) : Bool := w.extractLsb' 6 2 == 0#2 && w.extractLsb' 10 22 == 0#22

/-- The operation of a code, with the word's flag bits (R82). "A decoder tells the operation from `OP` alone" (R85). -/
def opOf (op : BitVec 6) (c p : Bool) : Option Instr :=
  match op with
  | 0x00#6 => some .nop
  | 0x01#6 => some (.frameEncode c p)
  | 0x02#6 => some .frameDecode
  | 0x03#6 => some .chunkOut
  | 0x04#6 => some .chunkIn
  | 0x05#6 => some .rxAbort
  | 0x08#6 => some .mcuWrap
  | 0x09#6 => some .mcuUnwrap
  | 0x10#6 => some .sha256
  | 0x11#6 => some .hmacSha256
  | 0x12#6 => some .prfDerive
  | 0x13#6 => some .aes128CbcDec
  | 0x14#6 => some .geaXor
  | 0x15#6 => some .crc32Mpeg2
  | 0x18#6 => some .gtlsHello
  | 0x19#6 => some .gtlsIdentify
  | 0x1A#6 => some .gtlsDone
  | 0x20#6 => some .sensorDecrypt
  | 0x3F#6 => some .srst
  | _ => none

/-- The decoder (R85): the operation from `OP`, then the reserved bits, then the flags (R84). -/
def decode (w : Word) : Decoded :=
  match opOf (opField w) (cField w) (pField w) with
  | none => .illegal .reservedOp
  | some i =>
    if !reservedBitsClear w then .illegal .reservedBits
    else if (cField w || pField w) && opField w != 0x01#6 then .illegal .flagNotAllowed
    else .op i

/-- A word of the one format `CMD32`: `OP`, two reserved bits, `C`, `P`, 22 reserved bits, from bit 0 up (R80). -/
def cmd32 (op : BitVec 6) (c p : Bool) : Word := 0#22 ++ BitVec.ofBool p ++ BitVec.ofBool c ++ 0#2 ++ op

/-- The encoder: each operation's code (R82) in the format of R80. -/
def encode : Instr → Word
  | .nop => cmd32 0x00#6 false false
  | .frameEncode c p => cmd32 0x01#6 c p
  | .frameDecode => cmd32 0x02#6 false false
  | .chunkOut => cmd32 0x03#6 false false
  | .chunkIn => cmd32 0x04#6 false false
  | .rxAbort => cmd32 0x05#6 false false
  | .mcuWrap => cmd32 0x08#6 false false
  | .mcuUnwrap => cmd32 0x09#6 false false
  | .sha256 => cmd32 0x10#6 false false
  | .hmacSha256 => cmd32 0x11#6 false false
  | .prfDerive => cmd32 0x12#6 false false
  | .aes128CbcDec => cmd32 0x13#6 false false
  | .geaXor => cmd32 0x14#6 false false
  | .crc32Mpeg2 => cmd32 0x15#6 false false
  | .gtlsHello => cmd32 0x18#6 false false
  | .gtlsIdentify => cmd32 0x19#6 false false
  | .gtlsDone => cmd32 0x1A#6 false false
  | .sensorDecrypt => cmd32 0x20#6 false false
  | .srst => cmd32 0x3F#6 false false

/-- The instruction the decoder reads from a table word of `nbits` bits, the bits above them 0. A command word is one
32-bit register write, so there is no byte order to lay it out in. DEDUCED (log entry 9). -/
def decodeTableWord (nbits w : Nat) : Option Instr :=
  match decode (BitVec.ofNat 32 (w % 2 ^ nbits)) with
  | .op i => some i
  | .illegal _ => none

end Sys2Proof
end

