-- ==== Sys2Proof/Config.lean ====
section
/-! DEFINITION. The parameters of 00_scope.md R6: "a model takes each as an argument". Those with a value in R6's table are
the fields of `Params`, which the machine holds in its state (log entry 3). Those the spec leaves OPEN (`PSK_DEFAULT`,
`gea_next`, `MID_PASS_LEN`, `CBC_RESTART`) and the draws of the buffer bytes (10_state.md R35) are constants without a body:
no proof can see a value, so a claim about them holds for every value. `REG_WIDTH`, 32 bits, is the width of `Word`. -/

namespace Sys2Proof

/-- The parameters of R6 that have a value in its table. For values that a fixed number of another rule does not fit, R6 gives
no result; what the model then does is a DESIGN CHOICE (log entry 10). -/
structure Params where
  /-- `BUF_SIZE`: bytes in the buffer. -/
  bufSize : Nat
  /-- `CHUNK`: the USB chunk size. -/
  chunk : Nat
  /-- `CONT_PAYLOAD`: payload bytes of a continuation chunk. -/
  contPayload : Nat
  /-- `SENTINEL`: the checksum byte that means "skip verification". -/
  sentinel : Byte
  /-- `CSUM_BASE`: the checksum base. -/
  csumBase : Nat
  /-- `MAX_PAYLOAD`: the largest payload a frame carries. -/
  maxPayload : Nat
  /-- `KDF_OUT`: bytes of GTLS session key material. -/
  kdfOut : Nat
  /-- `SENSOR_BLK0`: length of passthrough block 0. -/
  sensorBlk0 : Nat
  /-- `SENSOR_AESBLK`: length of each AES block 1, 3, ..., 13. -/
  sensorAesBlk : Nat
  /-- `SENSOR_BLOCKS`: blocks in a sensor body. -/
  sensorBlocks : Nat
  /-- `SENSOR_PAD`: leading bytes dropped before the CRC. -/
  sensorPad : Nat
  deriving DecidableEq, Repr

/-- The column "value" of R6. -/
def Params.spec : Params :=
  { bufSize := 0x20000, chunk := 64, contPayload := 63, sentinel := 0x88#8, csumBase := 0xAA, maxPayload := 65534
    kdfOut := 0x44, sensorBlk0 := 0x3A7, sensorAesBlk := 0x3F0, sensorBlocks := 15, sensorPad := 5 }

/-- The parameters have R6's values, `BUF_SIZE` apart. No step changes that; a statement whose numbers hang together by
these values takes it as a premise. -/
abbrev Params.HasSpecValues (q : Params) : Prop := q = { Params.spec with bufSize := q.bufSize }

namespace Config

/-- `PSK_DEFAULT`, byte `i` of 32: the reset value of `PSK` (R6, decision D12: OPEN). -/
opaque pskDefault : Nat → Byte

/-- `gea_next`: the state after a word's LFSR step and that word's keystream (R6, 43_ciphers.md R211, decision D30:
OPEN). -/
opaque geaNext : Word → Word × BitVec 16

/-- `MID_PASS_LEN`: the length of the passthrough blocks 2, 4, ..., 12 of a sensor body (R6, decision D31: OPEN). -/
opaque midPassLen : Nat

/-- `CBC_RESTART`: whether each AES block of a sensor body starts its chain at `SYM_IV` (R6, decision D32: OPEN). -/
opaque cbcRestart : Bool

/-- The byte of the buffer at an address after the `n`-th reset, until it is written: "a model treats each as a draw"
(10_state.md R35, 70_reset_and_hazards.md R330). The arguments are the reset's number and the address. -/
opaque bufDraw : Nat → Nat → Byte

end Config

end Sys2Proof
end

