-- ==== Sys2Proof/Machine/Bytes.lean ====
section
/-! DEFINITION. Byte sequences and conversions (00_scope.md R8, R9) and the byte order of register arrays
(10_state.md R22). -/

namespace Sys2Proof.Machine

/-- `b[i]`. Every use of a rule is in range for the parameter values of R6. A byte that other values leave missing reads as
0: DESIGN CHOICE (log entry 10). -/
def byteAt (b : List Byte) (i : Nat) : Byte := b.getD i 0#8

/-- `b[i..j)`, empty when `j <= i` (R8). -/
def slice (b : List Byte) (i j : Nat) : List Byte := (b.drop i).take (j - i)

/-- `bytes(n, v)`: `n` copies of `v` (R8). -/
def bytes (n : Nat) (v : Byte) : List Byte := List.replicate n v

/-- `le16(b)` (R9). -/
def le16 (b : List Byte) : Nat := (byteAt b 0).toNat + 2 ^ 8 * (byteAt b 1).toNat

/-- `le32(b)` (R9). -/
def le32 (b : List Byte) : Nat :=
  (byteAt b 0).toNat + 2 ^ 8 * (byteAt b 1).toNat + 2 ^ 16 * (byteAt b 2).toNat + 2 ^ 24 * (byteAt b 3).toNat

/-- `be32(b)` (R9). -/
def be32 (b : List Byte) : Nat :=
  2 ^ 24 * (byteAt b 0).toNat + 2 ^ 16 * (byteAt b 1).toNat + 2 ^ 8 * (byteAt b 2).toNat + (byteAt b 3).toNat

/-- The `n` low bytes of `v`, least significant first. -/
def leBytes : Nat → Nat → List Byte
  | 0, _ => []
  | n + 1, v => BitVec.ofNat 8 v :: leBytes n (v / 2 ^ 8)

/-- The `n` low bytes of `v`, most significant first. -/
def beBytes (n v : Nat) : List Byte := (leBytes n v).reverse

/-- `LE16(v)`, the inverse of `le16` (R9). -/
def toLE16 (v : Nat) : List Byte := leBytes 2 v

/-- `LE32(v)`, the inverse of `le32` (R9). -/
def toLE32 (v : Nat) : List Byte := leBytes 4 v

/-- `BE32(v)`, the inverse of `be32` (R9). -/
def toBE32 (v : Nat) : List Byte := beBytes 4 v

/-- A 32-bit number as a register's contents, wrapping (R9). -/
def toWord (n : Nat) : Word := BitVec.ofNat 32 n

/-- The bytes of a register array: byte `4i` in bits 7..0 of word `i` (R22). -/
def arrayBytes {n : Nat} (v : Vector Word n) : List Byte := v.toList.flatMap fun w => toLE32 w.toNat

/-- A register array of `n` words from its bytes (R22). -/
def bytesArray (n : Nat) (b : List Byte) : Vector Word n :=
  Vector.ofFn fun i => toWord (le32 (slice b (4 * i.val) (4 * i.val + 4)))

/-- `a XOR b` of two sequences of one length, bytewise (42_hash.md R170). -/
def xorBytes (a b : List Byte) : List Byte := List.zipWith (· ^^^ ·) a b

/-- The first `count` pieces of `size` bytes each. -/
def blocks (size : Nat) : Nat → List Byte → List (List Byte)
  | 0, _ => []
  | count + 1, b => b.take size :: blocks size count (b.drop size)

/-- `ceil_div(a, b)`: the least `q` with `q * b >= a`, for `b > 0` (R9). -/
def ceilDiv (a b : Nat) : Nat := (a + b - 1) / b

end Sys2Proof.Machine
end

