-- ==== Sys2Proof/Machine/State.lean ====
section
/-! DEFINITION. The state of the engine and of the host that drives it, as plain data (10_state.md), its value after
reset, and the reasons a step can stop. -/

namespace Sys2Proof.Machine

/-- The error codes of 60_exceptions.md R300 by name; `ok` is code 0, success. -/
inductive ErrCode where
  | ok
  | checksumMismatch
  | framingError
  | protocolMismatch
  | handshakeIdentityMismatch
  | handshakeRejected
  | integrityCheckFailed
  | crcMismatch
  | unexpectedDataType
  | lengthMismatch
  | invalidKeyMaterial
  | badOpcode
  | badOperand
  | badState
  | shortInput
  deriving DecidableEq, Repr

/-- The fields of `STATUS` (R25). Bits 7..4 and 31..16 are reserved and read 0 (R25, I11), so they are no fields; the
whole register as the host reads it is `Status.word` of Machine/Flags.lean. DEDUCED (log entry 7). -/
structure Status where
  busy : Bool
  done : Bool
  err : Bool
  rxActive : Bool
  errcode : ErrCode
  deriving DecidableEq, Repr

/-- `GTLS_STATE` (R30); the values 5 to 7 are never held (I12). DEDUCED (log entry 7). -/
inductive GtlsState where
  | clientHello
  | serverIdentify
  | serverDone
  | established
  | failed
  deriving DecidableEq, Repr

/-- A register array of 16 bytes, 4 words (R22). -/
abbrev Words4 := Vector Word 4

/-- A register array of 32 bytes, 8 words (R22). -/
abbrev Words8 := Vector Word 8

/-- The register file of R24 but for `STATUS` (a field of its own in `State`) and `CMD`, which stores nothing: what is
written to it goes to `PEND` (R26), and it reads as 0 (R23). -/
structure Regs where
  srcAddr : Word
  srcLen : Word
  dstAddr : Word
  dstLen : Word
  keyAddr : Word
  keyLen : Word
  ivAddr : Word
  ivLen : Word
  aux : Word
  msgId : Word
  result : Word
  csumInfo : Word
  chunkCnt : Word
  rxCmd : Word
  rxDeclLen : Word
  rxAcc : Word
  rxBase : Word
  rxWritten : Word
  gtlsState : GtlsState
  hmacClientCtr : Word
  hmacServerCtr : Word
  ctrSeed : Word
  psk : Words8
  clientRandom : Words8
  serverRandom : Words8
  serverIdentity : Words8
  clientIdentity : Words8
  symKey : Words4
  symIv : Words4
  hmacKey : Words8
  deriving DecidableEq, Repr

/-- The bytes of `BUF` written since the last reset, as (address, byte) pairs with strictly rising addresses. An address
that is not listed holds its draw (R35; log entry 1): `State.readByte` of Machine/Ops.lean. -/
abbrev Memory := List Host.Cell

/-- One statement of a host program (30_encoding.md R86), the pseudo-statements of R87 expanded, so that each is at most
one transaction of the host port. A label is a number. DESIGN CHOICE (log entry 4). -/
inductive HostStmt where
  /-- A register write of `width` bits at a byte offset. -/
  | wr (width offset : Nat) (v : Word)
  /-- A register read of `width` bits at a byte offset. -/
  | rd (width offset : Nat)
  /-- A buffer byte write. -/
  | wrb (addr : Nat) (b : Byte)
  /-- A buffer byte read. -/
  | rdb (addr : Nat)
  /-- `WAIT`: one round of `L: RD STATUS; if STATUS.BUSY = 1 goto L`. -/
  | wait
  /-- `BERR label`: `RD STATUS; if STATUS.ERR = 1 goto label`. -/
  | berr (label : Nat)
  /-- `BRX label`: `RD STATUS; if STATUS.RX_ACTIVE = 1 goto label`. -/
  | brx (label : Nat)
  /-- `GOTO label`. -/
  | goto (label : Nat)
  /-- `label:`, which names the statement after it. -/
  | label (label : Nat)
  /-- `HALT`, the end of the host program. -/
  | halt
  deriving DecidableEq, Repr

/-- The host agent (00_scope.md R5): its program, the number of its next statement, and what its `RD` and `RDB` reads
returned, oldest first. -/
structure HostAgent where
  prog : List HostStmt
  pc : Nat
  reads : List Word
  deriving DecidableEq, Repr

/-- Who moves in a step: the host, the engine, or the reset input being asserted (R5, R100, R330). -/
inductive Turn where
  | host
  | engine
  | reset
  deriving DecidableEq, Repr

/-- The machine. `regs`, `status`, `pend` and `buf` are the architectural state of R20; `host` is the other agent;
`params` are the parameters of R6 (log entry 3); the last two fields are the model's own (log entries 1 and 5). -/
structure State where
  regs : Regs
  status : Status
  /-- The pending operation `PEND`: none, or the word the host wrote to `CMD` (R20, R26). -/
  pend : Option Word
  buf : Memory
  host : HostAgent
  /-- The parameters of R6, an argument of every step; no step changes them (log entry 3). -/
  params : Params
  /-- How often the reset input was asserted: it numbers the draws of the buffer bytes. -/
  resets : Nat
  /-- Who moves in the coming steps. -/
  schedule : List Turn
  deriving DecidableEq, Repr

/-- Why a step stops. All but the last are the host-interface violations of 70_reset_and_hazards.md R343: "a model
records a fault on any of them, never clears it, and gives no later state a meaning". -/
inductive Fault where
  /-- Raised by the host port: any access but a read of `STATUS` while an operation is pending (R340, I8). Safe: the
  hardware may do anything. -/
  | busyHazard
  /-- Raised by the host port: a register access that is not 32 bits wide (R67, R343). Safe, as above. -/
  | registerWidth
  /-- Raised by the host port: a register access at an offset that is not 4-aligned (R67, R343). Safe, as above. -/
  | registerAlignment
  /-- Raised by the host port: a register access at an unassigned offset (R24, R343). Safe, as above. -/
  | unassignedRegister
  /-- Raised by the host port: a host write to an `R` register (R23, R343). Safe, as above. -/
  | readOnlyRegister
  /-- Raised by the host port: a buffer access at an address `>= BUF_SIZE` (R62, R343). Safe, as above. -/
  | bufferAddress
  /-- Raised by the host agent: a branch to a label its program does not hold, to which R86 gives no meaning. Safe: no
  later state. DESIGN CHOICE (log entry 4). -/
  | missingLabel
  deriving DecidableEq, Repr

/-- Why an instruction has no meaning. -/
inductive Refusal where
  /-- An instruction the model gives no meaning. Safe: no next state. No arm of `exec` raises it. -/
  | notModelled (mnemonic : String)
  deriving DecidableEq, Repr

/-- How a step ends. -/
abbrev Result := Host.Outcome State Fault Refusal

/-- `STATUS = 0` (R25, R35). -/
def Status.reset : Status :=
  { busy := false, done := false, err := false, rxActive := false, errcode := .ok }

/-- `PSK_DEFAULT`, its 32 bytes in the order of R22 (R35). -/
def pskDefault : Words8 := bytesArray 8 ((List.range 32).map Config.pskDefault)

/-- The "reset" column of R24: `PSK` holds `PSK_DEFAULT`, every other register 0. -/
def Regs.reset : Regs :=
  { srcAddr := 0#32, srcLen := 0#32, dstAddr := 0#32, dstLen := 0#32
    keyAddr := 0#32, keyLen := 0#32, ivAddr := 0#32, ivLen := 0#32
    aux := 0#32, msgId := 0#32, result := 0#32, csumInfo := 0#32, chunkCnt := 0#32
    rxCmd := 0#32, rxDeclLen := 0#32, rxAcc := 0#32, rxBase := 0#32, rxWritten := 0#32
    gtlsState := .clientHello, hmacClientCtr := 0#32, hmacServerCtr := 0#32, ctrSeed := 0#32
    psk := pskDefault, clientRandom := Vector.replicate 8 0#32, serverRandom := Vector.replicate 8 0#32
    serverIdentity := Vector.replicate 8 0#32, clientIdentity := Vector.replicate 8 0#32
    symKey := Vector.replicate 4 0#32, symIv := Vector.replicate 4 0#32
    hmacKey := Vector.replicate 8 0#32 }

/-- The machine after reset (R35, R330): the registers and `STATUS` at their reset values, nothing pending, no buffer
byte written; the parameters have the spec's values. The host's program is empty: a program comes from outside the machine
(log entry 4). -/
def State.reset : State :=
  { regs := Regs.reset, status := Status.reset, pend := none, buf := []
    host := { prog := [], pc := 0, reads := [] }, params := Params.spec, resets := 0, schedule := [] }

end Sys2Proof.Machine
end

