-- ==== Sys2Proof/Machine/Flags.lean ====
section
/-! DEFINITION. The engine's only flags (10_state.md R33): the fields of `STATUS` with what acceptance, completion and
failure make of them (R25, R26, 40_control.md R104), and `CSUM_INFO` (R28). -/

namespace Sys2Proof.Machine

/-- The code numbers of 60_exceptions.md R300. -/
def ErrCode.code : ErrCode → Byte
  | .ok => 0x00#8
  | .checksumMismatch => 0x01#8
  | .framingError => 0x02#8
  | .protocolMismatch => 0x03#8
  | .handshakeIdentityMismatch => 0x04#8
  | .handshakeRejected => 0x05#8
  | .integrityCheckFailed => 0x06#8
  | .crcMismatch => 0x07#8
  | .unexpectedDataType => 0x08#8
  | .lengthMismatch => 0x09#8
  | .invalidKeyMaterial => 0x0A#8
  | .badOpcode => 0x10#8
  | .badOperand => 0x11#8
  | .badState => 0x12#8
  | .shortInput => 0x13#8

/-- `STATUS` as the host reads it (R25): `BUSY` bit 0, `DONE` bit 1, `ERR` bit 2, `RX_ACTIVE` bit 3, `ERRCODE` bits
15..8, the rest 0. -/
def Status.word (t : Status) : Word :=
  0#16 ++ t.errcode.code ++ 0#4 ++ BitVec.ofBool t.rxActive ++ BitVec.ofBool t.err ++ BitVec.ofBool t.done
    ++ BitVec.ofBool t.busy

/-- `complete` (R104). `RX_ACTIVE` is left alone. -/
def Status.completed (t : Status) : Status :=
  { t with busy := false, done := true, err := false, errcode := .ok }

/-- `raise E` (R104, R304). `RX_ACTIVE` is left alone. -/
def Status.raised (t : Status) (e : ErrCode) : Status :=
  { t with busy := false, done := true, err := true, errcode := e }

/-- The acceptance of a `CMD` write (R26); it also ends an error state (R305). `RX_ACTIVE` is left alone. -/
def Status.accepted (t : Status) : Status :=
  { t with busy := true, done := false, err := false, errcode := .ok }

/-- `GTLS_STATE` as the host reads it (R30): the state in bits 2..0, the rest 0. -/
def GtlsState.word : GtlsState → Word
  | .clientHello => 0#32
  | .serverIdentify => 1#32
  | .serverDone => 2#32
  | .established => 3#32
  | .failed => 4#32

/-- `CSUM_INFO` (R28) for a `SENTINEL`: the received checksum byte in bits 7..0, the expected one in bits 15..8, the
sentinel flag in bit 16. -/
def csumInfo (sentinel received expected : Byte) : Word :=
  0#15 ++ BitVec.ofBool (received == sentinel) ++ expected ++ received

end Sys2Proof.Machine
end

