-- ==== Sys2Proof/Machine/Ops.lean ====
section
/-! DEFINITION. The named operations over the buffer (20_memory.md R61), and what every operation ends in: completion,
failure (in place of taking an exception, 60_exceptions.md R304) and, in place of the return from one, the acceptance of
the next command (R305). -/

namespace Sys2Proof.Machine

/-- The byte written at an address since the last reset, if any. -/
def Memory.get? : Memory → Nat → Option Byte
  | [], _ => none
  | (k, b) :: m, a => if k = a then some b else Memory.get? m a

/-- The bytes of `v` at the addresses from `a` up. -/
def cellsFrom : Nat → List Byte → Memory
  | _, [] => []
  | a, b :: v => (a, b) :: cellsFrom (a + 1) v

/-- The bytes of `v` written at `a`, `a + 1`, ...: the cells below stay, the cells above stay. -/
def Memory.write (m : Memory) (a : Nat) (v : List Byte) : Memory :=
  m.filter (fun c => decide (c.1 < a)) ++ cellsFrom a v ++ m.filter (fun c => decide (a + v.length ≤ c.1))

/-- The canonical form: strictly rising addresses. An unlisted address holds a draw and no particular byte, so no entry
can equal what one reads as (log entry 1). -/
abbrev Memory.wf (m : Memory) : Prop := m.Pairwise fun c d => c.1 < d.1

/-- The addresses listed are addresses of a buffer of `size` bytes (R60). -/
abbrev Memory.within (m : Memory) (size : Nat) : Prop := ∀ c ∈ m, c.1 < size

/-- `InRange(a, n)`: `a + n <= BUF_SIZE` on unbounded integers (R61). -/
def State.inRange (s : State) (a n : Nat) : Bool := decide (a + n ≤ s.params.bufSize)

/-- `BUF[a]`: the byte written last, or the draw of the last reset (R35: "a read of one before any write returns that
draw"). What an unlisted address reads as is said here and nowhere else. -/
def State.readByte (s : State) (a : Nat) : Byte := (s.buf.get? a).getD (Config.bufDraw s.resets a)

/-- `MemRead(a, n)` (R61). -/
def State.memRead (s : State) (a n : Nat) : List Byte := (List.range n).map fun i => s.readByte (a + i)

/-- `MemWrite(a, |v|, v)` (R61). -/
def State.memWrite (s : State) (a : Nat) (v : List Byte) : State := { s with buf := s.buf.write a v }

/-- `complete` (40_control.md R104). -/
def State.complete (s : State) : State := { s with status := s.status.completed }

/-- `raise E` (R104): the engine's entry into an error, "it saves nothing else and changes no mode" (R304). The effects
a rule names for a failure are made to the state before. -/
def State.raise (s : State) (e : ErrCode) : State := { s with status := s.status.raised e }

/-- The acceptance of a command word (R26), which is also what ends an error state (R305). -/
def State.accept (s : State) (w : Word) : State := { s with pend := some w, status := s.status.accepted }

/-- `STATUS.RX_ACTIVE <- b` (R29). -/
def State.setRxActive (s : State) (b : Bool) : State := { s with status := { s.status with rxActive := b } }

/-- `x[DST_LEN] <- n`. -/
def State.setDstLen (s : State) (n : Nat) : State := { s with regs := { s.regs with dstLen := toWord n } }

/-- `x[GTLS_STATE] <- g`. -/
def State.setGtls (s : State) (g : GtlsState) : State := { s with regs := { s.regs with gtlsState := g } }

/-- The output of an operation: `MemWrite(x[DST_ADDR], n, v); x[DST_LEN] <- n` for `n = |v|`. Where parameters make
`v` shorter (`SENSOR_DECRYPT`), only its bytes are written: DESIGN CHOICE (log entry 10). -/
def State.output (s : State) (n : Nat) (v : List Byte) : State :=
  (s.memWrite s.regs.dstAddr.toNat v).setDstLen n

/-- Every register at its reset value and `STATUS = 0` (R24, R35): what `SRST` and reset share (R332). -/
def State.resetRegs (s : State) : State := { s with regs := Regs.reset, status := Status.reset }

/-- The reset input asserted (70_reset_and_hazards.md R330): the registers at their reset values, a pending operation
abandoned, every buffer byte a new draw. The host agent is outside the engine. -/
def State.hardReset (s : State) : State :=
  { s.resetRegs with pend := none, buf := [], resets := s.resets + 1 }

/-- A result with `f` done to its next state. -/
def onNext (f : State → State) : Result → Result
  | .next s => .next (f s)
  | .fault r => .fault r
  | .refused r => .refused r

end Sys2Proof.Machine
end

