-- ==== Sys2Proof/Machine/Operands.lean ====
section
/-! DEFINITION. The operand forms: buffer ranges named by register pairs, with the range checks of 40_control.md R105,
and the fields of `MSG_ID` (10_state.md R27). Addresses and lengths are 32-bit unsigned numbers (30_encoding.md R81). -/

namespace Sys2Proof.Machine.State

/-- `x[SRC_LEN]`. -/
def srcLen (s : State) : Nat := s.regs.srcLen.toNat

/-- "check `src`" passes (R105). -/
def srcOk (s : State) : Bool := s.inRange s.regs.srcAddr.toNat s.srcLen

/-- `MemRead(x[SRC_ADDR], x[SRC_LEN])`. -/
def src (s : State) : List Byte := s.memRead s.regs.srcAddr.toNat s.srcLen

/-- "check key" passes (R105). -/
def keyOk (s : State) : Bool := s.inRange s.regs.keyAddr.toNat s.regs.keyLen.toNat

/-- `MemRead(x[KEY_ADDR], x[KEY_LEN])`. -/
def key (s : State) : List Byte := s.memRead s.regs.keyAddr.toNat s.regs.keyLen.toNat

/-- "check iv" passes (R105). -/
def ivOk (s : State) : Bool := s.inRange s.regs.ivAddr.toNat s.regs.ivLen.toNat

/-- `MemRead(x[IV_ADDR], x[IV_LEN])`. -/
def iv (s : State) : List Byte := s.memRead s.regs.ivAddr.toNat s.regs.ivLen.toNat

/-- "check `dst` for `n`" passes (R105). -/
def dstOk (s : State) (n : Nat) : Bool := s.inRange s.regs.dstAddr.toNat n

/-- `MSG_ID.CATEGORY`, bits 7..0 (R27). -/
def msgCategory (s : State) : Byte := s.regs.msgId.extractLsb' 0 8

/-- `MSG_ID.COMMAND`, bits 15..8 (R27). -/
def msgCommand (s : State) : Byte := s.regs.msgId.extractLsb' 8 8

/-- The reserved bits 31..16 of `MSG_ID` (R27). -/
def msgReserved (s : State) : BitVec 16 := s.regs.msgId.extractLsb' 16 16

/-- The end of an operation whose last check is "check `dst` for `n`" and whose output is `v`, `n` bytes:
`BAD_OPERAND`, or `MemWrite(x[DST_ADDR], n, v); x[DST_LEN] <- n; complete`. -/
def finish (s : State) (n : Nat) (v : List Byte) : State :=
  if !s.dstOk n then s.raise .badOperand else (s.output n v).complete

end Sys2Proof.Machine.State
end

