-- ==== Sys2Proof/Machine/Ciphers.lean ====
section
/-! DEFINITION. AES-128-CBC decryption, the GEA stream cipher and CRC-32/MPEG-2 (43_ciphers.md). -/

namespace Sys2Proof.Machine

/-- The AES S-box, one row for each high nibble (R202). -/
def sbox : List Byte :=
  [0x63#8, 0x7c#8, 0x77#8, 0x7b#8, 0xf2#8, 0x6b#8, 0x6f#8, 0xc5#8, 0x30#8, 0x01#8, 0x67#8, 0x2b#8, 0xfe#8, 0xd7#8, 0xab#8, 0x76#8]
    ++ [0xca#8, 0x82#8, 0xc9#8, 0x7d#8, 0xfa#8, 0x59#8, 0x47#8, 0xf0#8, 0xad#8, 0xd4#8, 0xa2#8, 0xaf#8, 0x9c#8, 0xa4#8, 0x72#8, 0xc0#8]
    ++ [0xb7#8, 0xfd#8, 0x93#8, 0x26#8, 0x36#8, 0x3f#8, 0xf7#8, 0xcc#8, 0x34#8, 0xa5#8, 0xe5#8, 0xf1#8, 0x71#8, 0xd8#8, 0x31#8, 0x15#8]
    ++ [0x04#8, 0xc7#8, 0x23#8, 0xc3#8, 0x18#8, 0x96#8, 0x05#8, 0x9a#8, 0x07#8, 0x12#8, 0x80#8, 0xe2#8, 0xeb#8, 0x27#8, 0xb2#8, 0x75#8]
    ++ [0x09#8, 0x83#8, 0x2c#8, 0x1a#8, 0x1b#8, 0x6e#8, 0x5a#8, 0xa0#8, 0x52#8, 0x3b#8, 0xd6#8, 0xb3#8, 0x29#8, 0xe3#8, 0x2f#8, 0x84#8]
    ++ [0x53#8, 0xd1#8, 0x00#8, 0xed#8, 0x20#8, 0xfc#8, 0xb1#8, 0x5b#8, 0x6a#8, 0xcb#8, 0xbe#8, 0x39#8, 0x4a#8, 0x4c#8, 0x58#8, 0xcf#8]
    ++ [0xd0#8, 0xef#8, 0xaa#8, 0xfb#8, 0x43#8, 0x4d#8, 0x33#8, 0x85#8, 0x45#8, 0xf9#8, 0x02#8, 0x7f#8, 0x50#8, 0x3c#8, 0x9f#8, 0xa8#8]
    ++ [0x51#8, 0xa3#8, 0x40#8, 0x8f#8, 0x92#8, 0x9d#8, 0x38#8, 0xf5#8, 0xbc#8, 0xb6#8, 0xda#8, 0x21#8, 0x10#8, 0xff#8, 0xf3#8, 0xd2#8]
    ++ [0xcd#8, 0x0c#8, 0x13#8, 0xec#8, 0x5f#8, 0x97#8, 0x44#8, 0x17#8, 0xc4#8, 0xa7#8, 0x7e#8, 0x3d#8, 0x64#8, 0x5d#8, 0x19#8, 0x73#8]
    ++ [0x60#8, 0x81#8, 0x4f#8, 0xdc#8, 0x22#8, 0x2a#8, 0x90#8, 0x88#8, 0x46#8, 0xee#8, 0xb8#8, 0x14#8, 0xde#8, 0x5e#8, 0x0b#8, 0xdb#8]
    ++ [0xe0#8, 0x32#8, 0x3a#8, 0x0a#8, 0x49#8, 0x06#8, 0x24#8, 0x5c#8, 0xc2#8, 0xd3#8, 0xac#8, 0x62#8, 0x91#8, 0x95#8, 0xe4#8, 0x79#8]
    ++ [0xe7#8, 0xc8#8, 0x37#8, 0x6d#8, 0x8d#8, 0xd5#8, 0x4e#8, 0xa9#8, 0x6c#8, 0x56#8, 0xf4#8, 0xea#8, 0x65#8, 0x7a#8, 0xae#8, 0x08#8]
    ++ [0xba#8, 0x78#8, 0x25#8, 0x2e#8, 0x1c#8, 0xa6#8, 0xb4#8, 0xc6#8, 0xe8#8, 0xdd#8, 0x74#8, 0x1f#8, 0x4b#8, 0xbd#8, 0x8b#8, 0x8a#8]
    ++ [0x70#8, 0x3e#8, 0xb5#8, 0x66#8, 0x48#8, 0x03#8, 0xf6#8, 0x0e#8, 0x61#8, 0x35#8, 0x57#8, 0xb9#8, 0x86#8, 0xc1#8, 0x1d#8, 0x9e#8]
    ++ [0xe1#8, 0xf8#8, 0x98#8, 0x11#8, 0x69#8, 0xd9#8, 0x8e#8, 0x94#8, 0x9b#8, 0x1e#8, 0x87#8, 0xe9#8, 0xce#8, 0x55#8, 0x28#8, 0xdf#8]
    ++ [0x8c#8, 0xa1#8, 0x89#8, 0x0d#8, 0xbf#8, 0xe6#8, 0x42#8, 0x68#8, 0x41#8, 0x99#8, 0x2d#8, 0x0f#8, 0xb0#8, 0x54#8, 0xbb#8, 0x16#8]

/-- The AES inverse S-box, one row for each high nibble (R203). -/
def invSbox : List Byte :=
  [0x52#8, 0x09#8, 0x6a#8, 0xd5#8, 0x30#8, 0x36#8, 0xa5#8, 0x38#8, 0xbf#8, 0x40#8, 0xa3#8, 0x9e#8, 0x81#8, 0xf3#8, 0xd7#8, 0xfb#8]
    ++ [0x7c#8, 0xe3#8, 0x39#8, 0x82#8, 0x9b#8, 0x2f#8, 0xff#8, 0x87#8, 0x34#8, 0x8e#8, 0x43#8, 0x44#8, 0xc4#8, 0xde#8, 0xe9#8, 0xcb#8]
    ++ [0x54#8, 0x7b#8, 0x94#8, 0x32#8, 0xa6#8, 0xc2#8, 0x23#8, 0x3d#8, 0xee#8, 0x4c#8, 0x95#8, 0x0b#8, 0x42#8, 0xfa#8, 0xc3#8, 0x4e#8]
    ++ [0x08#8, 0x2e#8, 0xa1#8, 0x66#8, 0x28#8, 0xd9#8, 0x24#8, 0xb2#8, 0x76#8, 0x5b#8, 0xa2#8, 0x49#8, 0x6d#8, 0x8b#8, 0xd1#8, 0x25#8]
    ++ [0x72#8, 0xf8#8, 0xf6#8, 0x64#8, 0x86#8, 0x68#8, 0x98#8, 0x16#8, 0xd4#8, 0xa4#8, 0x5c#8, 0xcc#8, 0x5d#8, 0x65#8, 0xb6#8, 0x92#8]
    ++ [0x6c#8, 0x70#8, 0x48#8, 0x50#8, 0xfd#8, 0xed#8, 0xb9#8, 0xda#8, 0x5e#8, 0x15#8, 0x46#8, 0x57#8, 0xa7#8, 0x8d#8, 0x9d#8, 0x84#8]
    ++ [0x90#8, 0xd8#8, 0xab#8, 0x00#8, 0x8c#8, 0xbc#8, 0xd3#8, 0x0a#8, 0xf7#8, 0xe4#8, 0x58#8, 0x05#8, 0xb8#8, 0xb3#8, 0x45#8, 0x06#8]
    ++ [0xd0#8, 0x2c#8, 0x1e#8, 0x8f#8, 0xca#8, 0x3f#8, 0x0f#8, 0x02#8, 0xc1#8, 0xaf#8, 0xbd#8, 0x03#8, 0x01#8, 0x13#8, 0x8a#8, 0x6b#8]
    ++ [0x3a#8, 0x91#8, 0x11#8, 0x41#8, 0x4f#8, 0x67#8, 0xdc#8, 0xea#8, 0x97#8, 0xf2#8, 0xcf#8, 0xce#8, 0xf0#8, 0xb4#8, 0xe6#8, 0x73#8]
    ++ [0x96#8, 0xac#8, 0x74#8, 0x22#8, 0xe7#8, 0xad#8, 0x35#8, 0x85#8, 0xe2#8, 0xf9#8, 0x37#8, 0xe8#8, 0x1c#8, 0x75#8, 0xdf#8, 0x6e#8]
    ++ [0x47#8, 0xf1#8, 0x1a#8, 0x71#8, 0x1d#8, 0x29#8, 0xc5#8, 0x89#8, 0x6f#8, 0xb7#8, 0x62#8, 0x0e#8, 0xaa#8, 0x18#8, 0xbe#8, 0x1b#8]
    ++ [0xfc#8, 0x56#8, 0x3e#8, 0x4b#8, 0xc6#8, 0xd2#8, 0x79#8, 0x20#8, 0x9a#8, 0xdb#8, 0xc0#8, 0xfe#8, 0x78#8, 0xcd#8, 0x5a#8, 0xf4#8]
    ++ [0x1f#8, 0xdd#8, 0xa8#8, 0x33#8, 0x88#8, 0x07#8, 0xc7#8, 0x31#8, 0xb1#8, 0x12#8, 0x10#8, 0x59#8, 0x27#8, 0x80#8, 0xec#8, 0x5f#8]
    ++ [0x60#8, 0x51#8, 0x7f#8, 0xa9#8, 0x19#8, 0xb5#8, 0x4a#8, 0x0d#8, 0x2d#8, 0xe5#8, 0x7a#8, 0x9f#8, 0x93#8, 0xc9#8, 0x9c#8, 0xef#8]
    ++ [0xa0#8, 0xe0#8, 0x3b#8, 0x4d#8, 0xae#8, 0x2a#8, 0xf5#8, 0xb0#8, 0xc8#8, 0xeb#8, 0xbb#8, 0x3c#8, 0x83#8, 0x53#8, 0x99#8, 0x61#8]
    ++ [0x17#8, 0x2b#8, 0x04#8, 0x7e#8, 0xba#8, 0x77#8, 0xd6#8, 0x26#8, 0xe1#8, 0x69#8, 0x14#8, 0x63#8, 0x55#8, 0x21#8, 0x0c#8, 0x7d#8]

/-- `SBOX[x]` (R202). -/
def subByte (x : Byte) : Byte := byteAt sbox x.toNat

/-- `INVSBOX[x]` (R203). -/
def invSubByte (x : Byte) : Byte := byteAt invSbox x.toNat

/-- `xtime(a)` (R205). -/
def xtime (a : Byte) : Byte := if a.getLsbD 7 then (a <<< 1) ^^^ 0x1B#8 else a <<< 1

/-- `xtime^i(a)`. -/
def xtimes : Nat → Byte → Byte
  | 0, a => a
  | i + 1, a => xtimes i (xtime a)

/-- `a • b` in GF(2^8): the sum of `xtime^i(a)` over the set bits `i` of `b` (R205). -/
def gfMul (a b : Byte) : Byte :=
  (List.range 8).foldl (fun acc i => if b.getLsbD i then acc ^^^ xtimes i a else acc) 0#8

/-- `Rcon[0..9]` (R201). -/
def rcon : List Byte :=
  [0x01#8, 0x02#8, 0x04#8, 0x08#8, 0x10#8, 0x20#8, 0x40#8, 0x80#8, 0x1b#8, 0x36#8]

/-- `RotWord` (R201). -/
def rotWord (t : List Byte) : List Byte := t.drop 1 ++ t.take 1

/-- The key schedule's word `w[i]`, `i >= 4`, from the words before it (R201). -/
def keyWord (w : List (List Byte)) (i : Nat) : List Byte :=
  let t := w.getD (i - 1) []
  let t' :=
    if i % 4 = 0 then xorBytes ((rotWord t).map subByte) [byteAt rcon (i / 4 - 1), 0x00#8, 0x00#8, 0x00#8] else t
  xorBytes (w.getD (i - 4) []) t'

/-- The key schedule `w[0..43]`, words of 4 bytes (R201). -/
def keySchedule (k : List Byte) : List (List Byte) :=
  (List.range' 4 40).foldl (fun w i => w ++ [keyWord w i]) (blocks 4 4 k)

/-- Round key `j`: `w[4j] ‖ w[4j+1] ‖ w[4j+2] ‖ w[4j+3]` (R201). -/
def roundKey (w : List (List Byte)) (j : Nat) : List Byte := ((w.drop (4 * j)).take 4).flatten

/-- The place of `s[r][c]` in a block: `s[r][c] = in[r + 4c]` (R200). A block is the AES state in that order, so that
`AddRoundKey(j)` is an exclusive or with round key `j`. -/
def cell (s : List Byte) (r c : Nat) : Byte := byteAt s (r + 4 * c)

/-- A block from its cells, by row and column (R200). -/
def ofCells (f : Nat → Nat → Byte) : List Byte := (List.range 16).map fun i => f (i % 4) (i / 4)

/-- `InvShiftRows`: `s'[r][(c + r) mod 4] = s[r][c]` (R204), read from the target column. -/
def invShiftRows (s : List Byte) : List Byte := ofCells fun r c => cell s r ((c + 4 - r) % 4)

/-- `InvSubBytes` (R204). -/
def invSubBytes (s : List Byte) : List Byte := s.map invSubByte

/-- `InvMixColumns` (R204): row `r` of the matrix is its first row rotated right `r` places. -/
def invMixColumns (s : List Byte) : List Byte :=
  ofCells fun r c =>
    gfMul 0x0e#8 (cell s r c) ^^^ gfMul 0x0b#8 (cell s ((r + 1) % 4) c) ^^^ gfMul 0x0d#8 (cell s ((r + 2) % 4) c)
      ^^^ gfMul 0x09#8 (cell s ((r + 3) % 4) c)

/-- The rounds `j = n` down to 1 of the inverse cipher (R204). -/
def invRounds (w : List (List Byte)) : Nat → List Byte → List Byte
  | 0, s => s
  | j + 1, s => invRounds w j (invMixColumns (xorBytes (invSubBytes (invShiftRows s)) (roundKey w (j + 1))))

/-- The inverse cipher with a key schedule `w` (R204). -/
def aesDecBlock (w : List (List Byte)) (c : List Byte) : List Byte :=
  xorBytes (invSubBytes (invShiftRows (invRounds w 9 (xorBytes c (roundKey w 10))))) (roundKey w 0)

/-- `AES128_DEC_BLOCK(k, c)` (R204). -/
def aes128DecBlock (k c : List Byte) : List Byte := aesDecBlock (keySchedule k) c

/-- CBC over blocks: each plaintext block is the decrypted block XOR the ciphertext block before it (R206). -/
def cbcChain (dec : List Byte → List Byte) : List Byte → List (List Byte) → List Byte
  | _, [] => []
  | prev, c :: cs => xorBytes (dec c) prev ++ cbcChain dec c cs

/-- `CBC_DEC(k, iv, c)` (R206), for a `c` whose length is a multiple of 16. A part block at the end, which only a
`SENSOR_AESBLK` that is no multiple of 16 can give it, is dropped: DESIGN CHOICE (log entry 10). -/
def cbcDec (k iv c : List Byte) : List Byte :=
  let w := keySchedule k
  cbcChain (aesDecBlock w) iv (blocks 16 (c.length / 16) c)

/-- `AES128_CBC_DEC` (R208). -/
def execAes128CbcDec (s : State) : Result := .next <|
  if s.regs.keyLen != 16#32 || s.regs.ivLen != 16#32 then s.raise .invalidKeyMaterial
  else if !s.keyOk then s.raise .badOperand
  else if !s.ivOk then s.raise .badOperand
  else if !s.srcOk then s.raise .badOperand
  else if s.srcLen % 16 != 0 then s.raise .badOperand
  else s.finish s.srcLen (cbcDec s.key s.iv s.src)

/-- `GEA(seed, d)` for a keystream step `next` (R212): each 16-bit word of the data, low byte first, XOR that word's
keystream. The state starts at the seed on every call. Of an odd number
of bytes, which only parameters of log entry 10 can give it, the last is left out: DESIGN CHOICE. -/
def gea (next : Word → Word × BitVec 16) : Word → List Byte → List Byte
  | st, b0 :: b1 :: rest =>
    let (st', ks) := next st
    toLE16 (BitVec.ofNat 16 (le16 [b0, b1]) ^^^ ks).toNat ++ gea next st' rest
  | _, _ => []

/-- `GEA_XOR` (R215), with the device's keystream step left open (R211). -/
def execGeaXor (s : State) : Result := .next <|
  if !s.srcOk then s.raise .badOperand
  else if s.srcLen % 2 != 0 then s.raise .badOperand
  else s.finish s.srcLen (gea Config.geaNext s.regs.aux s.src)

/-- One bit of the CRC (R220). -/
def crcBit (c : Word) : Word := if c.getLsbD 31 then (c <<< 1) ^^^ 0x04C11DB7#32 else c <<< 1

/-- One byte of the CRC, most significant bit first (R220). -/
def crcByte (c : Word) (b : Byte) : Word :=
  crcBit (crcBit (crcBit (crcBit (crcBit (crcBit (crcBit (crcBit (c ^^^ b.setWidth 32 <<< 24))))))))

/-- `CRC32_MPEG2(d)` (R220). -/
def crc32Mpeg2 (d : List Byte) : Word := d.foldl crcByte 0xFFFFFFFF#32

/-- `CRC32_MPEG2` (R225): `DST_LEN` and the buffer are not written. -/
def execCrc32Mpeg2 (s : State) : Result := .next <|
  if !s.srcOk then s.raise .badOperand
  else State.complete { s with regs := { s.regs with result := crc32Mpeg2 s.src } }

end Sys2Proof.Machine
end

