-- ==== Sys2Proof/Machine/Control.lean ====
section
/-! DEFINITION. `NOP` and `SRST` (40_control.md). -/

namespace Sys2Proof.Machine

/-- `NOP` (R110): `complete`. -/
def execNop (s : State) : Result := .next s.complete

/-- `SRST` (R112): every register at its reset value, then `STATUS <- 0`, so `DONE` ends 0 too. `BUF` is kept (R332). -/
def execSrst (s : State) : Result := .next s.resetRegs

end Sys2Proof.Machine
end

