-- ==== Sys2Proof/Machine/Framing.lean ====
section
/-! DEFINITION. The framing codec, the chunker and the MCU envelope (41_framing.md). Where a rule writes the value of a
parameter of 00_scope.md R6, the parameter stands here: 0xAA `CSUM_BASE`, 0x88 `SENTINEL`, 65534 `MAX_PAYLOAD`, 64 `CHUNK`,
63 `CONT_PAYLOAD`, and 61 `CHUNK - 3` ("64 minus the 3 header bytes", R133). DEDUCED (log entry 3). -/

namespace Sys2Proof.Machine

/-- `FCSUM(b)` (R120): `(CSUM_BASE - Σ b[i]) mod 256`, the difference taken on integers. -/
def fcsum (base : Nat) (b : List Byte) : Byte := BitVec.ofInt 8 ((base : Int) - ((b.map BitVec.toNat).sum : Nat))

/-- The command byte `category<<4 | command<<1`, its bit 0 clear (R121). -/
def commandByte (category command : Byte) : Byte := category <<< 4 ||| command <<< 1

/-- The category of a command byte, bits 7..4 (R124). -/
def categoryOf (b : Byte) : BitVec 4 := b.extractLsb' 4 4

/-- The command of a command byte, bits 3..1 (R124). -/
def commandOf (b : Byte) : BitVec 3 := b.extractLsb' 1 3

/-- The continuation flag of a command byte, bit 0 (R124). -/
def continuationFlag (b : Byte) : Bool := b.getLsbD 0

/-- A command byte with the continuation flag set: `b | 0x01`. -/
def asContinuation (b : Byte) : Byte := b ||| 0x01#8

/-- The frame of a message (R121): header, payload, and the checksum or the sentinel. The length field of a payload above
65534 bytes, which a larger `MAX_PAYLOAD` lets through, wraps at 2^16: DESIGN CHOICE (log entry 10). -/
def frame (q : Params) (calcChecksum : Bool) (category command : Byte) (payload : List Byte) : List Byte :=
  let hp := commandByte category command :: toLE16 (payload.length + 1) ++ payload
  hp ++ [if calcChecksum then fcsum q.csumBase hp else q.sentinel]

/-- Zero padding to a multiple of `CHUNK` bytes; none is added to a frame that already is one (R122, D16), nor
for a `CHUNK` of 0: DESIGN CHOICE (log entry 10). -/
def padToChunk (chunk : Nat) (f : List Byte) : List Byte :=
  if f.length % chunk != 0 then f ++ bytes (chunk - f.length % chunk) 0x00#8 else f

/-- The bytes `FRAME_ENCODE` writes (R122). -/
def encodedFrame (q : Params) (c p : Bool) (category command : Byte) (payload : List Byte) : List Byte :=
  let f := frame q c category command payload
  if p then padToChunk q.chunk f else f

/-- `FRAME_ENCODE` (R122). -/
def execFrameEncode (c p : Bool) (s : State) : Result := .next <|
  if s.msgReserved != 0#16 || decide (0x0F#8 < s.msgCategory) || decide (0x07#8 < s.msgCommand) then
    s.raise .badOperand
  else if s.params.maxPayload < s.srcLen then s.raise .badOperand
  else if !s.srcOk then s.raise .badOperand
  else
    let f := encodedFrame s.params c p s.msgCategory s.msgCommand s.src
    s.finish f.length f

/-- `MSG_ID` as `FRAME_DECODE` writes it: the category in bits 7..0, the command in bits 15..8 (R126, R27). -/
def msgIdOf (b : Byte) : Word := 0#16 ++ ((commandOf b).setWidth 8 ++ (categoryOf b).setWidth 8)

/-- `FRAME_DECODE` (R126). -/
def execFrameDecode (s : State) : Result := .next <|
  if !s.srcOk then s.raise .badOperand
  else
    let f := s.src
    let n := s.srcLen
    let len := le16 (slice f 1 3)
    if n < 3 then s.raise .framingError
    else if continuationFlag (byteAt f 0) then s.raise .framingError
    else if len = 0 then s.raise .framingError
    else if n < 3 + len then s.raise .framingError
    else if !s.dstOk (len - 1) then s.raise .badOperand
    else
      let received := byteAt f (2 + len)
      let expected := fcsum s.params.csumBase (slice f 0 (2 + len))
      let s1 : State := { s with regs := { s.regs with csumInfo := csumInfo s.params.sentinel received expected } }
      if received != s.params.sentinel && received != expected then s1.raise .checksumMismatch
      else
        let s2 : State := s1.output (len - 1) (slice f 3 (2 + len))
        State.complete { s2 with regs := { s2.regs with msgId := msgIdOf (byteAt f 0) } }

/-- How many chunks a frame of `n` bytes makes (R130); one, for a `CONT_PAYLOAD` of 0: DESIGN CHOICE (log entry 10). -/
def chunkCount (q : Params) (n : Nat) : Nat := 1 + ceilDiv (n - q.chunk) q.contPayload

/-- The continuation chunk number `j >= 1` of a frame (R130). -/
def contChunk (q : Params) (f : List Byte) (j : Nat) : List Byte :=
  asContinuation (byteAt f 0)
    :: slice f (q.chunk + q.contPayload * (j - 1)) (min f.length (q.chunk + q.contPayload * j))

/-- The chunks of a frame, back to back (R130). -/
def chunked (q : Params) (f : List Byte) : List Byte :=
  slice f 0 (min f.length q.chunk) ++ (List.range (chunkCount q f.length - 1)).flatMap fun i => contChunk q f (i + 1)

/-- `CHUNK_OUT` (R130). -/
def execChunkOut (s : State) : Result := .next <|
  if s.srcLen = 0 then s.raise .badOperand
  else if !s.srcOk then s.raise .badOperand
  else
    let out := chunked s.params s.src
    if !s.dstOk out.length then s.raise .badOperand
    else
      let s1 := s.output out.length out
      State.complete { s1 with regs := { s1.regs with chunkCnt := toWord (chunkCount s.params s.srcLen) } }

/-- The first chunk of a message (R135): the frame's first `min(CHUNK, L + 3)` bytes. For a `CHUNK` under 3, `CHUNK - 3` is 0
and header bytes it does not hold read as 0: DESIGN CHOICE (log entry 10). -/
def chunkInFirst (c : List Byte) (s : State) : State :=
  let len := le16 (slice c 1 3)
  let total := len + 3
  let w := min s.params.chunk total
  if !s.dstOk w then s.raise .badOperand
  else
    let s1 := s.memWrite s.regs.dstAddr.toNat (slice c 0 w)
    let s2 : State := { s1 with regs := { s1.regs with
      rxCmd := (byteAt c 0).setWidth 32, rxDeclLen := toWord len, rxAcc := toWord (s.params.chunk - 3)
      rxBase := s.regs.dstAddr, rxWritten := toWord w } }
    if len ≤ s.params.chunk - 3 then ((s2.setRxActive false).setDstLen total).complete
    else ((s2.setRxActive true).setDstLen w).complete

/-- A continuation chunk (R135). The two failures clear `RX_ACTIVE` (D47). DESIGN CHOICE (log entry 6): `T - RX_WRITTEN`
is 0 where `RX_WRITTEN` is the larger, in states no run reaches. DESIGN CHOICE (log entry 10): a `CONT_PAYLOAD` that is not
below `CHUNK` writes only the bytes the chunk holds, and counts `w`. -/
def chunkInNext (c : List Byte) (s : State) : State :=
  let total := s.regs.rxDeclLen.toNat + 3
  let w := min s.params.contPayload (total - s.regs.rxWritten.toNat)
  let at_ := s.regs.rxBase.toNat + s.regs.rxWritten.toNat
  if (byteAt c 0).setWidth 32 != s.regs.rxCmd ||| 0x01#32 then (s.setRxActive false).raise .framingError
  else if !s.inRange at_ w then (s.setRxActive false).raise .badOperand
  else
    let s1 := s.memWrite at_ (slice c 1 (1 + w))
    let written := toWord (s.regs.rxWritten.toNat + w)
    let acc := toWord (s.regs.rxAcc.toNat + s.params.contPayload)
    let s2 : State := { s1 with regs := { s1.regs with rxWritten := written, rxAcc := acc } }
    if s.regs.rxDeclLen.toNat ≤ acc.toNat then ((s2.setRxActive false).setDstLen total).complete
    else (s2.setDstLen written.toNat).complete

/-- `CHUNK_IN` (R135). -/
def execChunkIn (s : State) : Result := .next <|
  if s.srcLen != s.params.chunk then s.raise .badOperand
  else if !s.srcOk then s.raise .badOperand
  else if s.status.rxActive then chunkInNext s.src s
  else chunkInFirst s.src s

/-- `RX_ABORT` (R140). -/
def execRxAbort (s : State) : Result := .next (s.setRxActive false).complete

/-- An MCU payload (R145): `LE32(data_type) ‖ LE32(8 + |body|) ‖ body`. -/
def mcuPayload (dataType : Nat) (body : List Byte) : List Byte :=
  toLE32 dataType ++ toLE32 (8 + body.length) ++ body

/-- `data_type` of an MCU payload (R145, R270). -/
def mcuTag (m : List Byte) : Nat := le32 (slice m 0 4)

/-- The declared length of an MCU payload (R145, R270). -/
def mcuDeclared (m : List Byte) : Nat := le32 (slice m 4 8)

/-- `MCU_WRAP` (R146). -/
def execMcuWrap (s : State) : Result := .next <|
  if !s.srcOk then s.raise .badOperand
  else s.finish (8 + s.srcLen) (mcuPayload s.regs.aux.toNat s.src)

/-- `MCU_UNWRAP` (R148). -/
def execMcuUnwrap (s : State) : Result := .next <|
  if !s.srcOk then s.raise .badOperand
  else
    let m := s.src
    let n := s.srcLen
    if n < 8 then s.raise .protocolMismatch
    else if mcuTag m != s.regs.aux.toNat then s.raise .protocolMismatch
    else if mcuDeclared m != n then s.raise .protocolMismatch
    else s.finish (n - 8) (slice m 8 n)

end Sys2Proof.Machine
end

