-- ==== Sys2Proof/Machine/Hash.lean ====
section
/-! DEFINITION. SHA-256, HMAC-SHA256 and the TLS-1.0-style PRF (42_hash.md). -/

namespace Sys2Proof.Machine

/-- The initial hash value `H0[0..7]` (R161). -/
def shaH0 : List Word :=
  [0x6a09e667#32, 0xbb67ae85#32, 0x3c6ef372#32, 0xa54ff53a#32, 0x510e527f#32, 0x9b05688c#32, 0x1f83d9ab#32,
    0x5be0cd19#32]

/-- The round constants `K[0..63]`, eight a row (R162). -/
def shaK : List Word :=
  [0x428a2f98#32, 0x71374491#32, 0xb5c0fbcf#32, 0xe9b5dba5#32, 0x3956c25b#32, 0x59f111f1#32, 0x923f82a4#32, 0xab1c5ed5#32]
    ++ [0xd807aa98#32, 0x12835b01#32, 0x243185be#32, 0x550c7dc3#32, 0x72be5d74#32, 0x80deb1fe#32, 0x9bdc06a7#32, 0xc19bf174#32]
    ++ [0xe49b69c1#32, 0xefbe4786#32, 0x0fc19dc6#32, 0x240ca1cc#32, 0x2de92c6f#32, 0x4a7484aa#32, 0x5cb0a9dc#32, 0x76f988da#32]
    ++ [0x983e5152#32, 0xa831c66d#32, 0xb00327c8#32, 0xbf597fc7#32, 0xc6e00bf3#32, 0xd5a79147#32, 0x06ca6351#32, 0x14292967#32]
    ++ [0x27b70a85#32, 0x2e1b2138#32, 0x4d2c6dfc#32, 0x53380d13#32, 0x650a7354#32, 0x766a0abb#32, 0x81c2c92e#32, 0x92722c85#32]
    ++ [0xa2bfe8a1#32, 0xa81a664b#32, 0xc24b8b70#32, 0xc76c51a3#32, 0xd192e819#32, 0xd6990624#32, 0xf40e3585#32, 0x106aa070#32]
    ++ [0x19a4c116#32, 0x1e376c08#32, 0x2748774c#32, 0x34b0bcb5#32, 0x391c0cb3#32, 0x4ed8aa4a#32, 0x5b9cca4f#32, 0x682e6ff3#32]
    ++ [0x748f82ee#32, 0x78a5636f#32, 0x84c87814#32, 0x8cc70208#32, 0x90befffa#32, 0xa4506ceb#32, 0xbef9a3f7#32, 0xc67178f2#32]

/-- `ROTR(x, n)` (R160). -/
def rotr (x : Word) (n : Nat) : Word := x >>> n ||| x <<< (32 - n)

/-- `Ch` (R160). -/
def shaCh (x y z : Word) : Word := (x &&& y) ^^^ (~~~x &&& z)

/-- `Maj` (R160). -/
def shaMaj (x y z : Word) : Word := (x &&& y) ^^^ (x &&& z) ^^^ (y &&& z)

/-- `Σ0` (R160). -/
def shaBigSigma0 (x : Word) : Word := rotr x 2 ^^^ rotr x 13 ^^^ rotr x 22

/-- `Σ1` (R160). -/
def shaBigSigma1 (x : Word) : Word := rotr x 6 ^^^ rotr x 11 ^^^ rotr x 25

/-- `σ0` (R160). -/
def shaSmallSigma0 (x : Word) : Word := rotr x 7 ^^^ rotr x 18 ^^^ x >>> 3

/-- `σ1` (R160). -/
def shaSmallSigma1 (x : Word) : Word := rotr x 17 ^^^ rotr x 19 ^^^ x >>> 10

/-- The padded message `m ‖ 0x80 ‖ zeros ‖ BE64(8·|m|)` (R160). `(55 - |m|) mod 64` is taken on integers. -/
def shaPad (m : List Byte) : List Byte :=
  m ++ [0x80#8] ++ bytes ((119 - m.length % 64) % 64) 0x00#8 ++ beBytes 8 (8 * m.length)

/-- One more word of the message schedule: `W[t] = σ1(W[t-2]) + W[t-7] + σ0(W[t-15]) + W[t-16]` (R160). -/
def shaScheduleWord (w : List Word) (t : Nat) : Word :=
  shaSmallSigma1 (w.getD (t - 2) 0#32) + w.getD (t - 7) 0#32 + shaSmallSigma0 (w.getD (t - 15) 0#32)
    + w.getD (t - 16) 0#32

/-- The message schedule `W[0..63]` of a 64-byte block (R160). -/
def shaSchedule (block : List Byte) : List Word :=
  (List.range' 16 48).foldl (fun w t => w ++ [shaScheduleWord w t])
    ((List.range 16).map fun t => toWord (be32 (slice block (4 * t) (4 * t + 4))))

/-- The eight working words `a .. h` (R160). -/
structure ShaVars where
  a : Word
  b : Word
  c : Word
  d : Word
  e : Word
  f : Word
  g : Word
  h : Word
  deriving DecidableEq, Repr

/-- One round, with its constant `k = K[t]` and its schedule word `w = W[t]` (R160). -/
def shaRound (v : ShaVars) (k w : Word) : ShaVars :=
  let t1 := v.h + shaBigSigma1 v.e + shaCh v.e v.f v.g + k + w
  let t2 := shaBigSigma0 v.a + shaMaj v.a v.b v.c
  { a := t1 + t2, b := v.a, c := v.b, d := v.c, e := v.d + t1, f := v.e, g := v.f, h := v.g }

/-- The working words as a list, `a` first. -/
def ShaVars.toList (v : ShaVars) : List Word := [v.a, v.b, v.c, v.d, v.e, v.f, v.g, v.h]

/-- The working words a block starts from: `(a, ..., h) = (H[0], ..., H[7])` (R160). -/
def ShaVars.ofHash (hash : List Word) : ShaVars :=
  { a := hash.getD 0 0#32, b := hash.getD 1 0#32, c := hash.getD 2 0#32, d := hash.getD 3 0#32
    e := hash.getD 4 0#32, f := hash.getD 5 0#32, g := hash.getD 6 0#32, h := hash.getD 7 0#32 }

/-- The hash value after one more 64-byte block (R160). -/
def shaCompress (hash : List Word) (block : List Byte) : List Word :=
  let v := (shaK.zip (shaSchedule block)).foldl (fun v kw => shaRound v kw.1 kw.2) (ShaVars.ofHash hash)
  List.zipWith (· + ·) hash v.toList

/-- `SHA256(m)` (R160). -/
def sha256 (m : List Byte) : List Byte :=
  let p := shaPad m
  let hash := (blocks 64 (p.length / 64) p).foldl shaCompress shaH0
  hash.flatMap fun w => toBE32 w.toNat

/-- `SHA256` (R165). -/
def execSha256 (s : State) : Result := .next <|
  if !s.srcOk then s.raise .badOperand
  else s.finish 32 (sha256 s.src)

/-- The 64-byte key `k0` of HMAC (R170). -/
def hmacKey0 (k : List Byte) : List Byte :=
  let k' := if 64 < k.length then sha256 k else k
  k' ++ bytes (64 - k'.length) 0x00#8

/-- `HMAC(k, m)` (R170). -/
def hmac (k m : List Byte) : List Byte :=
  let k0 := hmacKey0 k
  let ipadKey := xorBytes k0 (bytes 64 0x36#8)
  let opadKey := xorBytes k0 (bytes 64 0x5C#8)
  sha256 (opadKey ++ sha256 (ipadKey ++ m))

/-- `HMAC_SHA256` (R175). -/
def execHmacSha256 (s : State) : Result := .next <|
  if !s.keyOk then s.raise .badOperand
  else if !s.srcOk then s.raise .badOperand
  else s.finish 32 (hmac s.key s.src)

/-- The 13 ASCII bytes of `"master secret"`, without a terminator (R180, D21). -/
def masterSecret : List Byte :=
  [0x6d#8, 0x61#8, 0x73#8, 0x74#8, 0x65#8, 0x72#8, 0x20#8, 0x73#8, 0x65#8, 0x63#8, 0x72#8, 0x65#8, 0x74#8]

/-- `count` output blocks of the PRF: each turn does `A <- HMAC(k, A)` and gives `HMAC(k, A ‖ seed)` (R180). -/
def prfBlocks (k seed : List Byte) : Nat → List Byte → List Byte
  | 0, _ => []
  | count + 1, a =>
    let a' := hmac k a
    hmac k (a' ++ seed) ++ prfBlocks k seed count a'

/-- `PRF(k, r, n)` (R180): `ceil_div(n, 32)` blocks, truncated to `n` bytes. -/
def prf (k r : List Byte) (n : Nat) : List Byte :=
  let seed := masterSecret ++ r
  (prfBlocks k seed (ceilDiv n 32) seed).take n

/-- `PRF_DERIVE` (R185). -/
def execPrfDerive (s : State) : Result := .next <|
  if !s.keyOk then s.raise .badOperand
  else if !s.srcOk then s.raise .badOperand
  else
    let n := s.regs.aux.toNat
    s.finish n (prf s.key s.src n)

end Sys2Proof.Machine
end

