-- ==== Sys2Proof/Machine/Gtls.lean ====
section
/-! DEFINITION. The GTLS session-key derivation pipeline (44_gtls.md). -/

namespace Sys2Proof.Machine

/-- The failure of a handshake step: `GTLS_STATE <- FAILED` and the code (R240). -/
def State.failGtls (s : State) (e : ErrCode) : State := (s.setGtls .failed).raise e

/-- The ClientHello payload (R243). -/
def helloPayload (clientRandom : List Byte) : List Byte := mcuPayload 0xFF01 clientRandom

/-- `GTLS_HELLO` (R243). -/
def execGtlsHello (s : State) : Result := .next <|
  if !s.dstOk 40 then s.failGtls .badOperand
  else ((s.output 40 (helloPayload (arrayBytes s.regs.clientRandom))).setGtls .serverIdentify).complete

/-- The `KDF_OUT` bytes of session key material of a handshake (R245, R246). The uses of it read 68 bytes: for a `KDF_OUT`
under 68 see `Regs.withSession`, and the identity's key is what there is of bytes 32 to 63. DESIGN CHOICE (log entry 10). -/
def keyMaterial (kdfOut : Nat) (psk clientRandom serverRandom : List Byte) : List Byte :=
  prf psk (clientRandom ++ serverRandom) kdfOut

/-- The session registers as `GTLS_IDENTIFY` writes them: the randoms' and identities' bytes and the split of the key
material in fixed order (R245, R246), the counter seeds little-endian (R247). Bytes that a `KDF_OUT` under 68
leaves missing are 0, and bytes behind the 68th have no use: DESIGN CHOICE (log entry 10). -/
def Regs.withSession (r : Regs) (sr sid cid km : List Byte) : Regs :=
  { r with
    serverRandom := bytesArray 8 sr, serverIdentity := bytesArray 8 sid, clientIdentity := bytesArray 8 cid
    symKey := bytesArray 4 (slice km 0 16), symIv := bytesArray 4 (slice km 16 32)
    hmacKey := bytesArray 8 (slice km 32 64)
    ctrSeed := toWord (le16 (slice km 64 66) + 2 ^ 16 * le16 (slice km 66 68)) }

/-- The reply to ServerIdentify (R245). -/
def identifyReply (sid : List Byte) : List Byte :=
  toLE32 0xFF03 ++ toLE32 44 ++ sid ++ [0xee#8, 0xee#8, 0xee#8, 0xee#8]

/-- `GTLS_IDENTIFY` (R245). -/
def execGtlsIdentify (s : State) : Result := .next <|
  if s.regs.gtlsState != .serverIdentify then s.raise .badState
  else if !s.srcOk then s.failGtls .badOperand
  else
    let n := s.srcLen
    let m := s.src
    if n < 8 || mcuTag m != 0xFF02 || mcuDeclared m != n then s.failGtls .protocolMismatch
    else if n - 8 != 64 then s.failGtls .protocolMismatch
    else if !s.dstOk 44 then s.failGtls .badOperand
    else
      let cr := arrayBytes s.regs.clientRandom
      let sr := slice m 8 40
      let sid := slice m 40 72
      let km := keyMaterial s.params.kdfOut (arrayBytes s.regs.psk) cr sr
      let cid := hmac (slice km 32 64) (cr ++ sr)
      if cid != sid then s.failGtls .handshakeIdentityMismatch
      else
        let s1 : State := { s with regs := s.regs.withSession sr sid cid km }
        ((s1.output 44 (identifyReply sid)).setGtls .serverDone).complete

/-- The two HMAC counters seeded from `CTR_SEED`, zero-extended: the client's from bits 15..0, the server's from bits
31..16 (R250). -/
def Regs.seedCounters (r : Regs) : Regs :=
  { r with
    hmacClientCtr := (r.ctrSeed.extractLsb' 0 16).setWidth 32
    hmacServerCtr := (r.ctrSeed.extractLsb' 16 16).setWidth 32 }

/-- `GTLS_DONE` (R250). -/
def execGtlsDone (s : State) : Result := .next <|
  if s.regs.gtlsState != .serverDone then s.raise .badState
  else if !s.srcOk then s.failGtls .badOperand
  else
    let n := s.srcLen
    let m := s.src
    if n < 8 || mcuTag m != 0xFF04 || mcuDeclared m != n then s.failGtls .protocolMismatch
    else if n - 8 != 1 then s.failGtls .protocolMismatch
    else if byteAt m 8 != 0x00#8 then s.failGtls .handshakeRejected
    else
      let s1 : State := { s with regs := s.regs.seedCounters }
      ((s1.setDstLen 0).setGtls .established).complete

end Sys2Proof.Machine
end

