-- ==== Sys2Proof/Machine/Sensor.lean ====
section
/-! DEFINITION. The sensor-payload decryption and validation pipeline (45_sensor.md). The parameters are arguments of its
functions (00_scope.md R6: "a model takes each as an argument"); `execSensorDecrypt` supplies Config's open ones. Where a
rule writes the value of a parameter of R6, the parameter stands here: 0x3A7 `SENSOR_BLK0`, 0x3F0 `SENSOR_AESBLK`, 14 and 13
from `SENSOR_BLOCKS`, 5 `SENSOR_PAD`, 9 `SENSOR_PAD + 4` ("5 padding and 4 CRC bytes", R272), 0x3E0 `SENSOR_AESBLK - 16`
("last ciphertext block of seg", R273). DEDUCED (log entry 3). -/

namespace Sys2Proof.Machine

/-- The length of body block `j`, any but the last (R271, R273). -/
def blockSize (q : Params) (midPassLen j : Nat) : Nat :=
  if j = 0 then q.sensorBlk0 else if j % 2 = 1 then q.sensorAesBlk else midPassLen

/-- The length of the `count` body blocks from number `j` on. -/
def blocksTotal (q : Params) (midPassLen : Nat) : Nat → Nat → Nat
  | 0, _ => 0
  | count + 1, j => blockSize q midPassLen j + blocksTotal q midPassLen count (j + 1)

/-- `MINBODY`, the length of all blocks but the last: `0x3A7 + 7·0x3F0 + 6·MID_PASS_LEN` (R271) for the values of R6.
For a `SENSOR_BLOCKS` of 0 or 1 it is 0 and the whole body is copied: DESIGN CHOICE (log entry 10). -/
def minBody (q : Params) (midPassLen : Nat) : Nat := blocksTotal q midPassLen (q.sensorBlocks - 1) 0

/-- The blocks `j`, `j + 1`, ... of a body, `count` of them, and then the last block: the rest, copied. `prev` is the last
ciphertext block of the AES block before (R273). The last block is copied whatever its number is, and a `SENSOR_AESBLK` that
is no multiple of 16 loses its part block in `cbcDec`, so that the result is shorter than the body: DESIGN CHOICE (log entry
10). -/
def splitFrom (q : Params) (midPassLen : Nat) (cbcRestart : Bool) (k v : List Byte) :
    Nat → Nat → List Byte → List Byte → List Byte
  | 0, _, _, rest => rest
  | count + 1, j, prev, rest =>
    let size := blockSize q midPassLen j
    let seg := rest.take size
    if j % 2 = 1 then
      cbcDec k (if cbcRestart then v else prev) seg
        ++ splitFrom q midPassLen cbcRestart k v count (j + 1) (slice seg (q.sensorAesBlk - 16) q.sensorAesBlk)
          (rest.drop size)
    else seg ++ splitFrom q midPassLen cbcRestart k v count (j + 1) prev (rest.drop size)

/-- `SENSOR_SPLIT(body)` (R273): the pre-GEA buffer. -/
def sensorSplit (q : Params) (midPassLen : Nat) (cbcRestart : Bool) (k v body : List Byte) : List Byte :=
  splitFrom q midPassLen cbcRestart k v (q.sensorBlocks - 1) 0 v body

/-- The CRC value a trailer holds: `q[0]·0x100 + q[1] + q[2]·0x1000000 + q[3]·0x10000` (R277). -/
def crcTrailer (q : List Byte) : Nat :=
  (byteAt q 0).toNat * 0x100 + (byteAt q 1).toNat + (byteAt q 2).toNat * 0x1000000 + (byteAt q 3).toNat * 0x10000

/-- The message of the integrity check: `BE32(ctr) ‖ buf[n - 0x400 .. n)` (R275). Where the parameters make `n` less than
0x400 it covers the whole buffer: DESIGN CHOICE (log entry 10). -/
def integrityMessage (ctr : Word) (n : Nat) (buf : List Byte) : List Byte :=
  toBE32 ctr.toNat ++ slice buf (n - 0x400) n

/-- Steps 5 and 6 of R272, once the integrity check has passed: drop the padding, check the CRC, run GEA.
Where the parameters make the buffer shorter than `SENSOR_PAD + 4` bytes or than `n`, what is missing is left out, and a
missing trailer byte reads as 0: DESIGN CHOICE (log entry 10). -/
def sensorTail (next : Word → Word × BitVec 16) (n : Nat) (buf : List Byte) (s : State) : State :=
  let r := slice buf s.params.sensorPad n
  let keep := n - (s.params.sensorPad + 4)
  let g := slice r 0 keep
  if (crc32Mpeg2 g).toNat != crcTrailer (slice r keep (n - s.params.sensorPad)) then s.raise .crcMismatch
  else (s.output keep (gea next (toWord (le32 (arrayBytes s.regs.symKey))) g)).complete

/-- `SENSOR_DECRYPT` for given open parameters (R272). -/
def sensorDecrypt (midPassLen : Nat) (cbcRestart : Bool) (next : Word → Word × BitVec 16) (s : State) : State :=
  if s.regs.gtlsState != .established then s.raise .badState
  else if !s.srcOk then s.raise .badOperand
  else
    let len := s.srcLen
    let m := s.src
    let n := len - 40
    let keep := n - (s.params.sensorPad + 4)
    if len < 8 then s.raise .shortInput
    else if mcuTag m != 0xAA01 then s.raise .unexpectedDataType
    else if mcuDeclared m != len then s.raise .lengthMismatch
    else if len < 40 + minBody s.params midPassLen then s.raise .shortInput
    else if keep % 2 != 0 then s.raise .badOperand
    else if !s.dstOk keep then s.raise .badOperand
    else
      let buf := sensorSplit s.params midPassLen cbcRestart (arrayBytes s.regs.symKey) (arrayBytes s.regs.symIv)
        (slice m 8 (8 + n))
      let tag := slice m (8 + n) len
      if hmac (arrayBytes s.regs.hmacKey) (integrityMessage s.regs.hmacServerCtr n buf) != tag then
        s.raise .integrityCheckFailed
      else
        sensorTail next n buf { s with regs := { s.regs with hmacServerCtr := s.regs.hmacServerCtr + 1#32 } }

/-- `SENSOR_DECRYPT` (R272), with the device's open parameters. -/
def execSensorDecrypt (s : State) : Result :=
  .next (sensorDecrypt Config.midPassLen Config.cbcRestart Config.geaNext s)

end Sys2Proof.Machine
end

