-- ==== Sys2Proof/Machine/Dispatch.lean ====
section
/-! DEFINITION. Dispatch: the meaning of each operation (30_encoding.md R82). -/

namespace Sys2Proof.Machine

def exec (i : Instr) (s : State) : Host.Outcome State Fault Refusal :=
  match i with
  | .nop => Sys2Proof.Machine.execNop s
  | .frameEncode c p => Sys2Proof.Machine.execFrameEncode c p s
  | .frameDecode => Sys2Proof.Machine.execFrameDecode s
  | .chunkOut => Sys2Proof.Machine.execChunkOut s
  | .chunkIn => Sys2Proof.Machine.execChunkIn s
  | .rxAbort => Sys2Proof.Machine.execRxAbort s
  | .mcuWrap => Sys2Proof.Machine.execMcuWrap s
  | .mcuUnwrap => Sys2Proof.Machine.execMcuUnwrap s
  | .sha256 => Sys2Proof.Machine.execSha256 s
  | .hmacSha256 => Sys2Proof.Machine.execHmacSha256 s
  | .prfDerive => Sys2Proof.Machine.execPrfDerive s
  | .aes128CbcDec => Sys2Proof.Machine.execAes128CbcDec s
  | .geaXor => Sys2Proof.Machine.execGeaXor s
  | .crc32Mpeg2 => Sys2Proof.Machine.execCrc32Mpeg2 s
  | .gtlsHello => Sys2Proof.Machine.execGtlsHello s
  | .gtlsIdentify => Sys2Proof.Machine.execGtlsIdentify s
  | .gtlsDone => Sys2Proof.Machine.execGtlsDone s
  | .sensorDecrypt => Sys2Proof.Machine.execSensorDecrypt s
  | .srst => Sys2Proof.Machine.execSrst s

end Sys2Proof.Machine
end

