-- ==== Sys2Proof/Machine/Port.lean ====
section
/-! DEFINITION. The host port: the register map (10_state.md R24), the accesses and which of them are violations
(20_memory.md R60 to R68, 70_reset_and_hazards.md R340, R343), and the host agent that makes them, one statement of its
program a turn (30_encoding.md R86). -/

namespace Sys2Proof.Machine

/-- The registers of R24 by name; an array's word by its number. -/
inductive RegName where
  | cmd
  | status
  | srcAddr
  | srcLen
  | dstAddr
  | dstLen
  | keyAddr
  | keyLen
  | ivAddr
  | ivLen
  | aux
  | msgId
  | result
  | csumInfo
  | chunkCnt
  | rxCmd
  | rxDeclLen
  | rxAcc
  | rxBase
  | rxWritten
  | gtlsState
  | hmacClientCtr
  | hmacServerCtr
  | ctrSeed
  | psk (i : Fin 8)
  | clientRandom (i : Fin 8)
  | serverRandom (i : Fin 8)
  | serverIdentity (i : Fin 8)
  | clientIdentity (i : Fin 8)
  | symKey (i : Fin 4)
  | symIv (i : Fin 4)
  | hmacKey (i : Fin 8)
  deriving DecidableEq, Repr

/-- The access classes of R23. -/
inductive RegClass where
  /-- Written by the host, read as 0. -/
  | w
  /-- Written by the host, read back. -/
  | rw
  /-- Written only by operations and reset. -/
  | r
  deriving DecidableEq, Repr

/-- The byte offset of a register (R24). -/
def RegName.offset : RegName → Nat
  | .cmd => 0x000
  | .status => 0x004
  | .srcAddr => 0x008
  | .srcLen => 0x00C
  | .dstAddr => 0x010
  | .dstLen => 0x014
  | .keyAddr => 0x018
  | .keyLen => 0x01C
  | .ivAddr => 0x020
  | .ivLen => 0x024
  | .aux => 0x028
  | .msgId => 0x02C
  | .result => 0x030
  | .csumInfo => 0x034
  | .chunkCnt => 0x038
  | .rxCmd => 0x03C
  | .rxDeclLen => 0x040
  | .rxAcc => 0x044
  | .rxBase => 0x048
  | .rxWritten => 0x04C
  | .gtlsState => 0x050
  | .hmacClientCtr => 0x054
  | .hmacServerCtr => 0x058
  | .ctrSeed => 0x05C
  | .psk i => 0x060 + 4 * i
  | .clientRandom i => 0x080 + 4 * i
  | .serverRandom i => 0x0A0 + 4 * i
  | .serverIdentity i => 0x0C0 + 4 * i
  | .clientIdentity i => 0x0E0 + 4 * i
  | .symKey i => 0x100 + 4 * i
  | .symIv i => 0x110 + 4 * i
  | .hmacKey i => 0x120 + 4 * i

/-- The access class of a register (R24). -/
def RegName.cls : RegName → RegClass
  | .cmd => .w
  | .srcAddr => .rw
  | .srcLen => .rw
  | .dstAddr => .rw
  | .keyAddr => .rw
  | .keyLen => .rw
  | .ivAddr => .rw
  | .ivLen => .rw
  | .aux => .rw
  | .msgId => .rw
  | .psk _ => .rw
  | .clientRandom _ => .rw
  | .status => .r
  | .dstLen => .r
  | .result => .r
  | .csumInfo => .r
  | .chunkCnt => .r
  | .rxCmd => .r
  | .rxDeclLen => .r
  | .rxAcc => .r
  | .rxBase => .r
  | .rxWritten => .r
  | .gtlsState => .r
  | .hmacClientCtr => .r
  | .hmacServerCtr => .r
  | .ctrSeed => .r
  | .serverRandom _ => .r
  | .serverIdentity _ => .r
  | .clientIdentity _ => .r
  | .symKey _ => .r
  | .symIv _ => .r
  | .hmacKey _ => .r

/-- Every register, in the order of R24. -/
def allRegs : List RegName :=
  List.flatten
    [[RegName.cmd, RegName.status, RegName.srcAddr, RegName.srcLen, RegName.dstAddr, RegName.dstLen],
      [RegName.keyAddr, RegName.keyLen, RegName.ivAddr, RegName.ivLen, RegName.aux, RegName.msgId],
      [RegName.result, RegName.csumInfo, RegName.chunkCnt, RegName.rxCmd, RegName.rxDeclLen, RegName.rxAcc],
      [RegName.rxBase, RegName.rxWritten, RegName.gtlsState, RegName.hmacClientCtr, RegName.hmacServerCtr],
      [RegName.ctrSeed], (List.finRange 8).map RegName.psk, (List.finRange 8).map RegName.clientRandom,
      (List.finRange 8).map RegName.serverRandom, (List.finRange 8).map RegName.serverIdentity,
      (List.finRange 8).map RegName.clientIdentity, (List.finRange 4).map RegName.symKey,
      (List.finRange 4).map RegName.symIv, (List.finRange 8).map RegName.hmacKey]

/-- The register at a byte offset; none where the offset is unassigned (R24). -/
def regAt (offset : Nat) : Option RegName := allRegs.find? fun r => r.offset == offset

/-- What the host reads from a register (R23, R25, R30). -/
def State.readReg (s : State) : RegName → Word
  | .cmd => 0#32
  | .status => s.status.word
  | .srcAddr => s.regs.srcAddr
  | .srcLen => s.regs.srcLen
  | .dstAddr => s.regs.dstAddr
  | .dstLen => s.regs.dstLen
  | .keyAddr => s.regs.keyAddr
  | .keyLen => s.regs.keyLen
  | .ivAddr => s.regs.ivAddr
  | .ivLen => s.regs.ivLen
  | .aux => s.regs.aux
  | .msgId => s.regs.msgId
  | .result => s.regs.result
  | .csumInfo => s.regs.csumInfo
  | .chunkCnt => s.regs.chunkCnt
  | .rxCmd => s.regs.rxCmd
  | .rxDeclLen => s.regs.rxDeclLen
  | .rxAcc => s.regs.rxAcc
  | .rxBase => s.regs.rxBase
  | .rxWritten => s.regs.rxWritten
  | .gtlsState => s.regs.gtlsState.word
  | .hmacClientCtr => s.regs.hmacClientCtr
  | .hmacServerCtr => s.regs.hmacServerCtr
  | .ctrSeed => s.regs.ctrSeed
  | .psk i => s.regs.psk[i]
  | .clientRandom i => s.regs.clientRandom[i]
  | .serverRandom i => s.regs.serverRandom[i]
  | .serverIdentity i => s.regs.serverIdentity[i]
  | .clientIdentity i => s.regs.clientIdentity[i]
  | .symKey i => s.regs.symKey[i]
  | .symIv i => s.regs.symIv[i]
  | .hmacKey i => s.regs.hmacKey[i]

/-- A host write to a register that has class `W` or `RW`: `CMD` starts an operation (R26), any other stores the word,
reserved bits too (R23). The `R` registers are listed last: the port refuses to write one (R343). -/
def State.writeReg (s : State) (r : RegName) (v : Word) : State :=
  match r with
  | .cmd => s.accept v
  | .srcAddr => { s with regs := { s.regs with srcAddr := v } }
  | .srcLen => { s with regs := { s.regs with srcLen := v } }
  | .dstAddr => { s with regs := { s.regs with dstAddr := v } }
  | .keyAddr => { s with regs := { s.regs with keyAddr := v } }
  | .keyLen => { s with regs := { s.regs with keyLen := v } }
  | .ivAddr => { s with regs := { s.regs with ivAddr := v } }
  | .ivLen => { s with regs := { s.regs with ivLen := v } }
  | .aux => { s with regs := { s.regs with aux := v } }
  | .msgId => { s with regs := { s.regs with msgId := v } }
  | .psk i => { s with regs := { s.regs with psk := s.regs.psk.set i v } }
  | .clientRandom i => { s with regs := { s.regs with clientRandom := s.regs.clientRandom.set i v } }
  | .status | .dstLen | .result | .csumInfo | .chunkCnt | .rxCmd | .rxDeclLen | .rxAcc | .rxBase | .rxWritten
  | .gtlsState | .hmacClientCtr | .hmacServerCtr | .ctrSeed | .serverRandom _ | .serverIdentity _
  | .clientIdentity _ | .symKey _ | .symIv _ | .hmacKey _ => s

/-- The accesses of the host port (R60): registers by width and byte offset, the buffer by bytes. -/
inductive Access where
  | regRead (width offset : Nat)
  | regWrite (width offset : Nat) (v : Word)
  | bufRead (addr : Nat)
  | bufWrite (addr : Nat) (b : Byte)
  deriving DecidableEq, Repr

/-- The violation of a register access that is not of width 32 at the offset of a register (R67, R343). -/
def regViolation (width offset : Nat) : Option Fault :=
  if width != 32 then some .registerWidth
  else if offset % 4 != 0 then some .registerAlignment
  else if (regAt offset).isNone then some .unassignedRegister
  else none

/-- Which violation an access is while nothing is pending, if any (R62, R67, R343). -/
def idleViolation (s : State) : Access → Option Fault
  | .regRead width offset => regViolation width offset
  | .regWrite width offset _ =>
    match regViolation width offset with
    | some f => some f
    | none => if (regAt offset).any (fun r => r.cls == .r) then some .readOnlyRegister else none
  | .bufRead addr => if s.params.bufSize ≤ addr then some .bufferAddress else none
  | .bufWrite addr _ => if s.params.bufSize ≤ addr then some .bufferAddress else none

/-- The one access the host may make while an operation is pending: a read of `STATUS` (R340). -/
def isStatusRead (a : Access) : Bool := a == .regRead 32 (RegName.offset .status)

/-- Which host-interface violation an access is, if any (R340, R343). Where several apply at once the order of the
checks decides the fault's name; R343 gives none. DESIGN CHOICE (log entry 8). -/
def violation (s : State) (a : Access) : Option Fault :=
  if s.status.busy && !isStatusRead a then some .busyHazard else idleViolation s a

/-- What a permitted access returns to the host: a register's word, a buffer byte, nothing for a write. -/
def accessData (s : State) : Access → Option Word
  | .regRead _ offset => (regAt offset).map s.readReg
  | .regWrite _ _ _ => none
  | .bufRead addr => some ((s.readByte addr).setWidth 32)
  | .bufWrite _ _ => none

/-- What a permitted access does to the engine (R67, R68: a read has no side effect). -/
def accessEffect (s : State) : Access → State
  | .regRead _ _ => s
  | .regWrite _ offset v =>
    match regAt offset with
    | some r => s.writeReg r v
    | none => s
  | .bufRead _ => s
  | .bufWrite addr b => s.memWrite addr [b]

/-- The host goes on with the statement numbered `pc`. -/
def State.hostAt (s : State) (pc : Nat) : State := { s with host := { s.host with pc := pc } }

/-- One access of the host port, after which the host goes on with its next statement; what it read is kept. -/
def hostAccess (s : State) (a : Access) : Result :=
  match violation s a with
  | some f => .fault f
  | none =>
    let s1 := accessEffect s a
    .next { s1 with host := { s.host with
      pc := s.host.pc + 1, reads := s.host.reads ++ (accessData s a).toList } }

/-- The number of the statement `label:` in a program: of the first, where the program holds the label more than once,
which R86 leaves open. DESIGN CHOICE (log entry 4). -/
def labelPos (prog : List HostStmt) (l : Nat) : Option Nat := prog.findIdx? (· == .label l)

/-- A branch of the host program: to the label when `taken`, else on. -/
def hostBranch (s : State) (taken : Bool) (l : Nat) : Result :=
  if taken then
    match labelPos s.host.prog l with
    | some pc => .next (s.hostAt pc)
    | none => .fault .missingLabel
  else .next (s.hostAt (s.host.pc + 1))

/-- The host's turn: its program's next statement (R86). After `HALT`, and after the last statement, the host does
nothing more. A read of `STATUS` is permitted at all times (R340), so `WAIT`, `BERR` and `BRX` never violate. -/
def hostStep (s : State) : Result :=
  match s.host.prog[s.host.pc]? with
  | none => .next s
  | some .halt => .next s
  | some (.wr width offset v) => hostAccess s (.regWrite width offset v)
  | some (.rd width offset) => hostAccess s (.regRead width offset)
  | some (.wrb addr b) => hostAccess s (.bufWrite addr b)
  | some (.rdb addr) => hostAccess s (.bufRead addr)
  | some .wait => if s.status.busy then .next s else .next (s.hostAt (s.host.pc + 1))
  | some (.berr l) => hostBranch s s.status.err l
  | some (.brx l) => hostBranch s s.status.rxActive l
  | some (.goto l) => hostBranch s true l
  | some (.label _) => .next (s.hostAt (s.host.pc + 1))

end Sys2Proof.Machine
end

