-- ==== Sys2Proof/Machine/Engine.lean ====
section
/-! DEFINITION. What Machine/Step.lean calls: the engine's step (40_control.md R100), the illegal word (R103), whose turn
it is, and the end of a step. -/

namespace Sys2Proof.Machine

/-- What the engine does with a pending word: the operation it decodes to, or `raise BAD_OPCODE` with no other effect
(R100, R103). -/
def perform (w : Word) (s : State) : Result :=
  match decode w with
  | .op i => exec i s
  | .illegal _ => .next (s.raise .badOpcode)

/-- `PEND <- none` (R100). -/
def State.retire (s : State) : State := { s with pend := none }

/-- The engine's step (R100): with `PEND = none` it has none, and its turn passes. -/
def engineStep (s : State) : Result :=
  match s.pend with
  | none => .next s
  | some w => onNext State.retire (perform w s)

/-- Who moves: the head of the schedule; with none left, the engine when an operation is pending (R350: it is eventually
performed), else the host (R331). DESIGN CHOICE (log entry 5). -/
def nextTurn (s : State) : Turn :=
  match s.schedule with
  | t :: _ => t
  | [] => if s.pend.isSome then .engine else .host

/-- The turn is used up. -/
def State.endTurn (s : State) : State := { s with schedule := s.schedule.tail }

/-- The step of the agent whose turn it is. -/
def turnStep (s : State) : Result :=
  match nextTurn s with
  | .host => hostStep s
  | .engine => engineStep s
  | .reset => .next s.hardReset

/-- The word `w` pending in `s` as if the host had just written it to `CMD`, and the engine's turn. -/
def State.withPending (s : State) (w : Word) : State := { s.accept w with schedule := .engine :: s.schedule }

end Sys2Proof.Machine
end

