-- ==== Sys2Proof/Machine/Step.lean ====
section
/-! DEFINITION. One step of the machine. -/

namespace Sys2Proof.Machine

/-- One step: one transaction of the host, or the engine's step, or the reset input (00_scope.md R5, 40_control.md R100,
20_memory.md R71, 70_reset_and_hazards.md R330). -/
def step (s : State) : Host.Outcome State Fault Refusal := onNext State.endTurn (turnStep s)

/-- `s` with a table word of `nbits` bits, the bits above them 0, where the engine takes its next operation from: `PEND`,
written as the acceptance of a `CMD` write does (10_state.md R26), and the engine's turn (log entry 4). -/
def State.withFetchWord (s : State) (nbits w : Nat) : State := s.withPending (BitVec.ofNat 32 (w % 2 ^ nbits))

end Sys2Proof.Machine
end

