-- ==== Sys2Proof/WellFormed.lean ====
section
/-! DEFINITION. Which command words are legal, as 30_encoding.md R84 lists what makes one illegal. It is written from
R84's lists and not from the decoder's table (R82), so that a statement can hold the two against each other.

A term of `Instr` has no ill-formed value: its only operands are two bits (R81). What can be ill-formed is a word. -/

namespace Sys2Proof.CmdWord

/-- The reserved operation codes R84 lists. -/
def reservedOp (op : Nat) : Bool :=
  op == 0x06 || op == 0x07 || (0x0A ≤ op && op ≤ 0x0F) || op == 0x16 || op == 0x17
    || (0x1B ≤ op && op ≤ 0x1F) || (0x21 ≤ op && op ≤ 0x3E)

/-- Check 1 of R84: `OP`, bits 5..0, is a code of the table. -/
def opAssigned (w : Word) : Bool := !reservedOp (w.toNat % 64)

/-- Check 2 of R84: bits 7..6 and 31..10 are 0. -/
def reservedClear (w : Word) : Bool := w.toNat / 64 % 4 == 0 && w.toNat / 1024 == 0

/-- Check 3 of R84: `C` (bit 8) and `P` (bit 9) are 0 unless `OP = 0x01`. -/
def flagsAllowed (w : Word) : Bool := w.toNat / 256 % 4 == 0 || w.toNat % 64 == 1

/-- A word is legal when none of R84's conditions holds. -/
def wellFormed (w : Word) : Bool := opAssigned w && reservedClear w && flagsAllowed w

end Sys2Proof.CmdWord
end

