-- ==== Sys2Proof/Safety.lean ====
section
/-! DEFINITION. What counts as a safe run: the invariant every step keeps, and the terms in which the claims about the
operations are stated. -/

namespace Sys2Proof.Machine

/-- `BUSY` while an operation is pending and only then (R26, R100, R104); "`BUSY` and `DONE` are never both 1. `ERR = 1`
exactly when `ERRCODE != 0`" (R25); no error code before the first completion and while busy (R25, R26). -/
def State.StatusInv (s : State) : Prop :=
  (s.status.busy = true ↔ s.pend.isSome = true) ∧ ¬(s.status.busy = true ∧ s.status.done = true) ∧
    (s.status.err = true ↔ s.status.errcode ≠ .ok) ∧ (s.status.done = false → s.status.errcode = .ok)

/-- The reserved bits of the read-only registers read 0 (R24, R28; I11). -/
def State.ReservedInv (s : State) : Prop :=
  s.regs.rxCmd.toNat < 2 ^ 8 ∧ s.regs.rxDeclLen.toNat < 2 ^ 16 ∧ s.regs.csumInfo.toNat < 2 ^ 17

/-- While a reassembly is active (R133, R134): `RX_ACC = 61 + 63j`, that is `CHUNK - 3 + CONT_PAYLOAD·j`, for some number
`j` of continuation chunks, still below the declared length; `RX_WRITTEN = min(L + 3, RX_ACC + 3)`; what was written lies in
the buffer. -/
def State.RxInv (s : State) : Prop :=
  s.status.rxActive = true →
    (∃ j, s.regs.rxAcc.toNat = s.params.chunk - 3 + s.params.contPayload * j) ∧
      s.regs.rxAcc.toNat < s.regs.rxDeclLen.toNat ∧
      s.regs.rxWritten.toNat = min (s.regs.rxDeclLen.toNat + 3) (s.regs.rxAcc.toNat + 3) ∧
      s.regs.rxBase.toNat + s.regs.rxWritten.toNat ≤ s.params.bufSize

/-- The session registers: `CLIENT_IDENTITY = SERVER_IDENTITY` (R32), and in an established session `HMAC_CLIENT_CTR`
holds its seed (R31, I21). -/
def State.SessionInv (s : State) : Prop :=
  s.regs.clientIdentity = s.regs.serverIdentity ∧
    (s.regs.gtlsState = .established → s.regs.hmacClientCtr.toNat = s.regs.ctrSeed.toNat % 2 ^ 16)

/-- `BUF_SIZE` is at least 0x20000 (93_implementation_defined.md I22) and a 32-bit number; a chunk holds the 3 header bytes,
or the continuation byte and `CONT_PAYLOAD` bytes (R133), and fits in the smallest buffer. All but the first are DEDUCED
(log entry 3). -/
def State.ParamInv (s : State) : Prop :=
  0x20000 ≤ s.params.bufSize ∧ s.params.bufSize < 2 ^ 32 ∧ 3 ≤ s.params.chunk ∧ s.params.chunk ≤ 0x20000 ∧
    s.params.contPayload < s.params.chunk

/-- The invariant: all of these, and the buffer in its canonical form, its addresses below `BUF_SIZE`. -/
def State.Inv (s : State) : Prop :=
  s.StatusInv ∧ s.ReservedInv ∧ s.RxInv ∧ s.SessionInv ∧ s.ParamInv ∧ s.buf.wf ∧ s.buf.within s.params.bufSize

/-- The range `BUF[a .. a+n)` lies in the buffer: `InRange(a, n)` of R61 for an address register. -/
abbrev InBuf (s : State) (a : Word) (n : Nat) : Prop := a.toNat + n ≤ s.params.bufSize

/-- Every byte of the buffer reads as before. -/
def SameBuffer (s t : State) : Prop := ∀ x, t.readByte x = s.readByte x

/-- Every byte of the buffer reads as before, but the bytes from `a` up, which read as `v`. -/
def Written (s t : State) (a : Nat) (v : List Byte) : Prop :=
  ∀ x, t.readByte x = if a ≤ x ∧ x < a + v.length then byteAt v (x - a) else s.readByte x

/-- What no operation touches: `PEND` (the step clears it), the host, the parameters and the model's own fields. -/
def SameRest (s t : State) : Prop :=
  t.pend = s.pend ∧ t.host = s.host ∧ t.params = s.params ∧ t.resets = s.resets ∧ t.schedule = s.schedule

/-- `exec` answers a next state, in which the operation has completed (R104): `STATUS` says so, with `RX_ACTIVE = rx`; the
registers are `r`; the buffer reads as before but for the bytes `v` at `a`; nothing else changed. -/
def CompletesWith (i : Instr) (s : State) (r : Regs) (rx : Bool) (a : Nat) (v : List Byte) : Prop :=
  ∃ t, exec i s = .next t ∧
    t.status = { busy := false, done := true, err := false, rxActive := rx, errcode := .ok } ∧
    t.regs = r ∧ Written s t a v ∧ SameRest s t

/-- `exec` answers a next state, in which the operation has failed with the code `e` (R104, R304): `STATUS` says so, with
`RX_ACTIVE = rx`; the registers are `r`; no byte of the buffer and nothing else changed. -/
def RaisesWith (i : Instr) (s : State) (e : ErrCode) (r : Regs) (rx : Bool) : Prop :=
  ∃ t, exec i s = .next t ∧
    t.status = { busy := false, done := true, err := true, rxActive := rx, errcode := e } ∧
    t.regs = r ∧ SameBuffer s t ∧ SameRest s t

/-- The word `w` is the one word of operation `i`: it decodes to `i`, and any other word with its `OP` is illegal. -/
def OnlyWordOf (i : Instr) (w : Word) : Prop :=
  decode w = .op i ∧ ∀ w', opField w' = opField w → w' ≠ w → ∃ why, decode w' = .illegal why

/-- What the host may do between two operations without touching the handshake's inputs: it may write the operand
registers and the buffer, not `PSK` and not `CLIENT_RANDOM` (R83). -/
def OperandsOnly (s t : State) : Prop :=
  t.regs = { s.regs with
    srcAddr := t.regs.srcAddr, srcLen := t.regs.srcLen, dstAddr := t.regs.dstAddr, keyAddr := t.regs.keyAddr
    keyLen := t.regs.keyLen, ivAddr := t.regs.ivAddr, ivLen := t.regs.ivLen, aux := t.regs.aux
    msgId := t.regs.msgId }

/-- Every register at its reset value (R24, R35): 0, and `PSK` the 32 bytes of `PSK_DEFAULT` in order. -/
def AtResetValues (s : State) : Prop :=
  (∀ r, (∀ i, r ≠ .psk i) → s.readReg r = 0#32) ∧ arrayBytes s.regs.psk = (List.range 32).map Config.pskDefault

/-- The registers marked "w" for an operation in 30_encoding.md R83 (`STATUS`, which every operation writes, apart).
`SRST` writes all. -/
def mayWrite (i : Instr) (r : RegName) : Bool :=
  match i with
  | .nop => false
  | .frameEncode _ _ => r == .dstLen
  | .frameDecode => r == .dstLen || r == .msgId || r == .csumInfo
  | .chunkOut => r == .dstLen || r == .chunkCnt
  | .chunkIn =>
    r == .dstLen || r == .rxCmd || r == .rxDeclLen || r == .rxAcc || r == .rxBase || r == .rxWritten
  | .rxAbort => false
  | .mcuWrap => r == .dstLen
  | .mcuUnwrap => r == .dstLen
  | .sha256 => r == .dstLen
  | .hmacSha256 => r == .dstLen
  | .prfDerive => r == .dstLen
  | .aes128CbcDec => r == .dstLen
  | .geaXor => r == .dstLen
  | .crc32Mpeg2 => r == .result
  | .gtlsHello => r == .dstLen || r == .gtlsState
  | .gtlsIdentify =>
    r == .dstLen || r == .gtlsState || r == .ctrSeed
      || decide (0x0A0 ≤ r.offset)
  | .gtlsDone => r == .dstLen || r == .gtlsState || r == .hmacClientCtr || r == .hmacServerCtr
  | .sensorDecrypt => r == .dstLen || r == .hmacServerCtr
  | .srst => true

/-- The error codes an operation may raise, by the "raised by" column of 60_exceptions.md R300. `BAD_OPCODE` is raised by
illegal words only. -/
def mayRaise : Instr → List ErrCode
  | .nop => []
  | .frameEncode _ _ => [.badOperand]
  | .frameDecode => [.checksumMismatch, .framingError, .badOperand]
  | .chunkOut => [.badOperand]
  | .chunkIn => [.framingError, .badOperand]
  | .rxAbort => []
  | .mcuWrap => [.badOperand]
  | .mcuUnwrap => [.protocolMismatch, .badOperand]
  | .sha256 => [.badOperand]
  | .hmacSha256 => [.badOperand]
  | .prfDerive => [.badOperand]
  | .aes128CbcDec => [.invalidKeyMaterial, .badOperand]
  | .geaXor => [.badOperand]
  | .crc32Mpeg2 => [.badOperand]
  | .gtlsHello => [.badOperand]
  | .gtlsIdentify => [.protocolMismatch, .handshakeIdentityMismatch, .badOperand, .badState]
  | .gtlsDone => [.protocolMismatch, .handshakeRejected, .badOperand, .badState]
  | .sensorDecrypt =>
    [.integrityCheckFailed, .crcMismatch, .unexpectedDataType, .lengthMismatch, .badOperand, .badState, .shortInput]
  | .srst => []

/-- The three handshake steps (R240). -/
def isHandshakeStep (i : Instr) : Bool := i == .gtlsHello || i == .gtlsIdentify || i == .gtlsDone

/-- The engine's turn, with a pending word that decodes to `i`: the operation the coming step performs (R100). -/
def Performs (s : State) (i : Instr) : Prop := nextTurn s = .engine ∧ ∃ w, s.pend = some w ∧ decode w = .op i

/-- The chunks given to `CHUNK_IN` one by one, each written at `SRC_ADDR` before its operation (41_framing.md R136). -/
def chunkInAll : List (List Byte) → State → Result
  | [], s => .next s
  | c :: cs, s =>
    match exec .chunkIn (s.memWrite s.regs.srcAddr.toNat c) with
    | .next t => chunkInAll cs t
    | .fault r => .fault r
    | .refused r => .refused r

end Sys2Proof.Machine
end

