-- ==== Sys2Proof/Certificates/Slice0/Obligations.lean ====
section
/-! DEFINITION. The statements for the provers. The terms they share (`CompletesWith`, `RaisesWith`, `Written`, ...) are
in Sys2Proof/Safety.lean. -/

open Sys2Proof Sys2Proof.Machine

/-! ## Encoding -/

/-- Decoding what was encoded gives the operation back with its operand bits, and a word that decodes to an operation is
that operation's word (30_encoding.md R80, R82, R85). -/
def Obligations.DecodeAndEncodeAgree : Prop :=
  (∀ i, decode (encode i) = .op i) ∧ ∀ w i, decode w = .op i → encode i = w

/-- R85: every word is one row of R82 or illegal by R84 (`CmdWord.wellFormed`, written from R84's lists), and a decoder
tells the operation from `OP` alone. -/
def Obligations.DecodeRefusesExactlyIllegalWords : Prop :=
  (∀ w, (∃ i, decode w = .op i) ↔ CmdWord.wellFormed w = true) ∧
    ∀ w i, decode w = .op i → opOf (w.extractLsb' 0 6) (w.getLsbD 8) (w.getLsbD 9) = some i

/-- R88's worked encodings; its illegal word completes with `BAD_OPCODE`. -/
def Obligations.WorkedEncodings : Prop :=
  encode (.frameEncode true false) = 0x00000101#32 ∧ encode (.frameEncode true true) = 0x00000301#32 ∧
    encode (.frameEncode false false) = 0x00000001#32 ∧ encode .frameDecode = 0x00000002#32 ∧
    encode .sensorDecrypt = 0x00000020#32 ∧ encode .srst = 0x0000003F#32 ∧
    decode 0x00000301#32 = .op (.frameEncode true true) ∧ decode 0x0000003F#32 = .op .srst ∧
    (∃ why, decode 0x00000102#32 = .illegal why) ∧
    ∀ s : State, ∃ t, perform 0x00000102#32 s = .next t ∧ t.status.err = true ∧ t.status.errcode = .badOpcode

/-- R103: a pending illegal word completes with `BAD_OPCODE` and no other effect; `PEND` is cleared. The turns and the
schedule are the model's (log entry 5). -/
def Obligations.IllegalWordRaisesBadOpcode : Prop :=
  ∀ (s : State) (w : Word), nextTurn s = .engine → s.pend = some w → CmdWord.wellFormed w = false →
    ∃ t, step s = .next t ∧ t.pend = none ∧
      t.status = { busy := false, done := true, err := true, rxActive := s.status.rxActive, errcode := .badOpcode } ∧
      t.regs = s.regs ∧ SameBuffer s t ∧ t.host = s.host ∧ t.params = s.params ∧
      t.resets = s.resets ∧ t.schedule = s.schedule.tail

/-- R100: on the engine's turn the step performs the operation the pending word decodes to and clears `PEND`; with
nothing pending the engine has no step and its turn passes. The turns are the model's (log entry 5). -/
def Obligations.StepPerformsDecodedOperation : Prop :=
  (∀ (s t : State) (w : Word) (i : Instr), nextTurn s = .engine → s.pend = some w → decode w = .op i →
      exec i s = .next t → step s = .next { t with pend := none, schedule := t.schedule.tail }) ∧
    ∀ s : State, nextTurn s = .engine → s.pend = none → step s = .next { s with schedule := s.schedule.tail }

/-! ## Control and the host port -/

/-- R110. -/
def Obligations.NopOnlyCompletes : Prop :=
  OnlyWordOf .nop 0x00000000#32 ∧ ∀ s : State, CompletesWith .nop s s.regs s.status.rxActive 0 []

/-- R112: every register takes its reset value, then `STATUS` is 0 (so `DONE` too), and `BUF` is not changed. -/
def Obligations.SrstResetsRegisters : Prop :=
  OnlyWordOf .srst 0x0000003F#32 ∧
    ∀ s : State, ∃ t, exec .srst s = .next t ∧ AtResetValues t ∧ t.status.word = 0#32 ∧
      t.regs.gtlsState = .clientHello ∧ SameBuffer s t ∧ SameRest s t

/-- R26: a write of `w` to `CMD` while not busy is accepted in the same host step; the engine's next step performs it and
clears `PEND`; a write while busy is a hazard. The turns are the model's (log entry 5). -/
def Obligations.CommandAcceptance : Prop :=
  (∀ (s : State) (w : Word), s.status.busy = false →
      ∃ t, hostAccess s (.regWrite 32 0x000 w) = .next t ∧ t.pend = some w ∧
        t.status = { busy := true, done := false, err := false, rxActive := s.status.rxActive, errcode := .ok } ∧
        t.regs = s.regs ∧ SameBuffer s t ∧ t.resets = s.resets) ∧
    (∀ (s t : State) (w : Word), nextTurn s = .engine → s.pend = some w → step s = .next t →
      t.pend = none ∧ ∃ u, perform w s = .next u ∧ t.regs = u.regs ∧ t.status = u.status ∧ t.buf = u.buf) ∧
    ∀ (s : State) (w : Word), s.status.busy = true →
      hostAccess s (.regWrite 32 0x000 w) = .fault .busyHazard

/-- R340 and R343: from acceptance until `STATUS.BUSY` reads 0 a read of `STATUS` is permitted, and changes nothing but
what the host holds; every other access is a violation. That its name is `busyHazard` also where R343 lists the access
under another item (a read of `STATUS` of another width, a misaligned or unassigned offset, a buffer address out of
range) is the model's choice (log entry 8). -/
def Obligations.BusyAllowsOnlyStatusReads : Prop :=
  ∀ s : State, s.status.busy = true →
    (∃ t, hostAccess s (.regRead 32 0x004) = .next t ∧ t.host.reads = s.host.reads ++ [s.status.word] ∧
      t.regs = s.regs ∧ t.status = s.status ∧ t.pend = s.pend ∧ SameBuffer s t) ∧
    ∀ a : Access, a ≠ .regRead 32 0x004 → hostAccess s a = .fault .busyHazard

/-- R343: the violations are exactly these: a register access of another width, misaligned or at an unassigned offset, a
write to an `R` register, a buffer address `>= BUF_SIZE`, and any access R340 forbids. -/
def Obligations.HostViolationsExactly : Prop :=
  ∀ (s : State) (a : Access), (∃ f, hostAccess s a = .fault f) ↔
    (s.status.busy = true ∧ a ≠ .regRead 32 0x004) ∨
      match a with
      | .regRead width o => width ≠ 32 ∨ o % 4 ≠ 0 ∨ 0x140 ≤ o
      | .regWrite width o _ => width ≠ 32 ∨ o % 4 ≠ 0 ∨ 0x140 ≤ o ∨ o = 0x004 ∨ o = 0x014 ∨
          (0x030 ≤ o ∧ o < 0x060) ∨ 0x0A0 ≤ o
      | .bufRead x => s.params.bufSize ≤ x
      | .bufWrite x _ => s.params.bufSize ≤ x

/-- R23 and R67: a host write to an `RW` register is read back from that register, every other register and the buffer
stay; reading any register returns its whole word and has no side effect; `CMD` reads as 0. -/
def Obligations.HostRegisterAccess : Prop :=
  (∀ (s : State) (r : RegName) (v : Word), s.status.busy = false → r.cls = .rw →
      ∃ t, hostAccess s (.regWrite 32 r.offset v) = .next t ∧ t.readReg r = v ∧
        (∀ q, q ≠ r → t.readReg q = s.readReg q) ∧ SameBuffer s t ∧ t.pend = s.pend) ∧
    (∀ (s : State) (r : RegName), s.status.busy = false →
      ∃ t, hostAccess s (.regRead 32 r.offset) = .next t ∧ t.host.reads = s.host.reads ++ [s.readReg r] ∧
        (∀ q, t.readReg q = s.readReg q) ∧ SameBuffer s t ∧ t.pend = s.pend) ∧
    ∀ s : State, s.readReg .cmd = 0#32

/-- R62 and R68: a host byte write sets the byte and nothing else; a byte read returns it and changes nothing. -/
def Obligations.HostBufferAccess : Prop :=
  ∀ (s : State) (x : Nat) (b : Byte), s.status.busy = false → x < s.params.bufSize →
    (∃ t, hostAccess s (.bufWrite x b) = .next t ∧ Written s t x [b] ∧ t.regs = s.regs ∧ t.status = s.status ∧
      t.pend = s.pend) ∧
    ∃ t, hostAccess s (.bufRead x) = .next t ∧ t.host.reads = s.host.reads ++ [(s.readByte x).setWidth 32] ∧
      t.regs = s.regs ∧ t.status = s.status ∧ t.pend = s.pend ∧ SameBuffer s t

/-- R305: the host's turns leave `STATUS` alone until one writes `CMD`, whose acceptance clears `DONE`, `ERR` and
`ERRCODE`; no other step but the performing of a pending operation and reset changes it. -/
def Obligations.ErrorStateLastsUntilNextCommand : Prop :=
  ∀ s t : State, step s = .next t → t.status = s.status ∨
    (nextTurn s = .host ∧ (∃ w, s.host.prog[s.host.pc]? = some (.wr 32 0x000 w) ∧ t.pend = some w) ∧
      t.status = { busy := true, done := false, err := false, rxActive := s.status.rxActive, errcode := .ok }) ∨
    (nextTurn s = .engine ∧ s.pend.isSome = true) ∨ nextTurn s = .reset

/-- R330: the reset input puts every register at its reset value, abandons a pending operation, and makes every buffer
byte a new draw. The turn, the draws' numbering and that the host goes on are the model's (log entries 5, 1 and 4). -/
def Obligations.ResetInput : Prop :=
  ∀ s : State, nextTurn s = .reset →
    ∃ t, step s = .next t ∧ AtResetValues t ∧ t.status.word = 0#32 ∧ t.regs.gtlsState = .clientHello ∧
      t.pend = none ∧ (∀ x, t.readByte x = Config.bufDraw (s.resets + 1) x) ∧ t.host = s.host ∧
      t.params = s.params

/-- R35 and R331: after reset every register has its reset value, nothing is pending, the engine is idle, and the first
step is the host's. -/
def Obligations.ResetStateValues : Prop :=
  AtResetValues State.reset ∧ State.reset.status.word = 0#32 ∧ State.reset.regs.gtlsState = .clientHello ∧
    State.reset.pend = none ∧ nextTurn State.reset = .host ∧ ∃ n, ∀ x, State.reset.readByte x = Config.bufDraw n x

/-! ## Rules about the whole engine -/

/-- The invariant (Sys2Proof/Safety.lean) holds at reset, and the parameters have R6's values. -/
def Obligations.InvariantHoldsAtReset : Prop := State.reset.Inv ∧ State.reset.params.HasSpecValues

/-- Every step, of the host, of the engine or of the reset input, keeps the invariant: `STATUS` (R25), the reserved bits
(R24, R28), the reassembly registers (R133, R134), the session registers (R31, R32), the buffer's canonical form; and
the parameters stay what they are. -/
def Obligations.StepKeepsInvariant : Prop :=
  ∀ s t : State, s.Inv → step s = .next t → t.Inv ∧ t.params = s.params

/-- R104: every operation on any operands answers a next state; it ends with `BUSY = 0`, and but for `SRST` with
`DONE = 1`, `ERR = 1` exactly with a nonzero code. -/
def Obligations.EveryOperationEnds : Prop :=
  ∀ (i : Instr) (s : State), ∃ t, exec i s = .next t ∧ t.status.busy = false ∧
    (i ≠ .srst → t.status.done = true) ∧ (t.status.err = true ↔ t.status.errcode ≠ .ok) ∧
    (t.status.err = true ↔ t.status.errcode.code ≠ 0#8)

/-- R102: a failing operation writes no buffer byte and no register except `STATUS`, the diagnostics and the state
transitions that the rules name for the failure. -/
def Obligations.FailureWritesNothing : Prop :=
  ∀ (i : Instr) (s t : State), exec i s = .next t → t.status.err = true →
    SameBuffer s t ∧ SameRest s t ∧
      (t.status.rxActive = s.status.rxActive ∨ (i = .chunkIn ∧ s.status.rxActive = true)) ∧
      ∀ r, r ≠ .status → t.readReg r = s.readReg r ∨
        (i = .frameDecode ∧ t.status.errcode = .checksumMismatch ∧ r = .csumInfo) ∨
        (isHandshakeStep i = true ∧ t.status.errcode ≠ .badState ∧ r = .gtlsState ∧ t.regs.gtlsState = .failed) ∨
        (i = .sensorDecrypt ∧ t.status.errcode = .crcMismatch ∧ r = .hmacServerCtr)

/-- R300: the codes' numbers, and each operation raises only codes the table lists for it. -/
def Obligations.ErrorCodesByOperation : Prop :=
  ([ErrCode.ok, .checksumMismatch, .framingError, .protocolMismatch, .handshakeIdentityMismatch, .handshakeRejected,
      .integrityCheckFailed, .crcMismatch, .unexpectedDataType, .lengthMismatch, .invalidKeyMaterial, .badOpcode,
      .badOperand, .badState, .shortInput].map fun e => e.code.toNat) =
      [0x00, 0x01, 0x02, 0x03, 0x04, 0x05, 0x06, 0x07, 0x08, 0x09, 0x0A, 0x10, 0x11, 0x12, 0x13] ∧
    ∀ (i : Instr) (s t : State), exec i s = .next t → t.status.errcode = .ok ∨ t.status.errcode ∈ mayRaise i

/-- R83: registers not marked "w" for an operation are not written by it, `STATUS` apart. -/
def Obligations.OperationsKeepUnlistedRegisters : Prop :=
  ∀ (i : Instr) (s t : State), exec i s = .next t → ∀ r, r ≠ .status → mayWrite i r = false →
    t.readReg r = s.readReg r

/-- R29: the reassembly registers and `STATUS.RX_ACTIVE` are written only by `CHUNK_IN`, `RX_ABORT`, `SRST` and reset;
they persist across every other step. -/
def Obligations.ReassemblyStateWriters : Prop :=
  ∀ s t : State, step s = .next t →
    (t.status.rxActive = s.status.rxActive ∧ t.regs.rxCmd = s.regs.rxCmd ∧ t.regs.rxDeclLen = s.regs.rxDeclLen ∧
      t.regs.rxAcc = s.regs.rxAcc ∧ t.regs.rxBase = s.regs.rxBase ∧ t.regs.rxWritten = s.regs.rxWritten) ∨
    Performs s .chunkIn ∨ Performs s .rxAbort ∨ Performs s .srst ∨ nextTurn s = .reset

/-- R240 and R241: `GTLS_STATE` moves only as the rule lists, in every step of the machine, and a handshake step moves it
to its success state, leaves it alone on `BAD_STATE`, and to `FAILED` on any other error; `SRST` and reset move it to
`CLIENT_HELLO`. -/
def Obligations.HandshakeStateMoves : Prop :=
  (∀ s t : State, step s = .next t → t.regs.gtlsState ≠ s.regs.gtlsState →
      (nextTurn s = .reset ∧ t.regs.gtlsState = .clientHello) ∨
      (Performs s .srst ∧ t.regs.gtlsState = .clientHello) ∨
      (Performs s .gtlsHello ∧ (t.regs.gtlsState = .serverIdentify ∨ t.regs.gtlsState = .failed)) ∨
      (Performs s .gtlsIdentify ∧ s.regs.gtlsState = .serverIdentify ∧
        (t.regs.gtlsState = .serverDone ∨ t.regs.gtlsState = .failed)) ∨
      (Performs s .gtlsDone ∧ s.regs.gtlsState = .serverDone ∧
        (t.regs.gtlsState = .established ∨ t.regs.gtlsState = .failed))) ∧
    (∀ s t : State, Performs s .srst ∨ nextTurn s = .reset → step s = .next t → t.regs.gtlsState = .clientHello) ∧
    ∀ (i : Instr) (s t : State), isHandshakeStep i = true → exec i s = .next t →
      (t.status.err = false → (i = .gtlsHello ∧ t.regs.gtlsState = .serverIdentify) ∨
        (i = .gtlsIdentify ∧ s.regs.gtlsState = .serverIdentify ∧ t.regs.gtlsState = .serverDone) ∨
        (i = .gtlsDone ∧ s.regs.gtlsState = .serverDone ∧ t.regs.gtlsState = .established)) ∧
      (t.status.errcode = .badState → t.regs = s.regs) ∧
      (t.status.err = true → t.status.errcode ≠ .badState → t.regs.gtlsState = .failed)

/-- R31: `HMAC_CLIENT_CTR` changes only in `GTLS_DONE`, `SRST` and reset, `HMAC_SERVER_CTR` only in these and in
`SENSOR_DECRYPT`. -/
def Obligations.SessionCounterWriters : Prop :=
  ∀ s t : State, step s = .next t →
    (t.regs.hmacClientCtr ≠ s.regs.hmacClientCtr →
      Performs s .gtlsDone ∨ Performs s .srst ∨ nextTurn s = .reset) ∧
    (t.regs.hmacServerCtr ≠ s.regs.hmacServerCtr →
      Performs s .gtlsDone ∨ Performs s .sensorDecrypt ∨ Performs s .srst ∨ nextTurn s = .reset)

/-! ## Framing -/

/-- R120: the checksum is the byte that makes the sum of the bytes and itself `CSUM_BASE` mod 256; the rule writes R6's
value 0xAA for it. -/
def Obligations.FrameChecksumLaw : Prop :=
  ∀ (base : Nat) (b : List Byte), ((b.map BitVec.toNat).sum + (fcsum base b).toNat) % 256 = base % 256

/-- R121, R123 and R124: the layout of the frame of a message, its lengths with and without padding, and the fields of
its command byte, for every `SENTINEL`, `CSUM_BASE` and nonzero `CHUNK`; the rules write R6's values 0x88, 0xAA and 64 for
them. -/
def Obligations.FrameLayout : Prop :=
  ∀ (q : Params) (c p : Bool) (category command : Byte) (payload : List Byte),
    category.toNat ≤ 0xF → command.toNat ≤ 0x7 → payload.length ≤ 65534 → 0 < q.chunk →
    let f := encodedFrame q c p category command payload
    let n := payload.length
    (byteAt f 0).toNat = 16 * category.toNat + 2 * command.toNat ∧
      (categoryOf (byteAt f 0)).toNat = category.toNat ∧ (commandOf (byteAt f 0)).toNat = command.toNat ∧
      continuationFlag (byteAt f 0) = false ∧
      le16 (slice f 1 3) = n + 1 ∧ slice f 3 (n + 3) = payload ∧
      byteAt f (n + 3) = (if c then fcsum q.csumBase (slice f 0 (n + 3)) else q.sentinel) ∧
      f.length = (if p then q.chunk * ceilDiv (n + 4) q.chunk else n + 4) ∧
      ∀ k, n + 4 ≤ k → k < f.length → byteAt f k = 0#8

/-- R122: `FRAME_ENCODE`. Its four checks all raise `BAD_OPERAND`; otherwise it writes the frame of R121, padded when
`P` is set, and `DST_LEN`. For 65534 stands the parameter `MAX_PAYLOAD`. What
`encodedFrame` is for one above 65534 or a `CHUNK` of 0, and `DST_LEN` for a `BUF_SIZE` of 2^32 or more, is the model's choice (log entry 10). -/
def Obligations.FrameEncodeResult : Prop :=
  ∀ (c p : Bool) (s : State),
    let id := s.regs.msgId.toNat
    let f := encodedFrame s.params c p (BitVec.ofNat 8 id) (BitVec.ofNat 8 (id / 256)) s.src
    let bad := 0x10000 ≤ id ∨ 0xF < id % 256 ∨ 0x7 < id / 256 % 256 ∨ s.params.maxPayload < s.regs.srcLen.toNat ∨
      ¬ InBuf s s.regs.srcAddr s.regs.srcLen.toNat ∨ ¬ InBuf s s.regs.dstAddr f.length
    decode (BitVec.ofNat 32 (1 + (if c then 256 else 0) + (if p then 512 else 0))) = .op (.frameEncode c p) ∧
      (bad → RaisesWith (.frameEncode c p) s .badOperand s.regs s.status.rxActive) ∧
      (¬ bad → CompletesWith (.frameEncode c p) s { s.regs with dstLen := toWord f.length } s.status.rxActive
        s.regs.dstAddr.toNat f)

/-- R126: `FRAME_DECODE`, its checks in order, `CSUM_INFO` (R28) and `MSG_ID` as numbers. For 0x88 stands the parameter
`SENTINEL`. -/
def Obligations.FrameDecodeResult : Prop :=
  ∀ s : State,
    let n := s.regs.srcLen.toNat
    let f := s.src
    let len := le16 (slice f 1 3)
    let malformed := n < 3 ∨ (byteAt f 0).toNat % 2 = 1 ∨ len = 0 ∨ n < 3 + len
    let rcv := byteAt f (2 + len)
    let expected := fcsum s.params.csumBase (slice f 0 (2 + len))
    let info := toWord (rcv.toNat + 256 * expected.toNat + if rcv = s.params.sentinel then 65536 else 0)
    OnlyWordOf .frameDecode 0x00000002#32 ∧
      (¬ InBuf s s.regs.srcAddr n → RaisesWith .frameDecode s .badOperand s.regs s.status.rxActive) ∧
      (InBuf s s.regs.srcAddr n → malformed → RaisesWith .frameDecode s .framingError s.regs s.status.rxActive) ∧
      (InBuf s s.regs.srcAddr n → ¬ malformed → ¬ InBuf s s.regs.dstAddr (len - 1) →
        RaisesWith .frameDecode s .badOperand s.regs s.status.rxActive) ∧
      (InBuf s s.regs.srcAddr n → ¬ malformed → InBuf s s.regs.dstAddr (len - 1) → rcv ≠ s.params.sentinel →
        rcv ≠ expected →
        RaisesWith .frameDecode s .checksumMismatch { s.regs with csumInfo := info } s.status.rxActive) ∧
      (InBuf s s.regs.srcAddr n → ¬ malformed → InBuf s s.regs.dstAddr (len - 1) →
        rcv = s.params.sentinel ∨ rcv = expected →
        CompletesWith .frameDecode s
          { s.regs with
            csumInfo := info, dstLen := toWord (len - 1)
            msgId := toWord ((byteAt f 0).toNat / 16 + 256 * ((byteAt f 0).toNat / 2 % 8)) }
          s.status.rxActive s.regs.dstAddr.toNat (slice f 3 (2 + len)))

/-- R127: what `FRAME_ENCODE` wrote, `FRAME_DECODE` decodes to the same category, command and payload, wherever it is
told to write the payload, for every message of at most 65534 bytes and every `C`, `P`; with every `BUF_SIZE` that is a 32-bit
number (log entry 3), whatever the other parameters are. That a `CHUNK` of 0 pads nothing is the model's choice (log entry
10). -/
def Obligations.FrameRoundTrip : Prop :=
  ∀ (c p : Bool) (s t : State) (dst : Word), s.params.bufSize < 2 ^ 32 → exec (.frameEncode c p) s = .next t →
    t.status.err = false → s.regs.srcLen.toNat ≤ 65534 → InBuf s dst s.regs.srcLen.toNat →
    ∃ u, exec .frameDecode { t with regs := { t.regs with
        srcAddr := s.regs.dstAddr, srcLen := t.regs.dstLen, dstAddr := dst } } = .next u ∧
      u.status.err = false ∧ u.regs.msgId = s.regs.msgId ∧ u.regs.dstLen = s.regs.srcLen ∧
      u.memRead dst.toNat s.regs.srcLen.toNat = s.src

/-- R128: for a frame with a well-formed header (checks 1 to 6 pass), `FRAME_DECODE` succeeds if and only if the checksum
byte is the checksum of the bytes before it or the sentinel (the parameter `SENTINEL`, for which the rule writes 0x88). -/
def Obligations.DecodeAcceptsChecksumOrSentinel : Prop :=
  ∀ s t : State, exec .frameDecode s = .next t →
    InBuf s s.regs.srcAddr s.regs.srcLen.toNat → 3 ≤ s.regs.srcLen.toNat → continuationFlag (byteAt s.src 0) = false →
    le16 (slice s.src 1 3) ≠ 0 → 3 + le16 (slice s.src 1 3) ≤ s.regs.srcLen.toNat →
    InBuf s s.regs.dstAddr (le16 (slice s.src 1 3) - 1) →
    (t.status.err = false ↔
      (byteAt s.src (2 + le16 (slice s.src 1 3)) =
          fcsum s.params.csumBase (slice s.src 0 (2 + le16 (slice s.src 1 3))) ∨
        byteAt s.src (2 + le16 (slice s.src 1 3)) = s.params.sentinel))

/-- R130: `CHUNK_OUT`. The output is `N + k - 1` bytes; chunk `j` starts at output offset `64j`; the first holds the first
64 bytes of the frame, each later one the continuation byte and the next 63. With the values of R6, an invariant, and
any `BUF_SIZE` (that a length wraps for one of 2^32 or more is the model's choice, log entry 10). -/
def Obligations.ChunkOutResult : Prop :=
  ∀ s : State, s.params.HasSpecValues →
    let n := s.regs.srcLen.toNat
    let k := 1 + ceilDiv (n - 64) 63
    let bad := n = 0 ∨ ¬ InBuf s s.regs.srcAddr n ∨ ¬ InBuf s s.regs.dstAddr (n + k - 1)
    OnlyWordOf .chunkOut 0x00000003#32 ∧
      (bad → RaisesWith .chunkOut s .badOperand s.regs s.status.rxActive) ∧
      (¬ bad → ∃ out, CompletesWith .chunkOut s { s.regs with dstLen := toWord (n + k - 1), chunkCnt := toWord k }
          s.status.rxActive s.regs.dstAddr.toNat out ∧
        out.length = n + k - 1 ∧ slice out 0 64 = slice s.src 0 64 ∧
        ∀ j, 1 ≤ j → j < k → slice out (64 * j) (64 * j + 64) =
          (byteAt s.src 0 ||| 0x01#8) :: slice s.src (64 + 63 * (j - 1)) (64 + 63 * j))

/-- R135: `CHUNK_IN` on a first chunk. For 64 stands the parameter `CHUNK`, for 61 `CHUNK - 3` (R133). What a
`CHUNK` under 3 does is the model's choice (log entry 10). -/
def Obligations.ChunkInFirstChunk : Prop :=
  ∀ s : State, s.status.rxActive = false →
    let c := s.src
    let len := le16 (slice c 1 3)
    let w := min s.params.chunk (len + 3)
    let bad := s.regs.srcLen.toNat ≠ s.params.chunk ∨ ¬ InBuf s s.regs.srcAddr s.params.chunk ∨
      ¬ InBuf s s.regs.dstAddr w
    OnlyWordOf .chunkIn 0x00000004#32 ∧
      (bad → RaisesWith .chunkIn s .badOperand s.regs false) ∧
      (¬ bad → CompletesWith .chunkIn s
        { s.regs with
          rxCmd := toWord (byteAt c 0).toNat, rxDeclLen := toWord len, rxAcc := toWord (s.params.chunk - 3)
          rxBase := s.regs.dstAddr, rxWritten := toWord w
          dstLen := toWord (if len ≤ s.params.chunk - 3 then len + 3 else w) }
        (decide (s.params.chunk - 3 < len)) s.regs.dstAddr.toNat (slice c 0 w))

/-- R135: `CHUNK_IN` on a continuation chunk, in a state that meets the reassembly invariant (without it `T - RX_WRITTEN`
could be negative, log entry 6). Failures at checks 4 and 5 clear `RX_ACTIVE`. For 64 and 63 stand the parameters `CHUNK`
and `CONT_PAYLOAD`. -/
def Obligations.ChunkInContinuationChunk : Prop :=
  ∀ s : State, s.status.rxActive = true → s.RxInv → s.ReservedInv → s.ParamInv →
    let c := s.src
    let len := s.regs.rxDeclLen.toNat
    let k := s.params.contPayload
    let w := min k (len + 3 - s.regs.rxWritten.toNat)
    let a := s.regs.rxBase.toNat + s.regs.rxWritten.toNat
    (s.regs.srcLen.toNat ≠ s.params.chunk ∨ ¬ InBuf s s.regs.srcAddr s.params.chunk →
        RaisesWith .chunkIn s .badOperand s.regs true) ∧
      (s.regs.srcLen.toNat = s.params.chunk → InBuf s s.regs.srcAddr s.params.chunk →
        ((byteAt c 0).setWidth 32 ≠ s.regs.rxCmd ||| 0x01#32 → RaisesWith .chunkIn s .framingError s.regs false) ∧
        ((byteAt c 0).setWidth 32 = s.regs.rxCmd ||| 0x01#32 →
          (s.params.bufSize < a + w → RaisesWith .chunkIn s .badOperand s.regs false) ∧
          (a + w ≤ s.params.bufSize → CompletesWith .chunkIn s
            { s.regs with
              rxWritten := toWord (s.regs.rxWritten.toNat + w), rxAcc := toWord (s.regs.rxAcc.toNat + k)
              dstLen := toWord (if len ≤ s.regs.rxAcc.toNat + k then len + 3 else s.regs.rxWritten.toNat + w) }
            (decide (s.regs.rxAcc.toNat + k < len)) a (slice c 1 (1 + w)))))

/-- R134: after any `CHUNK_IN` that succeeded, `RX_WRITTEN = min(L + 3, RX_ACC + 3)`, active or idle. -/
def Obligations.ReassemblyCountAfterChunkIn : Prop :=
  ∀ s t : State, s.Inv → exec .chunkIn s = .next t → t.status.err = false →
    t.regs.rxWritten.toNat = min (t.regs.rxDeclLen.toNat + 3) (t.regs.rxAcc.toNat + 3)

/-- R136: reassembly inverts chunking. The chunks of a frame `f` of `L + 3` bytes, each extended with any bytes to 64 and
given to `CHUNK_IN` in order from the idle state with `DST_ADDR = a`, leave `f` at `a`, `DST_LEN = L + 3` and
`RX_ACTIVE = 0`; and `CHUNK_OUT` makes `1 + ceil_div(max(0, L - 61), 63)` of them. The chunks are handed over at a place
that does not meet the frame's. With the values of R6, an invariant. -/
def Obligations.ReassemblyInvertsChunking : Prop :=
  ∀ (s : State) (f : List Byte) (chunks : List (List Byte)),
    let len := le16 (slice f 1 3)
    let k := chunkCount s.params f.length
    s.params.HasSpecValues → f.length = len + 3 → continuationFlag (byteAt f 0) = false →
    chunks.length = k → (∀ c ∈ chunks, c.length = 64) →
    (∀ j, j < chunks.length → slice (chunked s.params f) (64 * j) (64 * j + 64) <+: chunks.getD j []) →
    s.status.rxActive = false → s.regs.srcLen = 64#32 → InBuf s s.regs.srcAddr 64 →
    InBuf s s.regs.dstAddr (len + 3) →
    (s.regs.srcAddr.toNat + 64 ≤ s.regs.dstAddr.toNat ∨ s.regs.dstAddr.toNat + (len + 3) ≤ s.regs.srcAddr.toNat) →
    k = 1 + ceilDiv (len - 61) 63 ∧
      ∃ t, chunkInAll chunks s = .next t ∧ t.status.rxActive = false ∧ t.status.err = false ∧
        t.regs.dstLen = toWord (len + 3) ∧ t.memRead s.regs.dstAddr.toNat (len + 3) = f

/-- R140: `RX_ABORT` clears `RX_ACTIVE` and changes nothing else but `STATUS`. -/
def Obligations.RxAbortResult : Prop :=
  OnlyWordOf .rxAbort 0x00000005#32 ∧ ∀ s : State, CompletesWith .rxAbort s s.regs false 0 []

/-- R145 and R146: `MCU_WRAP`. That a length wraps at 2^32, for a `BUF_SIZE` of that or more, is the model's choice (log entry 10). -/
def Obligations.McuWrapResult : Prop :=
  ∀ s : State,
    let n := s.regs.srcLen.toNat
    let m := toLE32 s.regs.aux.toNat ++ toLE32 (8 + n) ++ s.src
    let bad := ¬ InBuf s s.regs.srcAddr n ∨ ¬ InBuf s s.regs.dstAddr (8 + n)
    OnlyWordOf .mcuWrap 0x00000008#32 ∧
      (bad → RaisesWith .mcuWrap s .badOperand s.regs s.status.rxActive) ∧
      (¬ bad → CompletesWith .mcuWrap s { s.regs with dstLen := toWord (8 + n) } s.status.rxActive
        s.regs.dstAddr.toNat m)

/-- R148: `MCU_UNWRAP`, its checks in order. -/
def Obligations.McuUnwrapResult : Prop :=
  ∀ s : State,
    let n := s.regs.srcLen.toNat
    let m := s.src
    let mismatch := n < 8 ∨ le32 (slice m 0 4) ≠ s.regs.aux.toNat ∨ le32 (slice m 4 8) ≠ n
    OnlyWordOf .mcuUnwrap 0x00000009#32 ∧
      (¬ InBuf s s.regs.srcAddr n → RaisesWith .mcuUnwrap s .badOperand s.regs s.status.rxActive) ∧
      (InBuf s s.regs.srcAddr n → mismatch → RaisesWith .mcuUnwrap s .protocolMismatch s.regs s.status.rxActive) ∧
      (InBuf s s.regs.srcAddr n → ¬ mismatch → ¬ InBuf s s.regs.dstAddr (n - 8) →
        RaisesWith .mcuUnwrap s .badOperand s.regs s.status.rxActive) ∧
      (InBuf s s.regs.srcAddr n → ¬ mismatch → InBuf s s.regs.dstAddr (n - 8) →
        CompletesWith .mcuUnwrap s { s.regs with dstLen := toWord (n - 8) } s.status.rxActive
          s.regs.dstAddr.toNat (slice m 8 n))

/-- R148, corner case: `MCU_UNWRAP` inverts `MCU_WRAP` for the same `AUX`, for every `BUF_SIZE` that is a 32-bit number
(log entry 3: else the declared length would wrap). -/
def Obligations.McuUnwrapInvertsWrap : Prop :=
  ∀ (s t : State) (dst : Word), s.params.bufSize < 2 ^ 32 → exec .mcuWrap s = .next t → t.status.err = false →
    InBuf s dst s.regs.srcLen.toNat →
    ∃ u, exec .mcuUnwrap { t with regs := { t.regs with
        srcAddr := s.regs.dstAddr, srcLen := t.regs.dstLen, dstAddr := dst } } = .next u ∧
      u.status.err = false ∧ u.regs.dstLen = s.regs.srcLen ∧ u.memRead dst.toNat s.regs.srcLen.toNat = s.src

/-! ## Hash -/

/-- R165: `SHA256`. -/
def Obligations.Sha256Result : Prop :=
  ∀ s : State,
    let bad := ¬ InBuf s s.regs.srcAddr s.regs.srcLen.toNat ∨ ¬ InBuf s s.regs.dstAddr 32
    OnlyWordOf .sha256 0x00000010#32 ∧ (sha256 s.src).length = 32 ∧
      (bad → RaisesWith .sha256 s .badOperand s.regs s.status.rxActive) ∧
      (¬ bad → CompletesWith .sha256 s { s.regs with dstLen := 32#32 } s.status.rxActive
        s.regs.dstAddr.toNat (sha256 s.src))

/-- R160: the padded message is the message, a byte 0x80, zeros, and the length in bits as 8 big-endian bytes; it is a
whole number of 64-byte blocks, and no more zeros than that takes. -/
def Obligations.Sha256Padding : Prop :=
  ∀ m : List Byte, m.length < 2 ^ 61 →
    let p := shaPad m
    p.length % 64 = 0 ∧ m.length + 9 ≤ p.length ∧ p.length < m.length + 9 + 64 ∧
      p.take m.length = m ∧ byteAt p m.length = 0x80#8 ∧
      (∀ k, m.length < k → k < p.length - 8 → byteAt p k = 0#8) ∧
      ∀ k, k < 8 → (byteAt p (p.length - 1 - k)).toNat = 8 * m.length / 256 ^ k % 256

/-- R175: `HMAC_SHA256`. -/
def Obligations.HmacSha256Result : Prop :=
  ∀ s : State,
    let bad := ¬ InBuf s s.regs.keyAddr s.regs.keyLen.toNat ∨ ¬ InBuf s s.regs.srcAddr s.regs.srcLen.toNat ∨
      ¬ InBuf s s.regs.dstAddr 32
    OnlyWordOf .hmacSha256 0x00000011#32 ∧ (hmac s.key s.src).length = 32 ∧
      (bad → RaisesWith .hmacSha256 s .badOperand s.regs s.status.rxActive) ∧
      (¬ bad → CompletesWith .hmacSha256 s { s.regs with dstLen := 32#32 } s.status.rxActive
        s.regs.dstAddr.toNat (hmac s.key s.src))

/-- R170: HMAC byte by byte. A key above 64 bytes is hashed first, a shorter one is extended with zeros. -/
def Obligations.HmacConstruction : Prop :=
  ∀ k m : List Byte,
    let k' := if 64 < k.length then sha256 k else k
    let pad (x : Byte) : List Byte := (List.range 64).map fun i => (if i < k'.length then byteAt k' i else 0#8) ^^^ x
    (hmac k m).length = 32 ∧ hmac k m = sha256 (pad 0x5c#8 ++ sha256 (pad 0x36#8 ++ m))

/-- R185: `PRF_DERIVE`; its output is a prefix of every longer one. -/
def Obligations.PrfDeriveResult : Prop :=
  (∀ (k r : List Byte) (n n' : Nat), n ≤ n' → prf k r n = (prf k r n').take n ∧ (prf k r n).length = n) ∧
    ∀ s : State,
      let n := s.regs.aux.toNat
      let bad := ¬ InBuf s s.regs.keyAddr s.regs.keyLen.toNat ∨ ¬ InBuf s s.regs.srcAddr s.regs.srcLen.toNat ∨
        ¬ InBuf s s.regs.dstAddr n
      OnlyWordOf .prfDerive 0x00000012#32 ∧
        (bad → RaisesWith .prfDerive s .badOperand s.regs s.status.rxActive) ∧
        (¬ bad → CompletesWith .prfDerive s { s.regs with dstLen := toWord n } s.status.rxActive
          s.regs.dstAddr.toNat (prf s.key s.src n))

/-! ## Ciphers -/

/-- R208: `AES128_CBC_DEC`. The key and IV lengths are checked first. -/
def Obligations.Aes128CbcDecResult : Prop :=
  ∀ s : State,
    let n := s.regs.srcLen.toNat
    let badLen := s.regs.keyLen ≠ 16#32 ∨ s.regs.ivLen ≠ 16#32
    let bad := ¬ InBuf s s.regs.keyAddr 16 ∨ ¬ InBuf s s.regs.ivAddr 16 ∨ ¬ InBuf s s.regs.srcAddr n ∨ n % 16 ≠ 0 ∨
      ¬ InBuf s s.regs.dstAddr n
    OnlyWordOf .aes128CbcDec 0x00000013#32 ∧
      (badLen → RaisesWith .aes128CbcDec s .invalidKeyMaterial s.regs s.status.rxActive) ∧
      (¬ badLen → bad → RaisesWith .aes128CbcDec s .badOperand s.regs s.status.rxActive) ∧
      (¬ badLen → ¬ bad → CompletesWith .aes128CbcDec s { s.regs with dstLen := toWord n } s.status.rxActive
        s.regs.dstAddr.toNat (cbcDec (s.memRead s.regs.keyAddr.toNat 16) (s.memRead s.regs.ivAddr.toNat 16) s.src))

/-- R206: CBC, block by block: `p[16i .. 16i+16) = AES128_DEC_BLOCK(k, C_i) ⊕ C_{i-1}`, with the IV before the first. -/
def Obligations.CbcDecryptsBlockwise : Prop :=
  ∀ k iv c : List Byte, k.length = 16 → iv.length = 16 → c.length % 16 = 0 →
    (cbcDec k iv c).length = c.length ∧
      ∀ i, i < c.length / 16 → slice (cbcDec k iv c) (16 * i) (16 * i + 16) =
        xorBytes (aes128DecBlock k (slice c (16 * i) (16 * i + 16)))
          (if i = 0 then iv else slice c (16 * (i - 1)) (16 * i))

/-- R215: `GEA_XOR`, whatever the device's keystream step is. -/
def Obligations.GeaXorResult : Prop :=
  ∀ s : State,
    let n := s.regs.srcLen.toNat
    let bad := ¬ InBuf s s.regs.srcAddr n ∨ n % 2 ≠ 0 ∨ ¬ InBuf s s.regs.dstAddr n
    OnlyWordOf .geaXor 0x00000014#32 ∧
      (bad → RaisesWith .geaXor s .badOperand s.regs s.status.rxActive) ∧
      (¬ bad → CompletesWith .geaXor s { s.regs with dstLen := toWord n } s.status.rxActive
        s.regs.dstAddr.toNat (gea Config.geaNext s.regs.aux s.src))

/-- R213: GEA is an involution for every seed, every even-length input and every `gea_next`. -/
def Obligations.GeaIsInvolution : Prop :=
  ∀ (next : Word → Word × BitVec 16) (seed : Word) (d : List Byte), d.length % 2 = 0 →
    gea next seed (gea next seed d) = d

/-- R225: `CRC32_MPEG2`. `DST_LEN` and the buffer are not written. -/
def Obligations.Crc32Mpeg2Result : Prop :=
  ∀ s : State,
    OnlyWordOf .crc32Mpeg2 0x00000015#32 ∧
      (¬ InBuf s s.regs.srcAddr s.regs.srcLen.toNat →
        RaisesWith .crc32Mpeg2 s .badOperand s.regs s.status.rxActive) ∧
      (InBuf s s.regs.srcAddr s.regs.srcLen.toNat →
        CompletesWith .crc32Mpeg2 s { s.regs with result := crc32Mpeg2 s.src } s.status.rxActive 0 [])

/-- A consequence of R220: a CRC without a final XOR, run on over its own value most significant byte first, is 0. -/
def Obligations.CrcOverItsOwnValueIsZero : Prop :=
  ∀ d : List Byte, crc32Mpeg2 (d ++ toBE32 (crc32Mpeg2 d).toNat) = 0#32

/-- R277: the trailer `[c[15:8], c[7:0], c[31:24], c[23:16]]` stands for the CRC value `c`, and no other does. -/
def Obligations.CrcTrailerOrder : Prop :=
  ∀ (c : Word) (q : List Byte), q.length = 4 →
    (crcTrailer q = c.toNat ↔
      q = [c.extractLsb' 8 8, c.extractLsb' 0 8, c.extractLsb' 24 8, c.extractLsb' 16 8])

/-! ## Handshake -/

/-- R243: `GTLS_HELLO`, in every `GTLS_STATE`. -/
def Obligations.GtlsHelloResult : Prop :=
  ∀ s : State,
    OnlyWordOf .gtlsHello 0x00000018#32 ∧
      (¬ InBuf s s.regs.dstAddr 40 →
        RaisesWith .gtlsHello s .badOperand { s.regs with gtlsState := .failed } s.status.rxActive) ∧
      (InBuf s s.regs.dstAddr 40 →
        CompletesWith .gtlsHello s { s.regs with dstLen := 40#32, gtlsState := .serverIdentify } s.status.rxActive
          s.regs.dstAddr.toNat
          ([0x01#8, 0xff#8, 0x00#8, 0x00#8, 0x28#8, 0x00#8, 0x00#8, 0x00#8] ++ arrayBytes s.regs.clientRandom))

/-- R245 to R248: `GTLS_IDENTIFY`, its checks in order, the key split and the identity. For 0x44 stands the parameter
`KDF_OUT`. What one under 68 does is the model's choice (log entry 10). -/
def Obligations.GtlsIdentifyResult : Prop :=
  ∀ s : State,
    let n := s.regs.srcLen.toNat
    let m := s.src
    let failed : Regs := { s.regs with gtlsState := .failed }
    let mismatch := n < 8 ∨ le32 (slice m 0 4) ≠ 0xFF02 ∨ le32 (slice m 4 8) ≠ n ∨ n - 8 ≠ 64
    let cr := arrayBytes s.regs.clientRandom
    let sr := slice m 8 40
    let sid := slice m 40 72
    let km := prf (arrayBytes s.regs.psk) (cr ++ sr) s.params.kdfOut
    let cid := hmac (slice km 32 64) (cr ++ sr)
    OnlyWordOf .gtlsIdentify 0x00000019#32 ∧
      (s.regs.gtlsState ≠ .serverIdentify →
        RaisesWith .gtlsIdentify s .badState s.regs s.status.rxActive) ∧
      (s.regs.gtlsState = .serverIdentify →
        (¬ InBuf s s.regs.srcAddr n → RaisesWith .gtlsIdentify s .badOperand failed s.status.rxActive) ∧
        (InBuf s s.regs.srcAddr n →
          (mismatch → RaisesWith .gtlsIdentify s .protocolMismatch failed s.status.rxActive) ∧
          (¬ mismatch → ¬ InBuf s s.regs.dstAddr 44 →
            RaisesWith .gtlsIdentify s .badOperand failed s.status.rxActive) ∧
          (¬ mismatch → InBuf s s.regs.dstAddr 44 → cid ≠ sid →
            RaisesWith .gtlsIdentify s .handshakeIdentityMismatch failed s.status.rxActive) ∧
          (¬ mismatch → InBuf s s.regs.dstAddr 44 → cid = sid →
            CompletesWith .gtlsIdentify s
              { s.regs with
                serverRandom := bytesArray 8 sr, serverIdentity := bytesArray 8 sid, clientIdentity := bytesArray 8 cid
                symKey := bytesArray 4 (slice km 0 16), symIv := bytesArray 4 (slice km 16 32)
                hmacKey := bytesArray 8 (slice km 32 64)
                ctrSeed := toWord (le16 (slice km 64 66) + 65536 * le16 (slice km 66 68))
                dstLen := 44#32, gtlsState := .serverDone }
              s.status.rxActive s.regs.dstAddr.toNat
              ([0x03#8, 0xff#8, 0x00#8, 0x00#8, 0x2c#8, 0x00#8, 0x00#8, 0x00#8] ++ sid
                ++ [0xee#8, 0xee#8, 0xee#8, 0xee#8]))))

/-- R32: after a successful `GTLS_IDENTIFY` the session registers, joined in order, are the 68-byte PRF output, and the
two identities are equal. With the values of R6, an invariant. -/
def Obligations.SessionKeysAreThePrfOutput : Prop :=
  ∀ s t : State, s.params.HasSpecValues → exec .gtlsIdentify s = .next t → t.status.err = false →
    arrayBytes t.regs.symKey ++ arrayBytes t.regs.symIv ++ arrayBytes t.regs.hmacKey
        ++ toLE16 (t.regs.ctrSeed.toNat % 65536) ++ toLE16 (t.regs.ctrSeed.toNat / 65536) =
      prf (arrayBytes s.regs.psk) (arrayBytes s.regs.clientRandom ++ arrayBytes t.regs.serverRandom) 68 ∧
    t.regs.clientIdentity = t.regs.serverIdentity

/-- R250: `GTLS_DONE`, its checks in order. -/
def Obligations.GtlsDoneResult : Prop :=
  ∀ s : State,
    let n := s.regs.srcLen.toNat
    let m := s.src
    let failed : Regs := { s.regs with gtlsState := .failed }
    let mismatch := n < 8 ∨ le32 (slice m 0 4) ≠ 0xFF04 ∨ le32 (slice m 4 8) ≠ n ∨ n - 8 ≠ 1
    OnlyWordOf .gtlsDone 0x0000001A#32 ∧
      (s.regs.gtlsState ≠ .serverDone → RaisesWith .gtlsDone s .badState s.regs s.status.rxActive) ∧
      (s.regs.gtlsState = .serverDone →
        (¬ InBuf s s.regs.srcAddr n → RaisesWith .gtlsDone s .badOperand failed s.status.rxActive) ∧
        (InBuf s s.regs.srcAddr n →
          (mismatch → RaisesWith .gtlsDone s .protocolMismatch failed s.status.rxActive) ∧
          (¬ mismatch → byteAt m 8 ≠ 0#8 →
            RaisesWith .gtlsDone s .handshakeRejected failed s.status.rxActive) ∧
          (¬ mismatch → byteAt m 8 = 0#8 →
            CompletesWith .gtlsDone s
              { s.regs with
                hmacClientCtr := toWord (s.regs.ctrSeed.toNat % 65536)
                hmacServerCtr := toWord (s.regs.ctrSeed.toNat / 65536)
                dstLen := 0#32, gtlsState := .established }
              s.status.rxActive 0 [])))

/-- R252: from any state `GTLS_HELLO`, then `GTLS_IDENTIFY` on a payload whose identity is right for the engine's PSK,
then `GTLS_DONE` on a zero status byte, each with in-range operands, end in `ESTABLISHED`, with the session registers
holding the split of the PRF output. Between the operations the host writes operand registers and the buffer. With
the values of R6, an invariant. -/
def Obligations.HandshakeCompletes : Prop :=
  ∀ s0 s1 s2 s3 : State,
    let cr := arrayBytes s0.regs.clientRandom
    let sr := slice s2.src 8 40
    let km := prf (arrayBytes s0.regs.psk) (cr ++ sr) 0x44
    InBuf s0 s0.regs.dstAddr 40 → exec .gtlsHello s0 = .next s1 → OperandsOnly s1 s2 →
    s2.params.HasSpecValues → s2.regs.srcLen = 72#32 → InBuf s2 s2.regs.srcAddr 72 → InBuf s2 s2.regs.dstAddr 44 →
    le32 (slice s2.src 0 4) = 0xFF02 → le32 (slice s2.src 4 8) = 72 →
    slice s2.src 40 72 = hmac (slice km 32 64) (cr ++ sr) →
    exec .gtlsIdentify s2 = .next s3 →
    ∀ s4 : State, OperandsOnly s3 s4 → s4.regs.srcLen = 9#32 → InBuf s4 s4.regs.srcAddr 9 →
      s4.src = [0x04#8, 0xff#8, 0x00#8, 0x00#8, 0x09#8, 0x00#8, 0x00#8, 0x00#8, 0x00#8] →
      ∃ s5, exec .gtlsDone s4 = .next s5 ∧ s5.status.err = false ∧ s5.regs.gtlsState = .established ∧
        arrayBytes s5.regs.symKey = slice km 0 16 ∧ arrayBytes s5.regs.symIv = slice km 16 32 ∧
        arrayBytes s5.regs.hmacKey = slice km 32 64 ∧ arrayBytes s5.regs.serverRandom = sr ∧
        s5.regs.serverIdentity = s5.regs.clientIdentity ∧ arrayBytes s5.regs.clientIdentity = slice s2.src 40 72 ∧
        s5.regs.ctrSeed.toNat = le16 (slice km 64 66) + 65536 * le16 (slice km 66 68) ∧
        s5.regs.hmacClientCtr.toNat = le16 (slice km 64 66) ∧ s5.regs.hmacServerCtr.toNat = le16 (slice km 66 68)

/-- R253: a payload whose derived `client_identity` does not match makes `GTLS_IDENTIFY` raise
`HANDSHAKE_IDENTITY_MISMATCH` and set `FAILED`, after which `GTLS_DONE` raises `BAD_STATE`, whatever the parameters
are (for a `KDF_OUT` under 68 the identity is the model's choice, log entry 10). -/
def Obligations.CraftedIdentityIsRefused : Prop :=
  ∀ s : State, s.regs.gtlsState = .serverIdentify → s.regs.srcLen = 72#32 → InBuf s s.regs.srcAddr 72 →
    InBuf s s.regs.dstAddr 44 → le32 (slice s.src 0 4) = 0xFF02 → le32 (slice s.src 4 8) = 72 →
    slice s.src 40 72 ≠ hmac (slice (prf (arrayBytes s.regs.psk)
      (arrayBytes s.regs.clientRandom ++ slice s.src 8 40) s.params.kdfOut) 32 64)
      (arrayBytes s.regs.clientRandom ++ slice s.src 8 40) →
    ∃ t, exec .gtlsIdentify s = .next t ∧ t.status.errcode = .handshakeIdentityMismatch ∧
      t.regs = { s.regs with gtlsState := .failed } ∧ SameBuffer s t ∧
      ∀ u, OperandsOnly t u → RaisesWith .gtlsDone u .badState u.regs u.status.rxActive

/-! ## Sensor channel -/

/-- R271 and R273: the pre-GEA buffer block by block, for every `MID_PASS_LEN` and both values of `CBC_RESTART`: block `j`
starts where R271 says; the odd blocks are decrypted, each from the session IV or from the last ciphertext block of the
AES block before; the others and the rest are copied. With the values of R6, an invariant. -/
def Obligations.SensorSplitBlocks : Prop :=
  ∀ (q : Params) (mid : Nat) (restart : Bool) (k v body : List Byte), q.HasSpecValues → k.length = 16 →
    v.length = 16 → 0x3A7 + 7 * 0x3F0 + 6 * mid ≤ body.length →
    let start (j : Nat) : Nat := if j = 0 then 0 else 0x3A7 + ceilDiv (j - 1) 2 * 0x3F0 + (j - 1) / 2 * mid
    let out := sensorSplit q mid restart k v body
    out.length = body.length ∧ slice out 0 0x3A7 = slice body 0 0x3A7 ∧
      (∀ j, j ≤ 13 → j % 2 = 1 → slice out (start j) (start j + 0x3F0) =
        cbcDec k (if restart ∨ j = 1 then v else slice body (start (j - 2) + 0x3E0) (start (j - 2) + 0x3F0))
          (slice body (start j) (start j + 0x3F0))) ∧
      (∀ j, 2 ≤ j → j ≤ 13 → j % 2 = 0 →
        slice out (start j) (start j + mid) = slice body (start j) (start j + mid)) ∧
      out.drop (0x3A7 + 7 * 0x3F0 + 6 * mid) = body.drop (0x3A7 + 7 * 0x3F0 + 6 * mid)

/-- R272: `SENSOR_DECRYPT`, its checks in order, the integrity check (R275), the counter (R276), the CRC (R277) and the
output (R279, R282), whatever the open parameters are, the others with the values of R6, an invariant. -/
def Obligations.SensorDecryptResult : Prop :=
  ∀ s : State, s.params.HasSpecValues →
    let len := s.regs.srcLen.toNat
    let m := s.src
    let n := len - 40
    let minBodyLen := 0x3A7 + 7 * 0x3F0 + 6 * Config.midPassLen
    let buf := sensorSplit s.params Config.midPassLen Config.cbcRestart (arrayBytes s.regs.symKey) (arrayBytes s.regs.symIv)
      (slice m 8 (8 + n))
    let tagOk := hmac (arrayBytes s.regs.hmacKey)
      (toBE32 s.regs.hmacServerCtr.toNat ++ slice buf (n - 0x400) n) = slice m (8 + n) len
    let g := slice buf 5 (n - 4)
    let q := slice buf (n - 4) n
    let crcOk := (crc32Mpeg2 g).toNat = (byteAt q 0).toNat * 0x100 + (byteAt q 1).toNat
      + (byteAt q 2).toNat * 0x1000000 + (byteAt q 3).toNat * 0x10000
    let counted : Regs := { s.regs with hmacServerCtr := toWord ((s.regs.hmacServerCtr.toNat + 1) % 2 ^ 32) }
    let raises (e : ErrCode) : Prop := RaisesWith .sensorDecrypt s e s.regs s.status.rxActive
    OnlyWordOf .sensorDecrypt 0x00000020#32 ∧
      (s.regs.gtlsState ≠ .established → raises .badState) ∧
      (s.regs.gtlsState = .established →
        (¬ InBuf s s.regs.srcAddr len → raises .badOperand) ∧
        (InBuf s s.regs.srcAddr len →
          (len < 8 → raises .shortInput) ∧
          (8 ≤ len → le32 (slice m 0 4) ≠ 0xAA01 → raises .unexpectedDataType) ∧
          (8 ≤ len → le32 (slice m 0 4) = 0xAA01 → le32 (slice m 4 8) ≠ len → raises .lengthMismatch) ∧
          (8 ≤ len → le32 (slice m 0 4) = 0xAA01 → le32 (slice m 4 8) = len →
            (len < 40 + minBodyLen → raises .shortInput) ∧
            (40 + minBodyLen ≤ len →
              ((n - 9) % 2 ≠ 0 ∨ ¬ InBuf s s.regs.dstAddr (n - 9) → raises .badOperand) ∧
              ((n - 9) % 2 = 0 → InBuf s s.regs.dstAddr (n - 9) →
                (¬ tagOk → raises .integrityCheckFailed) ∧
                (tagOk → ¬ crcOk → RaisesWith .sensorDecrypt s .crcMismatch counted s.status.rxActive) ∧
                (tagOk → crcOk → CompletesWith .sensorDecrypt s { counted with dstLen := toWord (n - 9) }
                  s.status.rxActive s.regs.dstAddr.toNat
                  (gea Config.geaNext s.regs.symKey[0] g)))))))

/-- R276: the server counter is incremented, wrapping, exactly when the integrity check has passed: on success, and also
when the CRC check then fails. -/
def Obligations.ServerCounterAdvances : Prop :=
  ∀ s t : State, exec .sensorDecrypt s = .next t →
    (t.status.err = false ∨ t.status.errcode = .crcMismatch →
      t.regs.hmacServerCtr.toNat = (s.regs.hmacServerCtr.toNat + 1) % 2 ^ 32) ∧
    (t.status.err = true → t.status.errcode ≠ .crcMismatch → t.regs.hmacServerCtr = s.regs.hmacServerCtr)
end

