-- ==== Sys2Proof/Machine/HostSyntax.lean ====
section
/-! DEFINITION. The syntax of host programs (30_encoding.md R86, R87) and its expansion into the statements the host
agent runs, at most one transaction each. -/

namespace Sys2Proof.Machine

/-- A statement or pseudo-statement of R86 and R87. Labels are numbers. -/
inductive AsmStmt where
  /-- `WR REG, v`. -/
  | wr (r : RegName) (v : Word)
  /-- `RD REG`. -/
  | rd (r : RegName)
  /-- `WRB a, b0 b1 ...`. -/
  | wrb (addr : Nat) (b : List Byte)
  /-- `RDB a, n`. -/
  | rdb (addr n : Nat)
  /-- `OP MNEMONIC[.C][.P]`: the operation whose row of R82 the mnemonic names, and whether `.C` and `.P` are written. -/
  | op (i : Instr) (c p : Bool)
  /-- `RUN MNEMONIC[.C][.P]`, as `op`. -/
  | run (i : Instr) (c p : Bool)
  /-- `WRA PSK, b0 .. b(4k-1)`. -/
  | wraPsk (b : List Byte)
  /-- `WRA CLIENT_RANDOM, b0 .. b(4k-1)`. -/
  | wraClientRandom (b : List Byte)
  /-- `WAIT`. -/
  | wait
  /-- `BERR label`. -/
  | berr (label : Nat)
  /-- `BRX label`. -/
  | brx (label : Nat)
  /-- `GOTO label`. -/
  | goto (label : Nat)
  /-- `label:`. -/
  | label (label : Nat)
  /-- `HALT`. -/
  | halt
  deriving DecidableEq, Repr

/-- A register write by name: a 32-bit access at the register's offset (R86). -/
def wrStmt (r : RegName) (v : Word) : HostStmt := .wr 32 r.offset v

/-- The word `OP MNEMONIC[.C][.P]` writes (R86): the code of the operation's row (R82), `C = 1` when `.C` is written,
`P = 1` when `.P` is. The flags are those written; the bits in `i` itself are not read. The grammar of R86 sets no limit, so the
model takes `.C` and `.P` after every mnemonic; after another than `FRAME_ENCODE` the word is illegal (R84), as R88's
`0x00000102`. DESIGN CHOICE (log entry 4). -/
def opWord (i : Instr) (c p : Bool) : Word := cmd32 (opField (encode i)) c p

/-- `WRA REG, b0 .. b(4k-1)`: `k` writes, word `i` takes `le32(b[4i .. 4i+4))` (R87). The array has 8 words (R24); bytes
for a ninth, and up to three bytes that make no whole word, are no statement of R87 and write nothing. DESIGN CHOICE
(log entry 4). -/
def wraStmts (reg : Fin 8 → RegName) (b : List Byte) : List HostStmt :=
  ((List.finRange 8).take (b.length / 4)).map fun i => wrStmt (reg i) (toWord (le32 (slice b (4 * i.val) (4 * i.val + 4))))

/-- The expansion of a statement (R86, R87). -/
def expand : AsmStmt → List HostStmt
  | .wr r v => [wrStmt r v]
  | .rd r => [.rd 32 r.offset]
  | .wrb addr b => b.mapIdx fun i x => .wrb (addr + i) x
  | .rdb addr n => (List.range n).map fun i => .rdb (addr + i)
  | .op i c p => [wrStmt .cmd (opWord i c p)]
  | .run i c p => [wrStmt .cmd (opWord i c p), .wait]
  | .wraPsk b => wraStmts .psk b
  | .wraClientRandom b => wraStmts .clientRandom b
  | .wait => [.wait]
  | .berr l => [.berr l]
  | .brx l => [.brx l]
  | .goto l => [.goto l]
  | .label l => [.label l]
  | .halt => [.halt]

/-- A host program from its statements. -/
def assemble (p : List AsmStmt) : List HostStmt := p.flatMap expand

/-- A state whose host starts a program: how a program comes to run (log entry 4). -/
def State.withProgram (s : State) (p : List AsmStmt) : State :=
  { s with host := { prog := assemble p, pc := 0, reads := [] } }

end Sys2Proof.Machine
end

