-- ==== Sys2Proof/Laws/State.lean ====
section
/-! SUPPORT. One lemma for each field of the state after each update, so that no proof unfolds one. -/

namespace Sys2Proof.Machine

@[simp] theorem complete_regs (s : State) : (s.complete).regs = s.regs := rfl
@[simp] theorem complete_status (s : State) : (s.complete).status = s.status.completed := rfl
@[simp] theorem complete_pend (s : State) : (s.complete).pend = s.pend := rfl
@[simp] theorem complete_buf (s : State) : (s.complete).buf = s.buf := rfl
@[simp] theorem complete_host (s : State) : (s.complete).host = s.host := rfl
@[simp] theorem complete_params (s : State) : (s.complete).params = s.params := rfl
@[simp] theorem complete_resets (s : State) : (s.complete).resets = s.resets := rfl
@[simp] theorem complete_schedule (s : State) : (s.complete).schedule = s.schedule := rfl

@[simp] theorem raise_regs (s : State) (e : ErrCode) : (s.raise e).regs = s.regs := rfl
@[simp] theorem raise_status (s : State) (e : ErrCode) : (s.raise e).status = s.status.raised e := rfl
@[simp] theorem raise_pend (s : State) (e : ErrCode) : (s.raise e).pend = s.pend := rfl
@[simp] theorem raise_buf (s : State) (e : ErrCode) : (s.raise e).buf = s.buf := rfl
@[simp] theorem raise_host (s : State) (e : ErrCode) : (s.raise e).host = s.host := rfl
@[simp] theorem raise_params (s : State) (e : ErrCode) : (s.raise e).params = s.params := rfl
@[simp] theorem raise_resets (s : State) (e : ErrCode) : (s.raise e).resets = s.resets := rfl
@[simp] theorem raise_schedule (s : State) (e : ErrCode) : (s.raise e).schedule = s.schedule := rfl

@[simp] theorem accept_regs (s : State) (w : Word) : (s.accept w).regs = s.regs := rfl
@[simp] theorem accept_status (s : State) (w : Word) : (s.accept w).status = s.status.accepted := rfl
@[simp] theorem accept_pend (s : State) (w : Word) : (s.accept w).pend = some w := rfl
@[simp] theorem accept_buf (s : State) (w : Word) : (s.accept w).buf = s.buf := rfl
@[simp] theorem accept_host (s : State) (w : Word) : (s.accept w).host = s.host := rfl
@[simp] theorem accept_params (s : State) (w : Word) : (s.accept w).params = s.params := rfl
@[simp] theorem accept_resets (s : State) (w : Word) : (s.accept w).resets = s.resets := rfl
@[simp] theorem accept_schedule (s : State) (w : Word) : (s.accept w).schedule = s.schedule := rfl

@[simp] theorem setRxActive_regs (s : State) (b : Bool) : (s.setRxActive b).regs = s.regs := rfl
@[simp] theorem setRxActive_status (s : State) (b : Bool) : (s.setRxActive b).status = { s.status with rxActive := b } := rfl
@[simp] theorem setRxActive_pend (s : State) (b : Bool) : (s.setRxActive b).pend = s.pend := rfl
@[simp] theorem setRxActive_buf (s : State) (b : Bool) : (s.setRxActive b).buf = s.buf := rfl
@[simp] theorem setRxActive_host (s : State) (b : Bool) : (s.setRxActive b).host = s.host := rfl
@[simp] theorem setRxActive_params (s : State) (b : Bool) : (s.setRxActive b).params = s.params := rfl
@[simp] theorem setRxActive_resets (s : State) (b : Bool) : (s.setRxActive b).resets = s.resets := rfl
@[simp] theorem setRxActive_schedule (s : State) (b : Bool) : (s.setRxActive b).schedule = s.schedule := rfl

@[simp] theorem setDstLen_regs (s : State) (n : Nat) : (s.setDstLen n).regs = { s.regs with dstLen := toWord n } := rfl
@[simp] theorem setDstLen_status (s : State) (n : Nat) : (s.setDstLen n).status = s.status := rfl
@[simp] theorem setDstLen_pend (s : State) (n : Nat) : (s.setDstLen n).pend = s.pend := rfl
@[simp] theorem setDstLen_buf (s : State) (n : Nat) : (s.setDstLen n).buf = s.buf := rfl
@[simp] theorem setDstLen_host (s : State) (n : Nat) : (s.setDstLen n).host = s.host := rfl
@[simp] theorem setDstLen_params (s : State) (n : Nat) : (s.setDstLen n).params = s.params := rfl
@[simp] theorem setDstLen_resets (s : State) (n : Nat) : (s.setDstLen n).resets = s.resets := rfl
@[simp] theorem setDstLen_schedule (s : State) (n : Nat) : (s.setDstLen n).schedule = s.schedule := rfl

@[simp] theorem setGtls_regs (s : State) (g : GtlsState) : (s.setGtls g).regs = { s.regs with gtlsState := g } := rfl
@[simp] theorem setGtls_status (s : State) (g : GtlsState) : (s.setGtls g).status = s.status := rfl
@[simp] theorem setGtls_pend (s : State) (g : GtlsState) : (s.setGtls g).pend = s.pend := rfl
@[simp] theorem setGtls_buf (s : State) (g : GtlsState) : (s.setGtls g).buf = s.buf := rfl
@[simp] theorem setGtls_host (s : State) (g : GtlsState) : (s.setGtls g).host = s.host := rfl
@[simp] theorem setGtls_params (s : State) (g : GtlsState) : (s.setGtls g).params = s.params := rfl
@[simp] theorem setGtls_resets (s : State) (g : GtlsState) : (s.setGtls g).resets = s.resets := rfl
@[simp] theorem setGtls_schedule (s : State) (g : GtlsState) : (s.setGtls g).schedule = s.schedule := rfl

@[simp] theorem memWrite_regs (s : State) (a : Nat) (v : List Byte) : (s.memWrite a v).regs = s.regs := rfl
@[simp] theorem memWrite_status (s : State) (a : Nat) (v : List Byte) : (s.memWrite a v).status = s.status := rfl
@[simp] theorem memWrite_pend (s : State) (a : Nat) (v : List Byte) : (s.memWrite a v).pend = s.pend := rfl
@[simp] theorem memWrite_buf (s : State) (a : Nat) (v : List Byte) : (s.memWrite a v).buf = s.buf.write a v := rfl
@[simp] theorem memWrite_host (s : State) (a : Nat) (v : List Byte) : (s.memWrite a v).host = s.host := rfl
@[simp] theorem memWrite_params (s : State) (a : Nat) (v : List Byte) : (s.memWrite a v).params = s.params := rfl
@[simp] theorem memWrite_resets (s : State) (a : Nat) (v : List Byte) : (s.memWrite a v).resets = s.resets := rfl
@[simp] theorem memWrite_schedule (s : State) (a : Nat) (v : List Byte) : (s.memWrite a v).schedule = s.schedule := rfl

@[simp] theorem output_regs (s : State) (n : Nat) (v : List Byte) : (s.output n v).regs = { s.regs with dstLen := toWord n } := rfl
@[simp] theorem output_status (s : State) (n : Nat) (v : List Byte) : (s.output n v).status = s.status := rfl
@[simp] theorem output_pend (s : State) (n : Nat) (v : List Byte) : (s.output n v).pend = s.pend := rfl
@[simp] theorem output_buf (s : State) (n : Nat) (v : List Byte) : (s.output n v).buf = s.buf.write s.regs.dstAddr.toNat v := rfl
@[simp] theorem output_host (s : State) (n : Nat) (v : List Byte) : (s.output n v).host = s.host := rfl
@[simp] theorem output_params (s : State) (n : Nat) (v : List Byte) : (s.output n v).params = s.params := rfl
@[simp] theorem output_resets (s : State) (n : Nat) (v : List Byte) : (s.output n v).resets = s.resets := rfl
@[simp] theorem output_schedule (s : State) (n : Nat) (v : List Byte) : (s.output n v).schedule = s.schedule := rfl

@[simp] theorem resetRegs_regs (s : State) : (s.resetRegs).regs = Regs.reset := rfl
@[simp] theorem resetRegs_status (s : State) : (s.resetRegs).status = Status.reset := rfl
@[simp] theorem resetRegs_pend (s : State) : (s.resetRegs).pend = s.pend := rfl
@[simp] theorem resetRegs_buf (s : State) : (s.resetRegs).buf = s.buf := rfl
@[simp] theorem resetRegs_host (s : State) : (s.resetRegs).host = s.host := rfl
@[simp] theorem resetRegs_params (s : State) : (s.resetRegs).params = s.params := rfl
@[simp] theorem resetRegs_resets (s : State) : (s.resetRegs).resets = s.resets := rfl
@[simp] theorem resetRegs_schedule (s : State) : (s.resetRegs).schedule = s.schedule := rfl

@[simp] theorem hardReset_regs (s : State) : (s.hardReset).regs = Regs.reset := rfl
@[simp] theorem hardReset_status (s : State) : (s.hardReset).status = Status.reset := rfl
@[simp] theorem hardReset_pend (s : State) : (s.hardReset).pend = none := rfl
@[simp] theorem hardReset_buf (s : State) : (s.hardReset).buf = [] := rfl
@[simp] theorem hardReset_host (s : State) : (s.hardReset).host = s.host := rfl
@[simp] theorem hardReset_params (s : State) : (s.hardReset).params = s.params := rfl
@[simp] theorem hardReset_resets (s : State) : (s.hardReset).resets = s.resets + 1 := rfl
@[simp] theorem hardReset_schedule (s : State) : (s.hardReset).schedule = s.schedule := rfl

@[simp] theorem failGtls_regs (s : State) (e : ErrCode) : (s.failGtls e).regs = { s.regs with gtlsState := .failed } := rfl
@[simp] theorem failGtls_status (s : State) (e : ErrCode) : (s.failGtls e).status = s.status.raised e := rfl
@[simp] theorem failGtls_pend (s : State) (e : ErrCode) : (s.failGtls e).pend = s.pend := rfl
@[simp] theorem failGtls_buf (s : State) (e : ErrCode) : (s.failGtls e).buf = s.buf := rfl
@[simp] theorem failGtls_host (s : State) (e : ErrCode) : (s.failGtls e).host = s.host := rfl
@[simp] theorem failGtls_params (s : State) (e : ErrCode) : (s.failGtls e).params = s.params := rfl
@[simp] theorem failGtls_resets (s : State) (e : ErrCode) : (s.failGtls e).resets = s.resets := rfl
@[simp] theorem failGtls_schedule (s : State) (e : ErrCode) : (s.failGtls e).schedule = s.schedule := rfl

@[simp] theorem retire_regs (s : State) : (s.retire).regs = s.regs := rfl
@[simp] theorem retire_status (s : State) : (s.retire).status = s.status := rfl
@[simp] theorem retire_pend (s : State) : (s.retire).pend = none := rfl
@[simp] theorem retire_buf (s : State) : (s.retire).buf = s.buf := rfl
@[simp] theorem retire_host (s : State) : (s.retire).host = s.host := rfl
@[simp] theorem retire_params (s : State) : (s.retire).params = s.params := rfl
@[simp] theorem retire_resets (s : State) : (s.retire).resets = s.resets := rfl
@[simp] theorem retire_schedule (s : State) : (s.retire).schedule = s.schedule := rfl

@[simp] theorem endTurn_regs (s : State) : (s.endTurn).regs = s.regs := rfl
@[simp] theorem endTurn_status (s : State) : (s.endTurn).status = s.status := rfl
@[simp] theorem endTurn_pend (s : State) : (s.endTurn).pend = s.pend := rfl
@[simp] theorem endTurn_buf (s : State) : (s.endTurn).buf = s.buf := rfl
@[simp] theorem endTurn_host (s : State) : (s.endTurn).host = s.host := rfl
@[simp] theorem endTurn_params (s : State) : (s.endTurn).params = s.params := rfl
@[simp] theorem endTurn_resets (s : State) : (s.endTurn).resets = s.resets := rfl
@[simp] theorem endTurn_schedule (s : State) : (s.endTurn).schedule = s.schedule.tail := rfl

@[simp] theorem hostAt_regs (s : State) (pc : Nat) : (s.hostAt pc).regs = s.regs := rfl
@[simp] theorem hostAt_status (s : State) (pc : Nat) : (s.hostAt pc).status = s.status := rfl
@[simp] theorem hostAt_pend (s : State) (pc : Nat) : (s.hostAt pc).pend = s.pend := rfl
@[simp] theorem hostAt_buf (s : State) (pc : Nat) : (s.hostAt pc).buf = s.buf := rfl
@[simp] theorem hostAt_host (s : State) (pc : Nat) : (s.hostAt pc).host = { s.host with pc := pc } := rfl
@[simp] theorem hostAt_params (s : State) (pc : Nat) : (s.hostAt pc).params = s.params := rfl
@[simp] theorem hostAt_resets (s : State) (pc : Nat) : (s.hostAt pc).resets = s.resets := rfl
@[simp] theorem hostAt_schedule (s : State) (pc : Nat) : (s.hostAt pc).schedule = s.schedule := rfl

@[simp] theorem complete_readByte (s : State) (x : Nat) : (s.complete).readByte x = s.readByte x := rfl
@[simp] theorem complete_memRead (s : State) (x k : Nat) : (s.complete).memRead x k = s.memRead x k := rfl
@[simp] theorem raise_readByte (s : State) (e : ErrCode) (x : Nat) : (s.raise e).readByte x = s.readByte x := rfl
@[simp] theorem raise_memRead (s : State) (e : ErrCode) (x k : Nat) : (s.raise e).memRead x k = s.memRead x k := rfl
@[simp] theorem accept_readByte (s : State) (w : Word) (x : Nat) : (s.accept w).readByte x = s.readByte x := rfl
@[simp] theorem accept_memRead (s : State) (w : Word) (x k : Nat) : (s.accept w).memRead x k = s.memRead x k := rfl
@[simp] theorem setRxActive_readByte (s : State) (b : Bool) (x : Nat) : (s.setRxActive b).readByte x = s.readByte x := rfl
@[simp] theorem setRxActive_memRead (s : State) (b : Bool) (x k : Nat) : (s.setRxActive b).memRead x k = s.memRead x k := rfl
@[simp] theorem setDstLen_readByte (s : State) (n : Nat) (x : Nat) : (s.setDstLen n).readByte x = s.readByte x := rfl
@[simp] theorem setDstLen_memRead (s : State) (n : Nat) (x k : Nat) : (s.setDstLen n).memRead x k = s.memRead x k := rfl
@[simp] theorem setGtls_readByte (s : State) (g : GtlsState) (x : Nat) : (s.setGtls g).readByte x = s.readByte x := rfl
@[simp] theorem setGtls_memRead (s : State) (g : GtlsState) (x k : Nat) : (s.setGtls g).memRead x k = s.memRead x k := rfl
@[simp] theorem resetRegs_readByte (s : State) (x : Nat) : (s.resetRegs).readByte x = s.readByte x := rfl
@[simp] theorem resetRegs_memRead (s : State) (x k : Nat) : (s.resetRegs).memRead x k = s.memRead x k := rfl
@[simp] theorem failGtls_readByte (s : State) (e : ErrCode) (x : Nat) : (s.failGtls e).readByte x = s.readByte x := rfl
@[simp] theorem failGtls_memRead (s : State) (e : ErrCode) (x k : Nat) : (s.failGtls e).memRead x k = s.memRead x k := rfl
@[simp] theorem retire_readByte (s : State) (x : Nat) : (s.retire).readByte x = s.readByte x := rfl
@[simp] theorem retire_memRead (s : State) (x k : Nat) : (s.retire).memRead x k = s.memRead x k := rfl
@[simp] theorem endTurn_readByte (s : State) (x : Nat) : (s.endTurn).readByte x = s.readByte x := rfl
@[simp] theorem endTurn_memRead (s : State) (x k : Nat) : (s.endTurn).memRead x k = s.memRead x k := rfl
@[simp] theorem hostAt_readByte (s : State) (pc : Nat) (x : Nat) : (s.hostAt pc).readByte x = s.readByte x := rfl
@[simp] theorem hostAt_memRead (s : State) (pc : Nat) (x k : Nat) : (s.hostAt pc).memRead x k = s.memRead x k := rfl

@[simp] theorem output_readByte (s : State) (n : Nat) (v : List Byte) (x : Nat) :
    (s.output n v).readByte x = (s.memWrite s.regs.dstAddr.toNat v).readByte x := rfl
@[simp] theorem hardReset_readByte (s : State) (x : Nat) :
    s.hardReset.readByte x = Config.bufDraw (s.resets + 1) x := rfl

@[simp] theorem completed_busy (t : Status) : t.completed.busy = false := rfl
@[simp] theorem completed_done (t : Status) : t.completed.done = true := rfl
@[simp] theorem completed_err (t : Status) : t.completed.err = false := rfl
@[simp] theorem completed_rxActive (t : Status) : t.completed.rxActive = t.rxActive := rfl
@[simp] theorem completed_errcode (t : Status) : t.completed.errcode = .ok := rfl
@[simp] theorem accepted_busy (t : Status) : t.accepted.busy = true := rfl
@[simp] theorem accepted_done (t : Status) : t.accepted.done = false := rfl
@[simp] theorem accepted_err (t : Status) : t.accepted.err = false := rfl
@[simp] theorem accepted_rxActive (t : Status) : t.accepted.rxActive = t.rxActive := rfl
@[simp] theorem accepted_errcode (t : Status) : t.accepted.errcode = .ok := rfl
@[simp] theorem raised_busy (t : Status) (e : ErrCode) : (t.raised e).busy = false := rfl
@[simp] theorem raised_done (t : Status) (e : ErrCode) : (t.raised e).done = true := rfl
@[simp] theorem raised_err (t : Status) (e : ErrCode) : (t.raised e).err = true := rfl
@[simp] theorem raised_rxActive (t : Status) (e : ErrCode) : (t.raised e).rxActive = t.rxActive := rfl
@[simp] theorem raised_errcode (t : Status) (e : ErrCode) : (t.raised e).errcode = e := rfl

/-- Two states with the same fields are equal. -/
theorem State.ext_of_fields {s t : State} (hr : t.regs = s.regs) (hs : t.status = s.status) (hp : t.pend = s.pend)
    (hb : t.buf = s.buf) (hh : t.host = s.host) (hz : t.params = s.params) (hn : t.resets = s.resets)
    (hc : t.schedule = s.schedule) : t = s := by
  cases s; cases t; simp_all

@[simp] theorem onNext_next (f : State → State) (s : State) : onNext f (.next s) = .next (f s) := rfl
@[simp] theorem onNext_fault (f : State → State) (r : Fault) : onNext f (.fault r) = .fault r := rfl
@[simp] theorem onNext_refused (f : State → State) (r : Refusal) : onNext f (.refused r) = .refused r := rfl

/-- A result with `f` done to its next state is a next state exactly when the result was one. -/
theorem onNext_eq_next {f : State → State} {r : Result} {t : State} :
    onNext f r = .next t ↔ ∃ u, r = .next u ∧ t = f u := by
  cases r with
  | next u => simp [onNext, eq_comm]
  | fault _ => simp [onNext]
  | refused _ => simp [onNext]

end Sys2Proof.Machine
end

