-- ==== Sys2Proof/Laws/Memory.lean ====
section
/-! SUPPORT. The laws of the buffer: read after write, and that every write keeps the canonical form. -/

namespace Sys2Proof.Machine

theorem byteAt_nil (i : Nat) : byteAt [] i = 0#8 := rfl

theorem byteAt_cons_zero (b : Byte) (v : List Byte) : byteAt (b :: v) 0 = b := rfl

theorem byteAt_cons_succ (b : Byte) (v : List Byte) (i : Nat) : byteAt (b :: v) (i + 1) = byteAt v i := rfl

theorem byteAt_eq_getElem (v : List Byte) (i : Nat) (h : i < v.length) : byteAt v i = v[i] := by
  simp [byteAt, h]

namespace Memory

theorem get?_append (m m' : Memory) (x : Nat) : get? (m ++ m') x = (get? m x).or (get? m' x) := by
  induction m with
  | nil => rfl
  | cons c m ih =>
    obtain ⟨k, b⟩ := c
    by_cases h : k = x <;> simp [get?, h, ih]

theorem get?_filter (m : Memory) (p : Nat → Bool) (x : Nat) :
    get? (m.filter fun c => p c.1) x = if p x then get? m x else none := by
  induction m with
  | nil => simp [get?]
  | cons c m ih =>
    obtain ⟨k, b⟩ := c
    by_cases hk : k = x
    · subst hk
      by_cases hp : p k <;> simp [hp, get?, ih]
    · by_cases hp : p k <;> simp [hp, get?, hk, ih]

theorem get?_cellsFrom (v : List Byte) (a x : Nat) :
    get? (cellsFrom a v) x = if a ≤ x ∧ x < a + v.length then some (byteAt v (x - a)) else none := by
  induction v generalizing a with
  | nil => simp only [cellsFrom, get?, List.length_nil]; rw [if_neg (by omega)]
  | cons b v ih =>
    simp only [cellsFrom, get?, List.length_cons, ih]
    by_cases h : a = x
    · subst h; simp [byteAt]
    · rw [if_neg h]
      by_cases h' : a + 1 ≤ x ∧ x < a + 1 + v.length
      · obtain ⟨k, hk⟩ : ∃ k, x - a = k + 1 := ⟨x - a - 1, by omega⟩
        rw [if_pos h', if_pos (by omega), hk, byteAt_cons_succ, show x - (a + 1) = k by omega]
      · rw [if_neg h', if_neg (by omega)]

/-- Read after write, for the bytes written and for all others. -/
theorem get?_write (m : Memory) (a : Nat) (v : List Byte) (x : Nat) :
    get? (m.write a v) x = if a ≤ x ∧ x < a + v.length then some (byteAt v (x - a)) else get? m x := by
  rw [write, get?_append, get?_append, get?_filter m (fun k => decide (k < a)), get?_cellsFrom,
    get?_filter m (fun k => decide (a + v.length ≤ k))]
  by_cases h1 : x < a
  · simp [h1, Nat.not_le.2 h1, show ¬ a + v.length ≤ x by omega]
  · by_cases h2 : x < a + v.length
    · simp [h1, h2, Nat.le_of_not_lt h1]
    · simp [h1, h2, Nat.le_of_not_lt h2]

theorem cellsFrom_bounds {v : List Byte} {a : Nat} {c : Host.Cell} (h : c ∈ cellsFrom a v) :
    a ≤ c.1 ∧ c.1 < a + v.length := by
  induction v generalizing a with
  | nil => simp [cellsFrom] at h
  | cons b v ih =>
    simp only [cellsFrom, List.mem_cons] at h
    rcases h with rfl | h
    · simp
    · have := ih h; simp only [List.length_cons]; omega

theorem cellsFrom_pairwise (v : List Byte) (a : Nat) : (cellsFrom a v).Pairwise fun c d => c.1 < d.1 := by
  induction v generalizing a with
  | nil => exact List.Pairwise.nil
  | cons b v ih => exact List.Pairwise.cons (fun c h => by have := (cellsFrom_bounds h).1; simpa using this) (ih _)

/-- A write keeps the canonical form. -/
theorem write_wf {m : Memory} (h : m.wf) (a : Nat) (v : List Byte) : (m.write a v).wf := by
  refine List.pairwise_append.2 ⟨List.pairwise_append.2 ⟨h.filter _, cellsFrom_pairwise v a, ?_⟩, h.filter _, ?_⟩
  · intro c hc d hd
    have := (cellsFrom_bounds hd).1
    simp only [List.mem_filter, decide_eq_true_eq] at hc
    omega
  · intro c hc d hd
    simp only [List.mem_filter, decide_eq_true_eq] at hd
    rcases List.mem_append.1 hc with hc | hc
    · simp only [List.mem_filter, decide_eq_true_eq] at hc; omega
    · have := (cellsFrom_bounds hc).2; omega

/-- A write inside a buffer lists no address outside it. -/
theorem write_within {m : Memory} {size : Nat} (h : m.within size) {a : Nat} {v : List Byte} (ha : a + v.length ≤ size) :
    (m.write a v).within size := by
  intro c hc
  rcases List.mem_append.1 hc with hc | hc
  · rcases List.mem_append.1 hc with hc | hc
    · exact h c (List.mem_filter.1 hc).1
    · have := (cellsFrom_bounds hc).2; omega
  · exact h c (List.mem_filter.1 hc).1

theorem nil_wf : Memory.wf [] := List.Pairwise.nil

theorem nil_within (size : Nat) : Memory.within [] size := fun _ h => absurd h (by simp)

theorem get?_eq_none_of_lt {m : Memory} {x : Nat} (h : ∀ c ∈ m, x < c.1) : get? m x = none := by
  induction m with
  | nil => rfl
  | cons c m ih =>
    obtain ⟨k, b⟩ := c
    have hk := h (k, b) (by simp)
    rw [get?, if_neg (by simp only at hk; omega)]
    exact ih fun c hc => h c (by simp [hc])

/-- The form is canonical: two memories in it that hold the same bytes at the same addresses are equal data. -/
theorem eq_of_get?_eq {m m' : Memory} (h : m.wf) (h' : m'.wf) (he : ∀ x, get? m x = get? m' x) : m = m' := by
  induction m generalizing m' with
  | nil =>
    cases m' with
    | nil => rfl
    | cons c m' => obtain ⟨k, b⟩ := c; have := he k; simp [get?] at this
  | cons c m ih =>
    obtain ⟨k, b⟩ := c
    cases m' with
    | nil => have := he k; simp [get?] at this
    | cons c' m' =>
      obtain ⟨k', b'⟩ := c'
      rw [wf, List.pairwise_cons] at h h'
      have hk : k = k' := by
        rcases Nat.lt_trichotomy k k' with hlt | heq | hgt
        · have h1 := he k
          rw [get?_eq_none_of_lt (m := (k', b') :: m')] at h1
          · simp [get?] at h1
          · intro c hc
            rcases List.mem_cons.1 hc with rfl | hc
            · exact hlt
            · exact Nat.lt_trans hlt (h'.1 c hc)
        · exact heq
        · have h1 := he k'
          rw [get?_eq_none_of_lt (m := (k, b) :: m)] at h1
          · simp [get?] at h1
          · intro c hc
            rcases List.mem_cons.1 hc with rfl | hc
            · exact hgt
            · exact Nat.lt_trans hgt (h.1 c hc)
      subst hk
      have hb : b = b' := by have := he k; simpa [get?] using this
      subst hb
      congr 1
      refine ih h.2 h'.2 fun x => ?_
      by_cases hx : k = x
      · subst hx
        rw [get?_eq_none_of_lt h.1, get?_eq_none_of_lt h'.1]
      · have := he x
        simpa [get?, hx] using this

end Memory

/-- The buffer of the reset state is in the canonical form. -/
theorem reset_buf_wf : State.reset.buf.wf := Memory.nil_wf

/-- `BUF[x]` after `MemWrite(a, |v|, v)` (20_memory.md R61). -/
theorem memWrite_readByte (s : State) (a : Nat) (v : List Byte) (x : Nat) :
    (s.memWrite a v).readByte x = if a ≤ x ∧ x < a + v.length then byteAt v (x - a) else s.readByte x := by
  unfold State.readByte
  rw [memWrite_buf, Memory.get?_write]
  split <;> rfl

theorem memWrite_readByte_outside (s : State) {a x : Nat} {v : List Byte} (h : x < a ∨ a + v.length ≤ x) :
    (s.memWrite a v).readByte x = s.readByte x := by
  rw [memWrite_readByte, if_neg (by omega)]

@[simp] theorem memRead_length (s : State) (a n : Nat) : (s.memRead a n).length = n := by simp [State.memRead]

@[simp] theorem src_length (s : State) : s.src.length = s.srcLen := memRead_length _ _ _

@[simp] theorem key_length (s : State) : s.key.length = s.regs.keyLen.toNat := memRead_length _ _ _

@[simp] theorem iv_length (s : State) : s.iv.length = s.regs.ivLen.toNat := memRead_length _ _ _

/-- Byte `i` of `MemRead(a, n)` (R61). -/
theorem byteAt_memRead (s : State) (a : Nat) {n i : Nat} (h : i < n) : byteAt (s.memRead a n) i = s.readByte (a + i) := by
  simp [byteAt, State.memRead, h]

/-- Two reads agree when their bytes do. -/
theorem memRead_congr {s t : State} {a b n : Nat} (h : ∀ i < n, t.readByte (b + i) = s.readByte (a + i)) :
    t.memRead b n = s.memRead a n := by
  apply List.map_congr_left
  intro i hi
  exact h i (List.mem_range.1 hi)

/-- What was written is what is read. -/
theorem memRead_memWrite_same (s : State) (a : Nat) (v : List Byte) : (s.memWrite a v).memRead a v.length = v := by
  apply List.ext_getElem
  · simp
  · intro i h1 h2
    simp only [State.memRead, List.getElem_map, List.getElem_range, memWrite_readByte]
    rw [if_pos (by omega), Nat.add_sub_cancel_left, byteAt_eq_getElem _ _ h2]

/-- A read outside what was written is not changed by the write. -/
theorem memRead_memWrite_disjoint (s : State) {a b n : Nat} {v : List Byte} (h : b + n ≤ a ∨ a + v.length ≤ b) :
    (s.memWrite a v).memRead b n = s.memRead b n :=
  memRead_congr fun _ hi => memWrite_readByte_outside s (by omega)

end Sys2Proof.Machine
end

