-- ==== Sys2Proof/Laws/Bytes.lean ====
section
/-! SUPPORT. The laws of byte sequences, of the byte orders and of register arrays. -/

namespace Sys2Proof.Machine

@[simp] theorem bytes_length (n : Nat) (v : Byte) : (bytes n v).length = n := by simp [bytes]

theorem slice_length (b : List Byte) (i j : Nat) : (slice b i j).length = min (j - i) (b.length - i) := by
  simp [slice]

theorem slice_length_eq {b : List Byte} {i j : Nat} (h : j ≤ b.length) : (slice b i j).length = j - i := by
  rw [slice_length]; omega

/-- Byte `k` of `b[i..j)`. -/
theorem byteAt_slice {b : List Byte} {i j k : Nat} (h : k < j - i) : byteAt (slice b i j) k = byteAt b (i + k) := by
  simp [byteAt, slice, h, List.getD]

theorem byteAt_append_left {a b : List Byte} {i : Nat} (h : i < a.length) : byteAt (a ++ b) i = byteAt a i := by
  simp [byteAt, List.getD, List.getElem?_append_left h]

theorem byteAt_append_right {a b : List Byte} {i : Nat} (h : a.length ≤ i) :
    byteAt (a ++ b) i = byteAt b (i - a.length) := by
  simp [byteAt, List.getD, List.getElem?_append_right h]

/-- Two sequences of one length agree when their bytes do. -/
theorem ext_byteAt {a b : List Byte} (hl : a.length = b.length) (h : ∀ i < a.length, byteAt a i = byteAt b i) :
    a = b := by
  apply List.ext_getElem hl
  intro i h1 h2
  have := h i h1
  rwa [byteAt_eq_getElem _ _ h1, byteAt_eq_getElem _ _ h2] at this

@[simp] theorem leBytes_length (n v : Nat) : (leBytes n v).length = n := by
  induction n generalizing v with
  | zero => rfl
  | succ n ih => simp [leBytes, ih]

@[simp] theorem beBytes_length (n v : Nat) : (beBytes n v).length = n := by simp [beBytes]

@[simp] theorem toLE16_length (v : Nat) : (toLE16 v).length = 2 := leBytes_length 2 v

@[simp] theorem toLE32_length (v : Nat) : (toLE32 v).length = 4 := leBytes_length 4 v

@[simp] theorem toBE32_length (v : Nat) : (toBE32 v).length = 4 := beBytes_length 4 v

theorem toLE16_eq (v : Nat) : toLE16 v = [BitVec.ofNat 8 v, BitVec.ofNat 8 (v / 2 ^ 8)] := rfl

theorem toLE32_eq (v : Nat) : toLE32 v =
    [BitVec.ofNat 8 v, BitVec.ofNat 8 (v / 2 ^ 8), BitVec.ofNat 8 (v / 2 ^ 8 / 2 ^ 8),
      BitVec.ofNat 8 (v / 2 ^ 8 / 2 ^ 8 / 2 ^ 8)] := rfl

/-- `le16` reads the first two bytes only. -/
theorem le16_cons (a b : Byte) (r : List Byte) : le16 (a :: b :: r) = a.toNat + 2 ^ 8 * b.toNat := rfl

/-- `le32` reads the first four bytes only. -/
theorem le32_cons (a b c d : Byte) (r : List Byte) :
    le32 (a :: b :: c :: d :: r) = a.toNat + 2 ^ 8 * b.toNat + 2 ^ 16 * c.toNat + 2 ^ 24 * d.toNat := rfl

theorem le16_lt (b : List Byte) : le16 b < 2 ^ 16 := by
  have h0 := (byteAt b 0).isLt
  have h1 := (byteAt b 1).isLt
  simp only [le16]; omega

theorem le32_lt (b : List Byte) : le32 b < 2 ^ 32 := by
  have h0 := (byteAt b 0).isLt
  have h1 := (byteAt b 1).isLt
  have h2 := (byteAt b 2).isLt
  have h3 := (byteAt b 3).isLt
  simp only [le32]; omega

/-- `le16` reads back what `LE16` wrote. -/
theorem le16_toLE16 {v : Nat} (h : v < 2 ^ 16) (r : List Byte) : le16 (toLE16 v ++ r) = v := by
  rw [toLE16_eq, List.cons_append, List.cons_append, le16_cons]
  simp only [BitVec.toNat_ofNat]; omega

/-- `le32` reads back what `LE32` wrote. -/
theorem le32_toLE32 {v : Nat} (h : v < 2 ^ 32) (r : List Byte) : le32 (toLE32 v ++ r) = v := by
  rw [toLE32_eq]
  simp only [List.cons_append, le32_cons, BitVec.toNat_ofNat]; omega

theorem byte_ofNat_toNat (b : Byte) : BitVec.ofNat 8 b.toNat = b := by simp

/-- `LE16` writes back what `le16` read. -/
theorem toLE16_le16 (a b : Byte) : toLE16 (le16 [a, b]) = [a, b] := by
  have ha := a.isLt
  have hb := b.isLt
  rw [toLE16_eq, le16_cons]
  congr 1
  · apply BitVec.eq_of_toNat_eq; simp only [BitVec.toNat_ofNat]; omega
  · congr 1; apply BitVec.eq_of_toNat_eq; simp only [BitVec.toNat_ofNat]; omega

/-- `LE32` writes back what `le32` read. -/
theorem toLE32_le32 (a b c d : Byte) : toLE32 (le32 [a, b, c, d]) = [a, b, c, d] := by
  have ha := a.isLt
  have hb := b.isLt
  have hc := c.isLt
  have hd := d.isLt
  rw [toLE32_eq, le32_cons]
  congr 1
  · apply BitVec.eq_of_toNat_eq; simp only [BitVec.toNat_ofNat]; omega
  congr 1
  · apply BitVec.eq_of_toNat_eq; simp only [BitVec.toNat_ofNat]; omega
  congr 1
  · apply BitVec.eq_of_toNat_eq; simp only [BitVec.toNat_ofNat]; omega
  congr 1
  apply BitVec.eq_of_toNat_eq; simp only [BitVec.toNat_ofNat]; omega

theorem flatMap_length_const {α : Type} {f : α → List Byte} {k : Nat} (l : List α) (h : ∀ x, (f x).length = k) :
    (l.flatMap f).length = k * l.length := by
  induction l with
  | nil => simp
  | cons x l ih => rw [List.flatMap_cons, List.length_append, h, ih, List.length_cons, Nat.mul_succ]; omega

@[simp] theorem arrayBytes_length {n : Nat} (v : Vector Word n) : (arrayBytes v).length = 4 * n := by
  rw [arrayBytes, flatMap_length_const v.toList fun _ => toLE32_length _]
  simp

theorem length_four {l : List Byte} (h : l.length = 4) : ∃ a b c d, l = [a, b, c, d] := by
  match l, h with
  | [a, b, c, d], _ => exact ⟨a, b, c, d, rfl⟩

/-- Pieces of 4 bytes, joined again. -/
theorem flatMap_slices (n : Nat) (b : List Byte) (h : b.length = 4 * n) :
    (List.range n).flatMap (fun i => slice b (4 * i) (4 * i + 4)) = b := by
  induction n generalizing b with
  | zero => simp at h; simp [h]
  | succ n ih =>
    rw [List.range_succ_eq_map, List.flatMap_cons, List.flatMap_map]
    have h1 : ∀ i, slice b (4 * (i + 1)) (4 * (i + 1) + 4) = slice (b.drop 4) (4 * i) (4 * i + 4) := by
      intro i
      simp only [slice, List.drop_drop]
      congr 1
      · omega
      · congr 1; omega
    simp only [Nat.succ_eq_add_one, h1]
    rw [ih (b.drop 4) (by simp; omega)]
    simp [slice]

/-- The bytes of a register array are the bytes it was written from (10_state.md R22). -/
theorem arrayBytes_bytesArray {n : Nat} {b : List Byte} (h : b.length = 4 * n) : arrayBytes (bytesArray n b) = b := by
  have key : (bytesArray n b).toList = (List.range n).map fun i => toWord (le32 (slice b (4 * i) (4 * i + 4))) := by
    apply List.ext_getElem
    · simp [bytesArray]
    · intro i h1 h2
      simp [bytesArray]
  rw [arrayBytes, key, List.flatMap_map]
  conv_rhs => rw [← flatMap_slices n b h]
  apply List.flatMap_congr
  intro i hi
  have hi := List.mem_range.1 hi
  obtain ⟨x, y, z, w, hs⟩ := length_four (l := slice b (4 * i) (4 * i + 4)) (by rw [slice_length_eq (by omega)]; omega)
  have hl := le32_lt [x, y, z, w]
  rw [hs, toWord, BitVec.toNat_ofNat, Nat.mod_eq_of_lt hl, toLE32_le32]

theorem xorBytes_length (a b : List Byte) : (xorBytes a b).length = min a.length b.length := by simp [xorBytes]

theorem byteAt_xorBytes {a b : List Byte} {i : Nat} (ha : i < a.length) (hb : i < b.length) :
    byteAt (xorBytes a b) i = byteAt a i ^^^ byteAt b i := by
  rw [byteAt_eq_getElem _ _ (by rw [xorBytes_length]; omega), byteAt_eq_getElem _ _ ha, byteAt_eq_getElem _ _ hb]
  simp [xorBytes]

@[simp] theorem blocks_length (size count : Nat) (b : List Byte) : (blocks size count b).length = count := by
  induction count generalizing b with
  | zero => rfl
  | succ n ih => simp [blocks, ih]

/-- Every piece has the size, where the sequence is long enough. -/
theorem blocks_size {size count : Nat} {b : List Byte} (h : size * count ≤ b.length) :
    ∀ p ∈ blocks size count b, p.length = size := by
  induction count generalizing b with
  | zero => simp [blocks]
  | succ n ih =>
    have h' : size * n + size ≤ b.length := by simpa [Nat.mul_succ] using h
    intro p hp
    rcases List.mem_cons.1 hp with rfl | hp
    · rw [List.length_take]; omega
    · exact ih (by rw [List.length_drop]; omega) p hp

/-- Each of `n` copies. -/
theorem byteAt_bytes {n i : Nat} (v : Byte) (h : i < n) : byteAt (bytes n v) i = v := by
  rw [byteAt_eq_getElem _ _ (by simpa using h)]
  simp only [bytes, List.getElem_replicate]

/-- Two slices that meet, joined. -/
theorem slice_append_slice {l : List Byte} {a b c : Nat} (h1 : a ≤ b) (h2 : b ≤ c) :
    slice l a b ++ slice l b c = slice l a c := by
  obtain ⟨d, rfl⟩ := Nat.exists_eq_add_of_le h1
  obtain ⟨e, rfl⟩ := Nat.exists_eq_add_of_le h2
  simp only [slice]
  rw [← List.drop_drop, show a + d - a = d by omega, show a + d + e - (a + d) = e by omega,
    show a + d + e - a = d + e by omega, List.take_add]

/-- A slice of a slice. -/
theorem slice_slice {l : List Byte} {a b p q : Nat} (h : a + q ≤ b) :
    slice (slice l a b) p q = slice l (a + p) (a + q) := by
  simp only [slice, List.drop_take, List.take_take, List.drop_drop]
  congr 1
  omega

end Sys2Proof.Machine
end

