-- ==== Sys2Proof/Laws/Crypto.lean ====
section
/-! SUPPORT. The lengths of what the hash, cipher and checksum functions return. -/

namespace Sys2Proof.Machine

theorem shaCompress_length {h : List Word} (hl : h.length = 8) (block : List Byte) : (shaCompress h block).length = 8 := by
  simp [shaCompress, ShaVars.toList, hl]

theorem shaFold_length (bs : List (List Byte)) {h : List Word} (hl : h.length = 8) :
    (bs.foldl shaCompress h).length = 8 := by
  induction bs generalizing h with
  | nil => exact hl
  | cons b bs ih => exact ih (shaCompress_length hl b)

/-- SHA-256 returns 32 bytes (42_hash.md R160). -/
@[simp] theorem sha256_length (m : List Byte) : (sha256 m).length = 32 := by
  rw [sha256, flatMap_length_const _ fun _ => toBE32_length _, shaFold_length _ (by rfl)]

@[simp] theorem hmac_length (k m : List Byte) : (hmac k m).length = 32 := sha256_length _

@[simp] theorem hmacKey0_length (k : List Byte) : (hmacKey0 k).length = 64 := by
  unfold hmacKey0
  split
  · simp
  · simp; omega

theorem prfBlocks_length (k seed : List Byte) (count : Nat) (a : List Byte) :
    (prfBlocks k seed count a).length = 32 * count := by
  induction count generalizing a with
  | zero => rfl
  | succ n ih => simp [prfBlocks, ih]; omega

/-- The PRF returns exactly `n` bytes (R180). -/
@[simp] theorem prf_length (k r : List Byte) (n : Nat) : (prf k r n).length = n := by
  simp only [prf, List.length_take, prfBlocks_length, ceilDiv]
  omega

theorem keyWord_length {w : List (List Byte)} {i : Nat} (hw : ∀ t ∈ w, t.length = 4) (h4 : 4 ≤ i) (hi : i ≤ w.length) :
    (keyWord w i).length = 4 := by
  have get : ∀ j, j < w.length → (w.getD j []).length = 4 := by
    intro j hj
    simp only [List.getD, List.getElem?_eq_getElem hj, Option.getD_some]
    exact hw _ (List.getElem_mem hj)
  have h1 := get (i - 1) (by omega)
  have h2 := get (i - 4) (by omega)
  unfold keyWord
  dsimp only
  split
  · simp only [xorBytes_length, List.length_map, rotWord, List.length_append, List.length_drop, List.length_take, h1, h2,
      List.length_cons, List.length_nil]
    rfl
  · rw [xorBytes_length, h1, h2]; rfl

theorem keyFold (n : Nat) (w : List (List Byte)) (hw : ∀ t ∈ w, t.length = 4) (h4 : 4 ≤ w.length) :
    let w' := (List.range' w.length n).foldl (fun w i => w ++ [keyWord w i]) w
    w'.length = w.length + n ∧ ∀ t ∈ w', t.length = 4 := by
  induction n generalizing w with
  | zero => exact ⟨rfl, hw⟩
  | succ n ih =>
    rw [List.range'_succ, List.foldl_cons]
    have hw' : ∀ t ∈ w ++ [keyWord w w.length], t.length = 4 := by
      intro t ht
      rcases List.mem_append.1 ht with ht | ht
      · exact hw t ht
      · rw [List.mem_singleton.1 ht]; exact keyWord_length hw h4 (Nat.le_refl _)
    have := ih (w ++ [keyWord w w.length]) hw' (by simp; omega)
    simp only [List.length_append, List.length_cons, List.length_nil, Nat.zero_add] at this
    dsimp only
    refine ⟨by have := this.1; omega, this.2⟩

theorem keySchedule_spec {k : List Byte} (hk : k.length = 16) :
    (keySchedule k).length = 44 ∧ ∀ t ∈ keySchedule k, t.length = 4 := by
  have h0 : (blocks 4 4 k).length = 4 := blocks_length _ _ _
  have := keyFold 40 (blocks 4 4 k) (blocks_size (by omega)) (by omega)
  rw [h0] at this
  exact this

theorem roundKey_length {w : List (List Byte)} (hw : ∀ t ∈ w, t.length = 4) (hl : w.length = 44) {j : Nat} (hj : j ≤ 10) :
    (roundKey w j).length = 16 := by
  have h4 : ((w.drop (4 * j)).take 4).length = 4 := by rw [List.length_take, List.length_drop]; omega
  have hall : ∀ t ∈ (w.drop (4 * j)).take 4, t.length = 4 := fun t ht => hw t (List.mem_of_mem_drop (List.mem_of_mem_take ht))
  unfold roundKey
  generalize (w.drop (4 * j)).take 4 = l at h4 hall
  match l, h4, hall with
  | [a, b, c, d], _, hall =>
    simp only [List.flatten_cons, List.flatten_nil, List.length_append, List.length_nil]
    rw [hall a (by simp), hall b (by simp), hall c (by simp), hall d (by simp)]

@[simp] theorem ofCells_length (f : Nat → Nat → Byte) : (ofCells f).length = 16 := by simp [ofCells]

/-- "`INVSBOX[SBOX[x]] = x`" (R203): the two tables fit each other. -/
theorem invSubByte_subByte (x : Byte) : invSubByte (subByte x) = x := by
  revert x
  decide +kernel

/-- `AES128_DEC_BLOCK` returns 16 bytes (43_ciphers.md R204). -/
theorem aesDecBlock_length {k : List Byte} (hk : k.length = 16) (c : List Byte) :
    (aesDecBlock (keySchedule k) c).length = 16 := by
  obtain ⟨hl, hw⟩ := keySchedule_spec hk
  rw [aesDecBlock, xorBytes_length, roundKey_length hw hl (by omega)]
  simp [invSubBytes, invShiftRows]

theorem cbcChain_length {dec : List Byte → List Byte} (hd : ∀ c, (dec c).length = 16) (bs : List (List Byte))
    (hb : ∀ b ∈ bs, b.length = 16) {prev : List Byte} (hp : prev.length = 16) :
    (cbcChain dec prev bs).length = 16 * bs.length := by
  induction bs generalizing prev with
  | nil => rfl
  | cons b bs ih =>
    rw [cbcChain, List.length_append, xorBytes_length, hd, hp, ih (fun x hx => hb x (by simp [hx])) (hb b (by simp)),
      List.length_cons]
    omega

/-- `CBC_DEC` returns as many bytes as it is given (R206). -/
theorem cbcDec_length {k iv c : List Byte} (hk : k.length = 16) (hv : iv.length = 16) (hc : c.length % 16 = 0) :
    (cbcDec k iv c).length = c.length := by
  rw [cbcDec, cbcChain_length (aesDecBlock_length hk) _ (blocks_size (by omega)) hv, blocks_length]
  omega

/-- GEA returns as many bytes as it is given (R212). -/
theorem gea_length (next : Word → Word × BitVec 16) (st : Word) {d : List Byte} (h : d.length % 2 = 0) :
    (gea next st d).length = d.length := by
  match d, h with
  | [], _ => rfl
  | [_], h => simp at h
  | b0 :: b1 :: r, h =>
    have := gea_length next (next st).1 (d := r) (by simp at h; omega)
    simp only [gea, List.length_append, toLE16_length, List.length_cons, this]
    omega

end Sys2Proof.Machine
end

