-- ==== Sys2Proof/Laws/Claims.lean ====
section
/-! SUPPORT. What the shared endings of operations do, in the terms of Sys2Proof/Safety.lean: said once here, cited by the
proofs instead of unfolding them. -/

namespace Sys2Proof.Params.HasSpecValues

/-! ## The values of 00_scope.md R6 -/

variable {q : Params}

theorem chunk (h : q.HasSpecValues) : q.chunk = 64 := congrArg Params.chunk h

theorem contPayload (h : q.HasSpecValues) : q.contPayload = 63 := congrArg Params.contPayload h

theorem kdfOut (h : q.HasSpecValues) : q.kdfOut = 0x44 := congrArg Params.kdfOut h

theorem sensorBlk0 (h : q.HasSpecValues) : q.sensorBlk0 = 0x3A7 := congrArg Params.sensorBlk0 h

theorem sensorAesBlk (h : q.HasSpecValues) : q.sensorAesBlk = 0x3F0 := congrArg Params.sensorAesBlk h

theorem sensorBlocks (h : q.HasSpecValues) : q.sensorBlocks = 15 := congrArg Params.sensorBlocks h

theorem sensorPad (h : q.HasSpecValues) : q.sensorPad = 5 := congrArg Params.sensorPad h

end Sys2Proof.Params.HasSpecValues

namespace Sys2Proof.Machine

/-! ## Checks and endings -/

theorem inRange_iff {s : State} {a n : Nat} : s.inRange a n = true ↔ a + n ≤ s.params.bufSize := decide_eq_true_iff

theorem inRange_false_iff {s : State} {a n : Nat} : s.inRange a n = false ↔ ¬ a + n ≤ s.params.bufSize :=
  decide_eq_false_iff_not

theorem srcOk_iff (s : State) : s.srcOk = true ↔ InBuf s s.regs.srcAddr s.regs.srcLen.toNat := inRange_iff

theorem keyOk_iff (s : State) : s.keyOk = true ↔ InBuf s s.regs.keyAddr s.regs.keyLen.toNat := inRange_iff

theorem ivOk_iff (s : State) : s.ivOk = true ↔ InBuf s s.regs.ivAddr s.regs.ivLen.toNat := inRange_iff

theorem dstOk_iff (s : State) (n : Nat) : s.dstOk n = true ↔ InBuf s s.regs.dstAddr n := inRange_iff

theorem sameBuffer_of_buf {s t : State} (hb : t.buf = s.buf) (hn : t.resets = s.resets) : SameBuffer s t := by
  intro x; simp [State.readByte, hb, hn]

theorem written_nil {s t : State} {a : Nat} : Written s t a [] ↔ SameBuffer s t := by
  constructor
  · intro h x; have := h x; rwa [if_neg (by simp)] at this
  · intro h x; rw [if_neg (by simp)]; exact h x

theorem written_memWrite (s : State) (a : Nat) (v : List Byte) : Written s (s.memWrite a v) a v :=
  memWrite_readByte s a v

/-- What an operation wrote is what is read there. -/
theorem memRead_of_written {s t : State} {a : Nat} {v : List Byte} (h : Written s t a v) :
    t.memRead a v.length = v := by
  apply ext_byteAt (by simp)
  intro i hi
  rw [memRead_length] at hi
  rw [byteAt_memRead _ _ hi, h, if_pos ⟨by omega, by omega⟩]
  congr 1
  omega

/-- `Written` looks at the buffer and its draws only. -/
theorem written_of_buf {s t : State} {a : Nat} {v : List Byte} (hb : t.buf = s.buf.write a v)
    (hn : t.resets = s.resets) : Written s t a v := by
  intro x
  rw [← memWrite_readByte]
  simp [State.readByte, hb, hn]

/-- An operation that ends in `raise e` on a state that differs in registers and `RX_ACTIVE` only. -/
theorem raisesWith_of_raise {i : Instr} {s s' : State} {e : ErrCode} (h : exec i s = .next (s'.raise e))
    (hb : s'.buf = s.buf) (hp : s'.pend = s.pend) (hh : s'.host = s.host) (hz : s'.params = s.params)
    (hn : s'.resets = s.resets) (hc : s'.schedule = s.schedule) : RaisesWith i s e s'.regs s'.status.rxActive :=
  ⟨_, h, rfl, rfl, sameBuffer_of_buf (by simp [hb]) (by simp [hn]), by simp [SameRest, hp, hh, hz, hn, hc]⟩

/-- An operation that ends in `raise e` on the state it started in. -/
theorem raisesWith_raise {i : Instr} {s : State} {e : ErrCode} (h : exec i s = .next (s.raise e)) :
    RaisesWith i s e s.regs s.status.rxActive :=
  raisesWith_of_raise h rfl rfl rfl rfl rfl rfl

/-- An operation that ends in `complete` on a state whose buffer has `v` written at `a`. -/
theorem completesWith_of_complete {i : Instr} {s s' : State} {a : Nat} {v : List Byte}
    (h : exec i s = .next s'.complete) (hb : s'.buf = s.buf.write a v) (hp : s'.pend = s.pend)
    (hh : s'.host = s.host) (hz : s'.params = s.params) (hn : s'.resets = s.resets)
    (hc : s'.schedule = s.schedule) :
    CompletesWith i s s'.regs s'.status.rxActive a v :=
  ⟨_, h, rfl, rfl, written_of_buf (by simp [hb]) (by simp [hn]), by simp [SameRest, hp, hh, hz, hn, hc]⟩

/-- An operation that ends in `complete` on a state whose buffer is the one it started with. -/
theorem completesWith_of_complete_nil {i : Instr} {s s' : State} {a : Nat} (h : exec i s = .next s'.complete)
    (hb : s'.buf = s.buf) (hp : s'.pend = s.pend) (hh : s'.host = s.host) (hz : s'.params = s.params)
    (hn : s'.resets = s.resets) (hc : s'.schedule = s.schedule) : CompletesWith i s s'.regs s'.status.rxActive a [] :=
  ⟨_, h, rfl, rfl, written_nil.2 (sameBuffer_of_buf (by simp [hb]) (by simp [hn])), by simp [SameRest, hp, hh, hz, hn, hc]⟩

/-- `finish`, where the output does not fit. -/
theorem finish_of_not_inBuf {s : State} {n : Nat} {v : List Byte} (h : ¬ InBuf s s.regs.dstAddr n) :
    s.finish n v = s.raise .badOperand := by
  have : s.dstOk n = false := by rw [← Bool.not_eq_true, dstOk_iff]; exact h
  simp [State.finish, this]

/-- `finish`, where the output fits. -/
theorem finish_of_inBuf {s : State} {n : Nat} {v : List Byte} (h : InBuf s s.regs.dstAddr n) :
    s.finish n v = (s.output n v).complete := by
  have : s.dstOk n = true := (dstOk_iff s n).2 h
  simp [State.finish, this]

/-- Everything an operation that ends in `finish` can do, by whether its output fits. -/
theorem raisesWith_finish {i : Instr} {s : State} {n : Nat} {v : List Byte} (h : exec i s = .next (s.finish n v))
    (hd : ¬ InBuf s s.regs.dstAddr n) : RaisesWith i s .badOperand s.regs s.status.rxActive :=
  raisesWith_raise (h.trans (by rw [finish_of_not_inBuf hd]))

theorem completesWith_finish {i : Instr} {s : State} {n : Nat} {v : List Byte} (h : exec i s = .next (s.finish n v))
    (hd : InBuf s s.regs.dstAddr n) :
    CompletesWith i s { s.regs with dstLen := toWord n } s.status.rxActive s.regs.dstAddr.toNat v :=
  completesWith_of_complete (s' := s.output n v) (h.trans (by rw [finish_of_inBuf hd])) rfl rfl rfl rfl rfl rfl

/-! ## What no operation touches -/

theorem sameRest_ite {c : Prop} [Decidable c] {s a b : State} (ha : SameRest s a) (hb : SameRest s b) :
    SameRest s (if c then a else b) := by
  split
  · exact ha
  · exact hb

theorem sameRest_raise (s : State) (e : ErrCode) : SameRest s (s.raise e) := ⟨rfl, rfl, rfl, rfl, rfl⟩

theorem sameRest_failGtls (s : State) (e : ErrCode) : SameRest s (s.failGtls e) := ⟨rfl, rfl, rfl, rfl, rfl⟩

theorem sameRest_finish (s : State) (n : Nat) (v : List Byte) : SameRest s (s.finish n v) :=
  sameRest_ite (sameRest_raise _ _) ⟨rfl, rfl, rfl, rfl, rfl⟩

theorem sameRest_chunkInFirst (c : List Byte) (s : State) : SameRest s (chunkInFirst c s) :=
  sameRest_ite (sameRest_raise _ _) (sameRest_ite ⟨rfl, rfl, rfl, rfl, rfl⟩ ⟨rfl, rfl, rfl, rfl, rfl⟩)

theorem sameRest_chunkInNext (c : List Byte) (s : State) : SameRest s (chunkInNext c s) :=
  sameRest_ite ⟨rfl, rfl, rfl, rfl, rfl⟩ (sameRest_ite ⟨rfl, rfl, rfl, rfl, rfl⟩
    (sameRest_ite ⟨rfl, rfl, rfl, rfl, rfl⟩ ⟨rfl, rfl, rfl, rfl, rfl⟩))

theorem sameRest_sensorDecrypt (mid : Nat) (restart : Bool) (next : Word → Word × BitVec 16) (s : State) :
    SameRest s (sensorDecrypt mid restart next s) := by
  simp only [sensorDecrypt, sensorTail]
  repeat' first
    | apply sameRest_ite
    | exact sameRest_raise _ _
    | exact ⟨rfl, rfl, rfl, rfl, rfl⟩

theorem sameRest_reply (s : State) (r : Regs) (n : Nat) (v : List Byte) (g : GtlsState) :
    SameRest s (((({ s with regs := r } : State).output n v).setGtls g).complete) := ⟨rfl, rfl, rfl, rfl, rfl⟩

theorem sameRest_of_next {s u t : State} (h : (.next u : Result) = .next t) (hu : SameRest s u) : SameRest s t := by
  cases h
  exact hu

/-- No operation touches `PEND`, the host, the parameters or the model's own fields. -/
theorem sameRest_exec {i : Instr} {s t : State} (h : exec i s = .next t) : SameRest s t := by
  cases i <;> refine sameRest_of_next h ?_
  case sensorDecrypt => exact sameRest_sensorDecrypt _ _ _ _
  case gtlsIdentify =>
    dsimp only
    repeat' first
      | with_reducible apply sameRest_ite
      | with_reducible exact sameRest_raise _ _
      | with_reducible exact sameRest_failGtls _ _
      | with_reducible exact sameRest_reply s _ _ _ _
  all_goals
    repeat' first
      | with_reducible apply sameRest_ite
      | with_reducible exact sameRest_raise _ _
      | with_reducible exact sameRest_failGtls _ _
      | with_reducible exact sameRest_finish _ _ _
      | with_reducible exact sameRest_chunkInNext _ _
      | with_reducible exact sameRest_chunkInFirst _ _
      | exact ⟨rfl, rfl, rfl, rfl, rfl⟩

end Sys2Proof.Machine
end

