-- ==== Sys2Proof/Laws/Encoding.lean ====
section
/-! SUPPORT. The laws of the command word: its five fields are the whole of it, and what a word that decodes to an
operation looks like. -/

namespace Sys2Proof

/-- A word is its fields in the order of 30_encoding.md R80, from bit 31 down. -/
theorem word_eq_fields (w : Word) :
    w = (w.extractLsb' 10 22 ++ BitVec.ofBool (pField w) ++ BitVec.ofBool (cField w) ++ w.extractLsb' 6 2 ++ opField w :
      BitVec 32) := by
  apply BitVec.eq_of_getLsbD_eq
  intro i hi
  simp only [BitVec.getLsbD_append, opField, cField, pField, BitVec.getLsbD_extractLsb', BitVec.getLsbD_ofBool]
  by_cases h : i < 10
  · interval_cases i <;> simp
  · rw [if_neg (by omega), if_neg (by omega), if_neg (by omega), if_neg (by omega),
      show 10 + (i - 6 - 2 - 1 - 1) = i by omega]
    simp [show i - 6 - 2 - 1 - 1 < 22 by omega]

/-- All that a word decoding to an operation has to be: its `OP` is the operation's, its reserved bits are 0, and its
flags are 0 unless `OP = 0x01` (R84, R85). -/
theorem decode_eq_op {w : Word} {i : Instr} (h : decode w = .op i) :
    opOf (opField w) (cField w) (pField w) = some i ∧ reservedBitsClear w = true ∧
      (opField w = 0x01#6 ∨ (cField w = false ∧ pField w = false)) := by
  unfold decode at h
  split at h
  · cases h
  · rename_i j hj
    split at h
    · cases h
    · split at h
      · cases h
      · cases h
        rename_i h1 h2
        refine ⟨hj, by simpa using h1, ?_⟩
        revert h2
        cases cField w <;> cases pField w <;> simp

/-- The flag bits do not tell operations apart but for `FRAME_ENCODE` (R85). -/
theorem opOf_flags : ∀ (op : BitVec 6) (c p c' p' : Bool), op ≠ 0x01#6 → opOf op c p = opOf op c' p' := by
  decide +revert

end Sys2Proof
end

