-- ==== Sys2Proof/Laws/PerInstr.lean ====
section
/-! SUPPORT. Statements about every operation as syntax, one lemma for each constructor. -/

/-- The word an operation encodes to is legal by 30_encoding.md R84's lists. -/
def Sys2Proof.Laws.EncodedWord.Statement (i : Sys2Proof.Instr) : Prop :=
  Sys2Proof.CmdWord.wellFormed (Sys2Proof.encode i) = true

namespace Sys2Proof.Laws.EncodedWord

theorem nop : Statement .nop := by unfold Statement; decide
theorem frameEncode (c p : Bool) : Statement (.frameEncode c p) := by unfold Statement; cases c <;> cases p <;> decide
theorem frameDecode : Statement .frameDecode := by unfold Statement; decide
theorem chunkOut : Statement .chunkOut := by unfold Statement; decide
theorem chunkIn : Statement .chunkIn := by unfold Statement; decide
theorem rxAbort : Statement .rxAbort := by unfold Statement; decide
theorem mcuWrap : Statement .mcuWrap := by unfold Statement; decide
theorem mcuUnwrap : Statement .mcuUnwrap := by unfold Statement; decide
theorem sha256 : Statement .sha256 := by unfold Statement; decide
theorem hmacSha256 : Statement .hmacSha256 := by unfold Statement; decide
theorem prfDerive : Statement .prfDerive := by unfold Statement; decide
theorem aes128CbcDec : Statement .aes128CbcDec := by unfold Statement; decide
theorem geaXor : Statement .geaXor := by unfold Statement; decide
theorem crc32Mpeg2 : Statement .crc32Mpeg2 := by unfold Statement; decide
theorem gtlsHello : Statement .gtlsHello := by unfold Statement; decide
theorem gtlsIdentify : Statement .gtlsIdentify := by unfold Statement; decide
theorem gtlsDone : Statement .gtlsDone := by unfold Statement; decide
theorem sensorDecrypt : Statement .sensorDecrypt := by unfold Statement; decide
theorem srst : Statement .srst := by unfold Statement; decide

end Sys2Proof.Laws.EncodedWord
end

