-- ==== Sys2Proof/Laws/Sensor.lean ====
section
/-! SUPPORT. The laws of the sensor body's split into blocks: its length, and that the bytes behind the blocks are
copied. -/

namespace Sys2Proof.Machine

/-- Blocks 0 to 13 of the spec's 15 are `0x3A7 + 7·0x3F0 + 6·MID_PASS_LEN` bytes (45_sensor.md R271). -/
theorem minBody_of_spec {q : Params} (h : q.HasSpecValues) (midPassLen : Nat) :
    minBody q midPassLen = 0x3A7 + 7 * 0x3F0 + 6 * midPassLen := by
  rw [minBody, h.sensorBlocks]
  simp only [blocksTotal, blockSize, h.sensorBlk0, h.sensorAesBlk]
  norm_num
  omega

theorem blockSize_odd {q : Params} {midPassLen j : Nat} (h : j % 2 = 1) : blockSize q midPassLen j = q.sensorAesBlk := by
  unfold blockSize
  rw [if_neg (by omega), if_pos h]

/-- Bytes behind the blocks reach the pre-GEA buffer unchanged (R273). -/
theorem splitFrom_append (q : Params) (midPassLen : Nat) (r : Bool) (k v z : List Byte) (count : Nat) :
    ∀ (j : Nat) (prev a : List Byte), blocksTotal q midPassLen count j ≤ a.length →
      splitFrom q midPassLen r k v count j prev (a ++ z) = splitFrom q midPassLen r k v count j prev a ++ z := by
  induction count with
  | zero => intros; rfl
  | succ count ih =>
    intro j prev a h
    have h' : blockSize q midPassLen j + blocksTotal q midPassLen count (j + 1) ≤ a.length := h
    have ht : (a ++ z).take (blockSize q midPassLen j) = a.take (blockSize q midPassLen j) :=
      List.take_append_of_le_length (by omega)
    have hd : (a ++ z).drop (blockSize q midPassLen j) = a.drop (blockSize q midPassLen j) ++ z :=
      List.drop_append_of_le_length (by omega)
    have hl : blocksTotal q midPassLen count (j + 1) ≤ (a.drop (blockSize q midPassLen j)).length := by
      rw [List.length_drop]; omega
    unfold splitFrom
    simp only [ht, hd]
    split <;> rw [ih _ _ _ hl, List.append_assoc]

/-- The split keeps the length where an AES block is a whole number of cipher blocks (R273). -/
theorem splitFrom_length (q : Params) (midPassLen : Nat) (r : Bool) {k v : List Byte} (hq : 16 ≤ q.sensorAesBlk)
    (hd : q.sensorAesBlk % 16 = 0) (hk : k.length = 16) (hv : v.length = 16) (count : Nat) :
    ∀ (j : Nat) (prev a : List Byte), prev.length = 16 → blocksTotal q midPassLen count j ≤ a.length →
      (splitFrom q midPassLen r k v count j prev a).length = a.length := by
  induction count with
  | zero => intros; rfl
  | succ count ih =>
    intro j prev a hp h
    have h' : blockSize q midPassLen j + blocksTotal q midPassLen count (j + 1) ≤ a.length := h
    have hl : blocksTotal q midPassLen count (j + 1) ≤ (a.drop (blockSize q midPassLen j)).length := by
      rw [List.length_drop]; omega
    unfold splitFrom
    dsimp only
    split
    · rename_i hj
      have hb := blockSize_odd (q := q) (midPassLen := midPassLen) hj
      have e : (a.take (blockSize q midPassLen j)).length = q.sensorAesBlk := by rw [List.length_take]; omega
      have hs : (slice (a.take (blockSize q midPassLen j)) (q.sensorAesBlk - 16) q.sensorAesBlk).length = 16 := by
        rw [slice_length, e]; omega
      rw [List.length_append, cbcDec_length hk (by split <;> assumption) (by rw [e]; exact hd), e, ih _ _ _ hs hl,
        List.length_drop]
      omega
    · rw [List.length_append, List.length_take, ih _ _ _ hp hl, List.length_drop]
      omega

/-- The pre-GEA buffer is as long as the body (R273). -/
theorem sensorSplit_length {q : Params} (hq : q.HasSpecValues) (midPassLen : Nat) (r : Bool) {k v body : List Byte}
    (hk : k.length = 16) (hv : v.length = 16) (h : minBody q midPassLen ≤ body.length) :
    (sensorSplit q midPassLen r k v body).length = body.length :=
  splitFrom_length q midPassLen r (by rw [hq.sensorAesBlk]; decide) (by rw [hq.sensorAesBlk]) hk hv _ 0 v body hv h

end Sys2Proof.Machine
end

