-- ==== Sys2Proof/Laws/Step.lean ====
section
/-! SUPPORT. What the host port and a step can do, said once: the register map is read back from its offsets, and each
step is one of seven kinds. -/

namespace Sys2Proof.Machine

/-- The register at a register's offset is that register (10_state.md R24). -/
theorem regAt_offset (r : RegName) : regAt r.offset = some r := by
  cases r <;> first | decide | (rename_i i; fin_cases i <;> decide)

/-- The register found at an offset has it. -/
theorem offset_of_regAt {o : Nat} {r : RegName} (h : regAt o = some r) : r.offset = o := by
  simpa using List.find?_some h

/-- Every register is 4-aligned below 0x140 (R24). -/
theorem offset_lt (r : RegName) : r.offset < 0x140 ∧ r.offset % 4 = 0 := by
  cases r <;> simp [RegName.offset] <;> omega

/-- The state after a permitted access: its effect on the engine, and what the host read. -/
theorem hostAccess_eq_next {s t : State} {a : Access} : hostAccess s a = .next t ↔ violation s a = none ∧
    t = { accessEffect s a with host := { s.host with
      pc := s.host.pc + 1, reads := s.host.reads ++ (accessData s a).toList } } := by
  unfold hostAccess
  split
  · rename_i f h; simp [h]
  · rename_i h; simp [h, eq_comm]

/-- The access a statement of a host program makes, if it makes one. -/
def accessOf : HostStmt → Option Access
  | .wr width offset v => some (.regWrite width offset v)
  | .rd width offset => some (.regRead width offset)
  | .wrb addr b => some (.bufWrite addr b)
  | .rdb addr => some (.bufRead addr)
  | .wait => none
  | .berr _ => none
  | .brx _ => none
  | .goto _ => none
  | .label _ => none
  | .halt => none

/-- All a host's turn can do: stay, go on in its program, or make the access its statement asks for. -/
theorem hostStep_cases {s t : State} (h : hostStep s = .next t) :
    t = s ∨ (∃ pc, t = s.hostAt pc) ∨
      ∃ st a, s.host.prog[s.host.pc]? = some st ∧ accessOf st = some a ∧ hostAccess s a = .next t := by
  have hb : ∀ (b : Bool) (l : Nat), hostBranch s b l = .next t → ∃ pc, t = s.hostAt pc := by
    intro b l h
    unfold hostBranch at h
    split at h
    · split at h
      · cases h; exact ⟨_, rfl⟩
      · cases h
    · cases h; exact ⟨_, rfl⟩
  simp only [hostStep] at h
  split at h
  · cases h; exact .inl rfl
  · cases h; exact .inl rfl
  · rename_i hp; exact .inr (.inr ⟨_, _, hp, rfl, h⟩)
  · rename_i hp; exact .inr (.inr ⟨_, _, hp, rfl, h⟩)
  · rename_i hp; exact .inr (.inr ⟨_, _, hp, rfl, h⟩)
  · rename_i hp; exact .inr (.inr ⟨_, _, hp, rfl, h⟩)
  · split at h
    · cases h; exact .inl rfl
    · cases h; exact .inr (.inl ⟨_, rfl⟩)
  · exact .inr (.inl (hb _ _ h))
  · exact .inr (.inl (hb _ _ h))
  · exact .inr (.inl (hb _ _ h))
  · cases h; exact .inr (.inl ⟨_, rfl⟩)

/-- All a step can do, by whose turn it is. -/
theorem step_cases {s t : State} (h : step s = .next t) :
    (nextTurn s = .host ∧ ∃ u, hostStep s = .next u ∧ t = u.endTurn) ∨
    (nextTurn s = .engine ∧ s.pend = none ∧ t = s.endTurn) ∨
    (nextTurn s = .engine ∧ ∃ w i u, s.pend = some w ∧ decode w = .op i ∧ exec i s = .next u ∧ t = u.retire.endTurn) ∨
    (nextTurn s = .engine ∧ ∃ w r, s.pend = some w ∧ decode w = .illegal r ∧
      t = (s.raise .badOpcode).retire.endTurn) ∨
    (nextTurn s = .reset ∧ t = s.hardReset.endTurn) := by
  unfold step turnStep at h
  obtain ⟨u, hu, rfl⟩ := onNext_eq_next.1 h
  cases ht : nextTurn s with
  | host => rw [ht] at hu; exact .inl ⟨rfl, u, hu, rfl⟩
  | reset => rw [ht] at hu; cases hu; exact .inr (.inr (.inr (.inr ⟨rfl, rfl⟩)))
  | engine =>
    rw [ht] at hu
    simp only [engineStep] at hu
    cases hp : s.pend with
    | none => rw [hp] at hu; cases hu; exact .inr (.inl ⟨rfl, rfl, rfl⟩)
    | some w =>
      rw [hp] at hu
      obtain ⟨v, hv, rfl⟩ := onNext_eq_next.1 hu
      unfold perform at hv
      cases hd : decode w with
      | op i => rw [hd] at hv; exact .inr (.inr (.inl ⟨rfl, w, i, v, rfl, hd, hv, rfl⟩))
      | illegal r => rw [hd] at hv; cases hv; exact .inr (.inr (.inr (.inl ⟨rfl, w, r, rfl, hd, rfl⟩)))

/-- With the flags an operation's own word has, `OP MNEMONIC[.C][.P]` writes that word (30_encoding.md R86, R88). -/
theorem opWord_of_own_flags (i : Instr) : opWord i (cField (encode i)) (pField (encode i)) = encode i := by
  cases i <;> first | decide | (rename_i c p; cases c <;> cases p <;> decide)

end Sys2Proof.Machine
end

