-- ==== Sys2Proof/Tests/Slice0.lean ====
section
/-! SUPPORT. Tests. Expected values stand in spec/95_test_vectors.md (the vector is named at each) or are counted from
the rule a test names. The witnesses show, for each statement with hypotheses, states that meet them. -/

open Sys2Proof Sys2Proof.Machine

namespace Sys2Proof.Tests

/-! ## Helpers -/

/-- The state after reset with changed registers and bytes written at an address. -/
def st (f : Regs → Regs) (a : Nat) (v : List Byte) : State :=
  ({ State.reset with regs := f Regs.reset } : State).memWrite a v

/-- Input `v` at 0x1000, output to `d`. -/
def io (v : List Byte) (d : Word) : State :=
  st (fun r => { r with srcAddr := 0x1000#32, srcLen := toWord v.length, dstAddr := d }) 0x1000 v

/-- The next state of an operation. -/
def after (i : Instr) (s : State) : State :=
  match exec i s with
  | .next t => t
  | .fault _ => s
  | .refused _ => s

/-- `STATUS` after an operation. -/
def statusAfter (i : Instr) (s : State) : Word := (after i s).status.word

/-- `v`, `v + 1`, ... -/
def run (v n : Nat) : List Byte := (List.range n).map fun i => BitVec.ofNat 8 (v + i)

/-! ## Words -/

/-- R84, check 1: a reserved operation code is refused, the first and the last of each gap. -/
theorem test_wellFormed_op :
    ([0x06#32, 0x07#32, 0x0A#32, 0x0F#32, 0x16#32, 0x17#32, 0x1B#32, 0x1F#32, 0x21#32, 0x3E#32].map
      CmdWord.wellFormed) = List.replicate 10 false := by decide

/-- R84, check 2 (CT-5, CT-6): a reserved bit that is 1 is refused. -/
theorem test_wellFormed_reserved :
    ([0x40#32, 0x80#32, 0x400#32, 0x80000000#32, 0x80000301#32].map CmdWord.wellFormed) = List.replicate 5 false := by
  decide

/-- R84, check 3 (CT-4, CT-7, CT-10): a flag on another operation than `FRAME_ENCODE` is refused. -/
theorem test_wellFormed_flags :
    ([0x102#32, 0x202#32, 0x13F#32, 0x118#32, 0x100#32].map CmdWord.wellFormed) = List.replicate 5 false := by decide

theorem test_wellFormed_accepts : ([0x0#32, 0x301#32, 0x3F#32].map CmdWord.wellFormed) = List.replicate 3 true := by
  decide

/-- R80 and R82: one word of each row, its six low bits the row's code, written out in bits. -/
theorem test_decode_every_row :
    decode 0b000000#32 = .op .nop ∧ decode 0b0000000001#32 = .op (.frameEncode false false) ∧
    decode 0b0100000001#32 = .op (.frameEncode true false) ∧ decode 0b1000000001#32 = .op (.frameEncode false true) ∧
    decode 0b1100000001#32 = .op (.frameEncode true true) ∧ decode 0b000010#32 = .op .frameDecode ∧
    decode 0b000011#32 = .op .chunkOut ∧ decode 0b000100#32 = .op .chunkIn ∧ decode 0b000101#32 = .op .rxAbort ∧
    decode 0b001000#32 = .op .mcuWrap ∧ decode 0b001001#32 = .op .mcuUnwrap ∧ decode 0b010000#32 = .op .sha256 ∧
    decode 0b010001#32 = .op .hmacSha256 ∧ decode 0b010010#32 = .op .prfDerive ∧
    decode 0b010011#32 = .op .aes128CbcDec ∧ decode 0b010100#32 = .op .geaXor ∧
    decode 0b010101#32 = .op .crc32Mpeg2 ∧ decode 0b011000#32 = .op .gtlsHello ∧
    decode 0b011001#32 = .op .gtlsIdentify ∧ decode 0b011010#32 = .op .gtlsDone ∧
    decode 0b100000#32 = .op .sensorDecrypt ∧ decode 0b111111#32 = .op .srst := by decide

/-- R84: which of the three conditions an illegal word meets. -/
theorem test_decode_refuses :
    decode 0x06#32 = .illegal .reservedOp ∧ decode 0x40#32 = .illegal .reservedBits ∧
    decode 0x400#32 = .illegal .reservedBits ∧ decode 0x102#32 = .illegal .flagNotAllowed ∧
    decode 0x13F#32 = .illegal .flagNotAllowed := by decide

theorem test_decodeTableWord :
    decodeTableWord 32 0x301 = some (.frameEncode true true) ∧ decodeTableWord 32 0x06 = none := by decide

/-- R100 on the first step after reset: a legal word, and an illegal one (CT-3). -/
theorem test_step_first :
    (∃ t, step (State.reset.withFetchWord 32 0x05) = .next t ∧ t.status.word = 0x2#32 ∧ t.pend = none) ∧
    ∃ t, step (State.reset.withFetchWord 32 0x06) = .next t ∧ t.status.word = 0x1006#32 ∧ t.pend = none :=
  ⟨⟨_, rfl, by decide⟩, ⟨_, rfl, by decide⟩⟩

/-! ## Operations -/

/-- CT-2. -/
theorem test_nop : statusAfter .nop (State.reset.setRxActive true) = 0xA#32 := by decide

/-- CT-8: the registers, and the kept buffer. -/
theorem test_srst :
    let s := (st (fun r => { r with gtlsState := .established, hmacServerCtr := 0x2ed1#32 }) 5 [0x77#8]).setRxActive true
    (after .srst s).status.word = 0#32 ∧ (after .srst s).readReg .gtlsState = 0#32 ∧
      (after .srst s).readReg .hmacServerCtr = 0#32 ∧ (after .srst s).readByte 5 = 0x77#8 := by decide

/-- FE-6 and FE-3. -/
theorem test_frameEncode :
    let s := io [1#8, 2#8, 3#8] 0x2000#32
    let t := after (.frameEncode true false) { s with regs := { s.regs with msgId := 0x10D#32 } }
    let u := after (.frameEncode true true) (st (fun r => { r with msgId := 0x0A#32, dstAddr := 0x2000#32 }) 0 [])
    t.memRead 0x2000 7 = [0xd2#8, 0x04#8, 0x00#8, 0x01#8, 0x02#8, 0x03#8, 0xce#8] ∧ t.regs.dstLen = 7#32 ∧
      u.memRead 0x2000 64 = [0xa0#8, 0x01#8, 0x00#8, 0x09#8] ++ bytes 60 0x00#8 := by decide

/-- FE-12 to FE-16: every check. -/
theorem test_frameEncode_checks :
    ([(0x10#32, 0#32, 0#32), (0x800#32, 0#32, 0#32), (0x1000A#32, 0#32, 0#32), (0x0A#32, 65535#32, 0#32),
        (0x0A#32, 0#32, 0x1FFFD#32)].map fun x =>
      statusAfter (.frameEncode true false)
        (st (fun r => { r with msgId := x.1, srcLen := x.2.1, dstAddr := x.2.2 }) 0 [])) =
      List.replicate 5 0x1106#32 := by decide

/-- FD-1. -/
theorem test_frameDecode :
    let t := after .frameDecode (io [0xd2#8, 0x04#8, 0x00#8, 0x01#8, 0x02#8, 0x03#8, 0xce#8] 0x2000#32)
    t.memRead 0x2000 3 = [1#8, 2#8, 3#8] ∧ t.regs.dstLen = 3#32 ∧ t.regs.msgId = 0x10D#32 ∧
      t.regs.csumInfo = 0xcece#32 ∧ t.status.word = 2#32 := by decide

/-- FD-2 and FD-3. -/
theorem test_frameDecode_checksum :
    let t := after .frameDecode (io [0xd2#8, 0x04#8, 0x00#8, 0x01#8, 0x02#8, 0x03#8, 0xcf#8] 0x2000#32)
    let u := after .frameDecode (io [0xd2#8, 0x04#8, 0x00#8, 0x01#8, 0x02#8, 0x03#8, 0x88#8] 0x2000#32)
    t.status.word = 0x106#32 ∧ t.regs.csumInfo = 0xcecf#32 ∧ t.regs.msgId = 0#32 ∧ u.status.word = 2#32 ∧
      u.regs.csumInfo = 0x1ce88#32 := by decide

/-- The 65-byte frame of CO-10: command byte, length 62, payload 00..3c, checksum. -/
def frame65 : List Byte := [0x94#8, 0x3e#8, 0x00#8] ++ run 0 61 ++ [0xb2#8]

/-- CO-10. -/
theorem test_chunkOut :
    let t := after .chunkOut (io frame65 0x2000#32)
    t.regs.chunkCnt = 2#32 ∧ t.regs.dstLen = 66#32 ∧ t.memRead 0x2000 64 = frame65.take 64 ∧
      t.memRead 0x2040 2 = [0x95#8, 0xb2#8] := by decide

/-- The state after the first chunk of CI-2. -/
def midReassembly : State := after .chunkIn (io (frame65.take 64) 0x2000#32)

/-- CI-2. -/
theorem test_chunkIn_first :
    midReassembly.status.word = 0xA#32 ∧ midReassembly.regs.dstLen = 64#32 ∧ midReassembly.regs.rxCmd = 0x94#32 ∧
      midReassembly.regs.rxDeclLen = 62#32 ∧ midReassembly.regs.rxAcc = 61#32 ∧
      midReassembly.regs.rxBase = 0x2000#32 ∧ midReassembly.regs.rxWritten = 64#32 := by decide

/-- CI-3 and CI-4. -/
theorem test_chunkIn_continuation :
    let t := after .chunkIn (midReassembly.memWrite 0x1000 ([0x95#8, 0xb2#8] ++ bytes 62 0xEE#8))
    let u := after .chunkIn (midReassembly.memWrite 0x1000 ([0x94#8, 0xb2#8] ++ bytes 62 0xEE#8))
    t.readByte 0x2040 = 0xb2#8 ∧ t.regs.dstLen = 65#32 ∧ t.regs.rxAcc = 124#32 ∧ t.regs.rxWritten = 65#32 ∧
      t.status.word = 2#32 ∧ u.status.word = 0x206#32 := by decide

/-- R140. -/
theorem test_rxAbort :
    (after .rxAbort midReassembly).status.word = 2#32 ∧ (after .rxAbort midReassembly).regs.rxAcc = 61#32 := by decide

/-- MC-1. -/
def mcuDone : List Byte := [0x04#8, 0xff#8, 0x00#8, 0x00#8, 0x09#8, 0x00#8, 0x00#8, 0x00#8, 0x00#8]

/-- `io` with a value of `AUX`. -/
def ioAux (x : Word) (v : List Byte) (d : Word) : State :=
  { io v d with regs := { (io v d).regs with aux := x } }

/-- MC-1. -/
theorem test_mcuWrap :
    let t := after .mcuWrap (ioAux 0xFF04#32 [0x00#8] 0x2000#32)
    t.memRead 0x2000 9 = mcuDone ∧ t.regs.dstLen = 9#32 := by decide

/-- MC-3, MC-4 and MC-6. -/
theorem test_mcuUnwrap :
    let t := after .mcuUnwrap (ioAux 0xFF04#32 mcuDone 0x2000#32)
    t.readByte 0x2000 = 0#8 ∧ t.regs.dstLen = 1#32 ∧
      statusAfter .mcuUnwrap (ioAux 0xFF02#32 mcuDone 0x2000#32) = 0x306#32 ∧
      statusAfter .mcuUnwrap (ioAux 0xFF04#32 (mcuDone.take 7) 0x2000#32) = 0x306#32 := by decide

/-- SH-2. -/
theorem test_sha256 : sha256 [0x61#8, 0x62#8, 0x63#8] =
    [0xba#8, 0x78#8, 0x16#8, 0xbf#8, 0x8f#8, 0x01#8, 0xcf#8, 0xea#8, 0x41#8, 0x41#8, 0x40#8, 0xde#8, 0x5d#8, 0xae#8,
      0x22#8, 0x23#8, 0xb0#8, 0x03#8, 0x61#8, 0xa3#8, 0x96#8, 0x17#8, 0x7a#8, 0x9c#8, 0xb4#8, 0x10#8, 0xff#8, 0x61#8,
      0xf2#8, 0x00#8, 0x15#8, 0xad#8] := by decide +kernel

/-- SH-4: two blocks. -/
theorem test_sha256_two_blocks : (sha256 (bytes 56 0x00#8)).take 8 =
    [0xd4#8, 0x81#8, 0x7a#8, 0xa5#8, 0x49#8, 0x76#8, 0x28#8, 0xe7#8] := by decide +kernel

/-- HM-3, the first bytes. -/
theorem test_hmacSha256 : (hmac (bytes 20 0x0b#8) [0x48#8, 0x69#8, 0x20#8, 0x54#8, 0x68#8, 0x65#8, 0x72#8, 0x65#8]).take 8 =
    [0xb0#8, 0x34#8, 0x4c#8, 0x61#8, 0xd8#8, 0xdb#8, 0x38#8, 0x53#8] := by decide +kernel

/-- PR-2. -/
theorem test_prfDerive : prf (bytes 32 0x00#8) (bytes 64 0x00#8) 1 = [0x49#8] := by decide +kernel

/-- AE-1. -/
theorem test_aes128CbcDec : cbcDec (run 0 16) (bytes 16 0x00#8)
    [0x69#8, 0xc4#8, 0xe0#8, 0xd8#8, 0x6a#8, 0x7b#8, 0x04#8, 0x30#8, 0xd8#8, 0xcd#8, 0xb7#8, 0x80#8, 0x70#8, 0xb4#8,
      0xc5#8, 0x5a#8] =
    [0x00#8, 0x11#8, 0x22#8, 0x33#8, 0x44#8, 0x55#8, 0x66#8, 0x77#8, 0x88#8, 0x99#8, 0xaa#8, 0xbb#8, 0xcc#8, 0xdd#8,
      0xee#8, 0xff#8] := by decide +kernel

/-- AE-2: the second block is chained. -/
theorem test_aes128CbcDec_chain : cbcDec (run 0 16) (run 0 16)
    [0xc6#8, 0xa1#8, 0x3b#8, 0x37#8, 0x87#8, 0x8f#8, 0x5b#8, 0x82#8, 0x6f#8, 0x4f#8, 0x81#8, 0x62#8, 0xa1#8, 0xc8#8,
      0xd8#8, 0x79#8, 0x35#8, 0xd9#8, 0xdc#8, 0xdb#8, 0x82#8, 0x9f#8, 0xec#8, 0x33#8, 0x52#8, 0xe7#8, 0xbf#8, 0x10#8,
      0xb8#8, 0x4b#8, 0xe4#8, 0xa5#8] = run 0 32 := by decide +kernel

/-- The test-only keystream step `T` of 95_test_vectors.md. -/
def stepT (s : Word) : Word × BitVec 16 := (s + 1#32, s.setWidth 16)

/-- GE-2 and GE-3. -/
theorem test_gea :
    gea stepT 0x2c4ed4c3#32 (run 0 6) = [0xc3#8, 0xd5#8, 0xc6#8, 0xd7#8, 0xc1#8, 0xd1#8] ∧
      gea stepT 0xFFFFFFFF#32 (bytes 4 0x00#8) = [0xff#8, 0xff#8, 0x00#8, 0x00#8] := by decide

/-- GE-6: an odd length. -/
theorem test_geaXor : statusAfter .geaXor (io [0#8, 1#8, 2#8] 0x2000#32) = 0x1106#32 := by decide

/-- CR-1 and CR-2. -/
theorem test_crc32Mpeg2 : crc32Mpeg2 [] = 0xFFFFFFFF#32 ∧
    crc32Mpeg2 [0x31#8, 0x32#8, 0x33#8, 0x34#8, 0x35#8, 0x36#8, 0x37#8, 0x38#8, 0x39#8] = 0x0376E6E7#32 := by
  decide +kernel

/-- CR-4, as an operation: `RESULT` is written, `DST_LEN` is not. -/
theorem test_crc32Mpeg2_result :
    (after .crc32Mpeg2 (io [0xff#8] 0x2000#32)).regs.result = 0xFFFFFF00#32 ∧
      (after .crc32Mpeg2 (io [0xff#8] 0x2000#32)).regs.dstLen = 0#32 := by decide +kernel

/-- The session of family G: the PSK is zeros, the client random 00..1f. -/
def session (g : GtlsState) (v : List Byte) (d : Word) : State :=
  let s := io v d
  { s with regs := { s.regs with
      gtlsState := g, psk := Vector.replicate 8 0#32, clientRandom := bytesArray 8 (run 0 32) } }

/-- GT-1 and GT-11. -/
theorem test_gtlsHello :
    let t := after .gtlsHello (session .clientHello [] 0x4000#32)
    let u := after .gtlsHello (session .clientHello [] 0x1FFE0#32)
    t.memRead 0x4000 40 = [0x01#8, 0xff#8, 0x00#8, 0x00#8, 0x28#8, 0x00#8, 0x00#8, 0x00#8] ++ run 0 32 ∧
      t.regs.dstLen = 40#32 ∧ t.readReg .gtlsState = 1#32 ∧ u.status.word = 0x1106#32 ∧ u.readReg .gtlsState = 4#32 := by
  decide

/-- `cid` of family G. -/
def cidG : List Byte :=
  [0x66#8, 0x4a#8, 0x4b#8, 0x81#8, 0x20#8, 0x89#8, 0xa4#8, 0x2f#8, 0x09#8, 0xf5#8, 0xac#8, 0x9c#8, 0xee#8, 0xc8#8,
    0x6a#8, 0x12#8, 0xb5#8, 0x5c#8, 0xe0#8, 0x5d#8, 0x63#8, 0x86#8, 0x5b#8, 0x8c#8, 0xd2#8, 0x48#8, 0x1b#8, 0xde#8,
    0x4d#8, 0x24#8, 0x54#8, 0x33#8]

/-- The input of GT-2. -/
def identifyG : List Byte :=
  [0x02#8, 0xff#8, 0x00#8, 0x00#8, 0x48#8, 0x00#8, 0x00#8, 0x00#8] ++ run 0x20 32 ++ cidG

/-- `km` of family G. -/
def kmG : List Byte :=
  [0xc3#8, 0xd4#8, 0x4e#8, 0x2c#8, 0x9a#8, 0xe3#8, 0x33#8, 0x95#8, 0x5f#8, 0x6f#8, 0x04#8, 0xc1#8, 0xc4#8, 0xe9#8, 0x75#8, 0xd7#8, 0x8d#8]
    ++ [0xe1#8, 0x1f#8, 0xcb#8, 0x6a#8, 0x88#8, 0x82#8, 0xf2#8, 0x6e#8, 0xda#8, 0xf8#8, 0x45#8, 0x90#8, 0x02#8, 0x4a#8, 0x85#8, 0xf9#8, 0x53#8]
    ++ [0xaf#8, 0x3c#8, 0x98#8, 0xdf#8, 0x4c#8, 0x13#8, 0x5e#8, 0x92#8, 0x7f#8, 0xb2#8, 0x35#8, 0x4f#8, 0x6f#8, 0x9c#8, 0xd6#8, 0x12#8, 0xbd#8]
    ++ [0xfd#8, 0x3a#8, 0x04#8, 0x60#8, 0x2c#8, 0x10#8, 0x5d#8, 0xfc#8, 0x8f#8, 0xc1#8, 0x34#8, 0xda#8, 0x66#8, 0x65#8, 0x75#8, 0xd0#8, 0x2e#8]

/-- GT-2: the session registers from its `km`, and the reply. -/
theorem test_gtlsIdentify :
    let r := Regs.reset.withSession (run 0x20 32) cidG cidG kmG
    r.ctrSeed = 0x2ed07565#32 ∧ r.symKey[0] = 0x2c4ed4c3#32 ∧ r.symIv[3] = 0x854a0290#32 ∧
      r.hmacKey[7] = 0x66da34c1#32 ∧ r.clientIdentity[0] = 0x814b4a66#32 ∧ r.serverRandom[0] = 0x23222120#32 ∧
      (identifyReply cidG).take 9 = [0x03#8, 0xff#8, 0x00#8, 0x00#8, 0x2c#8, 0x00#8, 0x00#8, 0x00#8, 0x66#8] := by decide

/-- GT-7 and GT-8. -/
theorem test_gtlsIdentify_checks :
    statusAfter .gtlsIdentify (session .clientHello identifyG 0x4200#32) = 0x1206#32 ∧
      statusAfter .gtlsIdentify (session .serverIdentify (0x03#8 :: identifyG.tail) 0x4200#32) = 0x306#32 := by decide

/-- GT-3. -/
theorem test_gtlsDone :
    let s := session .serverDone mcuDone 0x2000#32
    let t := after .gtlsDone { s with regs := { s.regs with ctrSeed := 0x2ed07565#32 } }
    t.regs.hmacClientCtr = 0x7565#32 ∧ t.regs.hmacServerCtr = 0x2ed0#32 ∧ t.readReg .gtlsState = 3#32 ∧
      t.status.word = 2#32 := by decide

/-- GT-6. -/
theorem test_gtlsDone_rejected :
    statusAfter .gtlsDone (session .serverDone (mcuDone.take 8 ++ [0x01#8]) 0x2000#32) = 0x506#32 := by decide

/-- SD-10, SD-2, SD-3 (the checks before the first that looks at `MID_PASS_LEN`) and SD-9. -/
theorem test_sensorDecrypt_checks :
    let m : List Byte := [0x01#8, 0xaa#8, 0x00#8, 0x00#8, 0x08#8, 0x00#8, 0x00#8, 0x00#8]
    statusAfter .sensorDecrypt (session .established (m.take 7) 0x2000#32) = 0x1306#32 ∧
      statusAfter .sensorDecrypt (session .established (0x02#8 :: m.tail) 0x2000#32) = 0x806#32 ∧
      statusAfter .sensorDecrypt (session .established (m ++ [0x00#8]) 0x2000#32) = 0x906#32 ∧
      statusAfter .sensorDecrypt (session .serverDone m 0x2000#32) = 0x1206#32 := by decide

/-! ## The host -/

/-- The start of program P1's last steps: a write of `CMD`, which is accepted, and the engine's step. -/
theorem test_host_run :
    let s0 := State.reset.withProgram [.wr .dstAddr 0x4000#32, .run .gtlsHello false false, .rd .dstLen, .halt]
    ∃ s1 s2 s3 s4 s5, step s0 = .next s1 ∧ step s1 = .next s2 ∧ s2.status.word = 1#32 ∧ s2.pend = some 0x18#32 ∧
      step s2 = .next s3 ∧ s3.status.word = 2#32 ∧ step s3 = .next s4 ∧ step s4 = .next s5 ∧
      s5.host.reads = [40#32] :=
  ⟨_, _, _, _, _, rfl, rfl, by decide, by decide, rfl, by decide, rfl, rfl, by decide⟩

/-- R87: `WRA` with `4k` bytes is `k` writes, each word `le32` of its bytes. -/
theorem test_wra :
    expand (.wraPsk [0x01#8, 0x02#8, 0x03#8, 0x04#8, 0x05#8, 0x06#8, 0x07#8, 0x08#8]) =
        [.wr 32 0x060 0x04030201#32, .wr 32 0x064 0x08070605#32] ∧
      (expand (.wraClientRandom (bytes 32 0xff#8))).length = 8 ∧
      (expand (.wraClientRandom (bytes 32 0xff#8))).getLast? = some (.wr 32 0x09C 0xffffffff#32) := by decide

/-- R86 and R88: `OP FRAME_ENCODE.C.P`, and `OP FRAME_DECODE.C`, whose word is illegal. -/
theorem test_op_flags :
    expand (.op (.frameEncode false false) true true) = [.wr 32 0x000 0x00000301#32] ∧
      expand (.op .frameDecode true false) = [.wr 32 0x000 0x00000102#32] ∧
      expand (.run .sensorDecrypt false false) = [.wr 32 0x000 0x00000020#32, .wait] := by decide

/-- R6, I22: a larger `BUF_SIZE` puts address 0x20000 in range, for the host and for an operation. -/
theorem test_bufSize :
    let s : State := { State.reset with
      params := { Params.spec with bufSize := 0x40000 }, regs := { Regs.reset with dstAddr := 0x20000#32 } }
    violation s (.bufRead 0x20000) = none ∧ violation s (.bufRead 0x40000) = some .bufferAddress ∧
      statusAfter .gtlsHello s = 0x2#32 ∧ statusAfter .gtlsHello { s with params := Params.spec } = 0x1106#32 := by decide

/-- R6: another `SENTINEL` and `CSUM_BASE` (the checksum of FE-6 is 0xce for the base 0xAA, so one more for 0xAB). -/
theorem test_params_frame :
    let q : Params := { Params.spec with sentinel := 0x77#8, csumBase := 0xAB }
    frame q true 0x0D#8 0x01#8 [1#8, 2#8, 3#8] = [0xd2#8, 0x04#8, 0x00#8, 0x01#8, 0x02#8, 0x03#8, 0xcf#8] ∧
      frame q false 0x0D#8 0x01#8 [] = [0xd2#8, 0x01#8, 0x00#8, 0x77#8] ∧
      statusAfter .frameDecode { io [0xd2#8, 0x01#8, 0x00#8, 0x77#8] 0x2000#32 with params := q } = 2#32 ∧
      statusAfter .frameDecode { io [0xd2#8, 0x01#8, 0x00#8, 0x88#8] 0x2000#32 with params := q } = 0x106#32 := by decide

/-- R6: chunks of 8 bytes, 7 of payload in a continuation; a frame of 16 bytes (R130). -/
theorem test_params_chunk :
    let q : Params := { Params.spec with chunk := 8, contPayload := 7 }
    chunked q (run 0x10 16) = run 0x10 8 ++ 0x11#8 :: run 0x18 7 ++ [0x11#8, 0x1f#8] ∧
      (padToChunk q.chunk (run 0 9)).length = 16 ∧ (minBody { q with sensorBlocks := 3, sensorAesBlk := 32 } 9) = 0x3C7 := by
  decide

/-- R343, each violation under its name; R340. -/
theorem test_host_violations :
    violation State.reset (.regRead 16 0x008) = some .registerWidth ∧
      violation State.reset (.regRead 32 0x00A) = some .registerAlignment ∧
      violation State.reset (.regRead 32 0x140) = some .unassignedRegister ∧
      violation State.reset (.regWrite 32 0x014 0#32) = some .readOnlyRegister ∧
      violation State.reset (.bufRead 0x20000) = some .bufferAddress ∧
      violation (State.reset.accept 0#32) (.bufRead 0) = some .busyHazard ∧
      violation (State.reset.accept 0#32) (.regRead 32 0x004) = none := by decide

/-! ## Witnesses: the machine -/

/-- IllegalWordRaisesBadOpcode: one word for each of R84's conditions. -/
theorem witness_IllegalWordRaisesBadOpcode :
    (∀ w, nextTurn (State.reset.withPending w) = .engine ∧ (State.reset.withPending w).pend = some w) ∧
      CmdWord.wellFormed 0x06#32 = false ∧ CmdWord.wellFormed 0x40#32 = false ∧
      CmdWord.wellFormed 0x400#32 = false ∧ CmdWord.wellFormed 0x102#32 = false :=
  ⟨fun _ => ⟨rfl, rfl⟩, by decide⟩

/-- StepPerformsDecodedOperation, both clauses; CommandAcceptance, its second clause. -/
theorem witness_StepPerformsDecodedOperation :
    (let s := State.reset.withPending 0x3F#32
     nextTurn s = .engine ∧ s.pend = some 0x3F#32 ∧ decode 0x3F#32 = .op .srst ∧ (∃ t, exec .srst s = .next t) ∧
       ∃ t, step s = .next t) ∧
      nextTurn { State.reset with schedule := [.engine] } = .engine ∧
      ({ State.reset with schedule := [.engine] } : State).pend = none :=
  ⟨⟨rfl, rfl, by decide, ⟨_, rfl⟩, ⟨_, rfl⟩⟩, rfl, rfl⟩

/-- DecodeAndEncodeAgree and DecodeRefusesExactlyIllegalWords: a word that decodes to an operation, with both flags. -/
theorem witness_DecodeAndEncodeAgree : decode 0x301#32 = .op (.frameEncode true true) := by decide

/-- OnlyWordOf: another word with the same `OP`. -/
theorem witness_OnlyWordOf : opField 0x40#32 = opField 0x00#32 ∧ (0x40#32 : Word) ≠ 0x00#32 := by decide

/-- CommandAcceptance, BusyAllowsOnlyStatusReads, HostRegisterAccess and HostBufferAccess: an idle and a busy state, the
first and the last `RW` register, the first and the last buffer byte. -/
theorem witness_host_port :
    State.reset.status.busy = false ∧ (State.reset.accept 0x05#32).status.busy = true ∧
      Access.regWrite 32 0x004 0#32 ≠ .regRead 32 0x004 ∧ RegName.srcAddr.cls = .rw ∧ (RegName.clientRandom 7).cls = .rw ∧
      0 < State.reset.params.bufSize ∧ 0x1FFFF < State.reset.params.bufSize := by decide

/-- HostViolationsExactly at the ends of its ranges: the last register and the first offset behind it, the last buffer
byte and the first address behind it, the ends of the read-only ranges. -/
theorem witness_HostViolationsExactly :
    violation State.reset (.regRead 32 0x13C) = none ∧ violation State.reset (.regRead 32 0x140) ≠ none ∧
      violation State.reset (.bufRead 0x1FFFF) = none ∧ violation State.reset (.bufRead 0x20000) ≠ none ∧
      violation State.reset (.regWrite 32 0x02C 0#32) = none ∧ violation State.reset (.regWrite 32 0x030 0#32) ≠ none ∧
      violation State.reset (.regWrite 32 0x05C 0#32) ≠ none ∧ violation State.reset (.regWrite 32 0x060 0#32) = none ∧
      violation State.reset (.regWrite 32 0x09C 0#32) = none ∧ violation State.reset (.regWrite 32 0x0A0 0#32) ≠ none := by
  decide

/-- ResetInput. -/
theorem witness_ResetInput : nextTurn { State.reset with schedule := [.reset] } = .reset := rfl

/-- An active reassembly that is about to get a chunk: the state of CI-2, and the word of `CHUNK_IN` pending. -/
def pendingChunk : State := midReassembly.withPending 0x04#32

/-- Its buffer is in the canonical form: two writes. -/
theorem midReassembly_wf : midReassembly.buf.wf ∧ midReassembly.buf.within midReassembly.params.bufSize :=
  ⟨Memory.write_wf (Memory.write_wf Memory.nil_wf _ _) _ _,
    Memory.write_within (Memory.write_within (Memory.nil_within _) (by decide)) (by decide)⟩

theorem midReassembly_param : midReassembly.ParamInv := by unfold State.ParamInv; decide

theorem midReassembly_rx : midReassembly.RxInv ∧ midReassembly.ReservedInv :=
  ⟨fun _ => ⟨⟨0, by decide⟩, by decide, by decide, by decide⟩, by unfold State.ReservedInv; decide⟩

/-- StepKeepsInvariant, ErrorStateLastsUntilNextCommand, ReassemblyStateWriters, SessionCounterWriters: a step from a
state with an active reassembly that meets the invariant. -/
theorem witness_StepKeepsInvariant : pendingChunk.Inv ∧ ∃ t, step pendingChunk = .next t :=
  ⟨⟨⟨by decide, by decide, by decide, by decide⟩, midReassembly_rx.2, midReassembly_rx.1,
    ⟨by decide, by decide⟩, midReassembly_param, midReassembly_wf⟩, ⟨_, rfl⟩⟩

/-- FailureWritesNothing, ErrorCodesByOperation: a failing continuation chunk (CI-4). -/
theorem witness_FailureWritesNothing :
    ∃ t, exec .chunkIn (midReassembly.memWrite 0x1000 [0x94#8]) = .next t ∧ t.status.err = true :=
  ⟨_, rfl, by decide⟩

/-- OperationsKeepUnlistedRegisters. -/
theorem witness_OperationsKeepUnlistedRegisters :
    (∃ t, exec .crc32Mpeg2 (io [0xff#8] 0#32) = .next t) ∧ RegName.dstLen ≠ .status ∧
      mayWrite .crc32Mpeg2 .dstLen = false := ⟨⟨_, rfl⟩, by decide, by decide⟩

/-- HandshakeStateMoves: a step that moves the state, and a handshake step that succeeds, one that raises `BAD_STATE` and
one that fails otherwise. -/
theorem witness_HandshakeStateMoves :
    (∃ t, step ((session .clientHello [] 0#32).withPending 0x18#32) = .next t ∧
        t.regs.gtlsState ≠ (session .clientHello [] 0#32).regs.gtlsState) ∧
      (∃ t, exec .gtlsHello (session .clientHello [] 0#32) = .next t ∧ t.status.err = false) ∧
      (∃ t, exec .gtlsDone (session .failed [] 0#32) = .next t ∧ t.status.errcode = .badState) ∧
      ∃ t, exec .gtlsDone (session .serverDone [] 0#32) = .next t ∧ t.status.err = true ∧
        t.status.errcode ≠ .badState :=
  ⟨⟨_, rfl, by decide⟩, ⟨_, rfl, by decide⟩, ⟨_, rfl, by decide⟩, ⟨_, rfl, by decide, by decide⟩⟩

/-- HandshakeStateMoves, its second clause: a step that performs `SRST`, and one of the reset input. -/
theorem witness_HandshakeStateMoves_reset :
    (Performs ((session .failed [] 0#32).withPending 0x3F#32) .srst ∧
      ∃ t, step ((session .failed [] 0#32).withPending 0x3F#32) = .next t) ∧
    nextTurn { session .failed [] 0#32 with schedule := [.reset] } = .reset ∧
      ∃ t, step { session .failed [] 0#32 with schedule := [.reset] } = .next t :=
  ⟨⟨⟨rfl, _, rfl, by decide⟩, _, rfl⟩, rfl, _, rfl⟩

/-- SessionCounterWriters: a step that changes both counters. -/
theorem witness_SessionCounterWriters :
    let s := session .serverDone mcuDone 0#32
    let s' := ({ s with regs := { s.regs with ctrSeed := 0x2ed07565#32 } } : State).withPending 0x1A#32
    ∃ t, step s' = .next t ∧ t.regs.hmacClientCtr ≠ s'.regs.hmacClientCtr ∧
      t.regs.hmacServerCtr ≠ s'.regs.hmacServerCtr := ⟨_, rfl, by decide, by decide⟩

/-! ## Witnesses: framing -/

/-- FrameLayout: the largest category, command and payload. -/
theorem witness_FrameLayout :
    (0x0F#8).toNat ≤ 0xF ∧ (0x07#8).toNat ≤ 0x7 ∧ (bytes 65534 0x00#8).length ≤ 65534 ∧
      0 < Params.spec.chunk :=
  ⟨by decide, by decide, by rw [bytes_length], by decide⟩

/-- A state for `FRAME_ENCODE`: an empty payload but for its length. -/
def forEncode (id len src dst : Word) : State :=
  st (fun r => { r with msgId := id, srcLen := len, srcAddr := src, dstAddr := dst }) 0 []

/-- FrameEncodeResult: an accepted state (the frame ends at the end of the buffer), and one for each check at the first
value it refuses. -/
theorem witness_FrameEncodeResult :
    (let s := forEncode 0x70F#32 0#32 0x20000#32 0x1FFFC#32
     s.regs.msgId.toNat < 0x10000 ∧ s.regs.msgId.toNat % 256 ≤ 0xF ∧ s.regs.msgId.toNat / 256 % 256 ≤ 0x7 ∧
       s.regs.srcLen.toNat ≤ s.params.maxPayload ∧ InBuf s s.regs.srcAddr s.regs.srcLen.toNat ∧
       InBuf s s.regs.dstAddr (encodedFrame Params.spec true false 0x0F#8 0x07#8 s.src).length) ∧
      0x10000 ≤ (forEncode 0x10000#32 0#32 0#32 0#32).regs.msgId.toNat ∧
      0xF < (forEncode 0x10#32 0#32 0#32 0#32).regs.msgId.toNat % 256 ∧
      0x7 < (forEncode 0x800#32 0#32 0#32 0#32).regs.msgId.toNat / 256 % 256 ∧
      State.reset.params.maxPayload < (forEncode 0#32 65535#32 0#32 0#32).regs.srcLen.toNat ∧
      ¬ InBuf (forEncode 0#32 1#32 0x20000#32 0#32) (forEncode 0#32 1#32 0x20000#32 0#32).regs.srcAddr 1 ∧
      ¬ InBuf (forEncode 0x70F#32 0#32 0#32 0x1FFFD#32) (forEncode 0x70F#32 0#32 0#32 0x1FFFD#32).regs.dstAddr
        (encodedFrame Params.spec true false 0x0F#8 0x07#8 []).length := by decide

/-- FrameRoundTrip. -/
theorem witness_FrameRoundTrip :
    (forEncode 0x70F#32 0#32 0#32 0x1FFC0#32).params.bufSize < 2 ^ 32 ∧ (∃ t, exec (.frameEncode true true) (forEncode 0x70F#32 0#32 0#32 0x1FFC0#32) = .next t ∧ t.status.err = false) ∧
      (forEncode 0x70F#32 0#32 0#32 0x1FFC0#32).regs.srcLen.toNat ≤ 65534 ∧
      InBuf State.reset 0x20000#32 (forEncode 0x70F#32 0#32 0#32 0x1FFC0#32).regs.srcLen.toNat :=
  ⟨by decide, ⟨_, rfl, by decide⟩, by decide, by decide⟩

/-- The frame of FD-1. -/
def frameG : List Byte := [0xd2#8, 0x04#8, 0x00#8, 0x01#8, 0x02#8, 0x03#8, 0xce#8]

/-- FrameDecodeResult and DecodeAcceptsChecksumOrSentinel: each clause, the payload at the last place it fits and at the
first it does not. -/
theorem witness_FrameDecodeResult :
    (let s := io frameG 0x1FFFD#32
     InBuf s s.regs.srcAddr s.regs.srcLen.toNat ∧ 3 ≤ s.regs.srcLen.toNat ∧ continuationFlag (byteAt s.src 0) = false ∧
       le16 (slice s.src 1 3) ≠ 0 ∧ 3 + le16 (slice s.src 1 3) = s.regs.srcLen.toNat ∧
       InBuf s s.regs.dstAddr (le16 (slice s.src 1 3) - 1) ∧
       byteAt s.src (2 + le16 (slice s.src 1 3)) = fcsum s.params.csumBase (slice s.src 0 (2 + le16 (slice s.src 1 3))) ∧
       (∃ t, exec .frameDecode s = .next t)) ∧
      ¬ InBuf (io frameG 0x1FFFE#32) (io frameG 0x1FFFE#32).regs.dstAddr (le16 (slice (io frameG 0x1FFFE#32).src 1 3) - 1) ∧
      (let s := io (frameG.dropLast ++ [0xcf#8]) 0x2000#32
       byteAt s.src (2 + le16 (slice s.src 1 3)) ≠ s.params.sentinel ∧
         byteAt s.src (2 + le16 (slice s.src 1 3)) ≠ fcsum s.params.csumBase (slice s.src 0 (2 + le16 (slice s.src 1 3)))) ∧
      (io (frameG.take 2) 0#32).regs.srcLen.toNat < 3 ∧
      (byteAt (io (0xd3#8 :: frameG.tail) 0#32).src 0).toNat % 2 = 1 ∧
      le16 (slice (io [0xa0#8, 0x00#8, 0x00#8, 0x09#8] 0#32).src 1 3) = 0 ∧
      (io frameG.dropLast 0#32).regs.srcLen.toNat < 3 + le16 (slice (io frameG.dropLast 0#32).src 1 3) ∧
      ¬ InBuf (st (fun r => { r with srcAddr := 0x1FFFA#32 }) 0 []) (st (fun r => { r with srcAddr := 0x1FFFA#32 }) 0 []).regs.srcAddr 7 :=
  ⟨⟨by decide, by decide, by decide, by decide, by decide, by decide, by decide, ⟨_, rfl⟩⟩, by decide, by decide,
    by decide, by decide, by decide, by decide, by decide⟩

/-- ChunkOutResult: CO-10 at the last place its 66 bytes fit, and the three ways to fail. -/
theorem witness_ChunkOutResult :
    (let s := io frame65 0x1FFBE#32
     s.params.HasSpecValues ∧ s.regs.srcLen.toNat ≠ 0 ∧ InBuf s s.regs.srcAddr s.regs.srcLen.toNat ∧
       InBuf s s.regs.dstAddr (s.regs.srcLen.toNat + (1 + ceilDiv (s.regs.srcLen.toNat - 64) 63) - 1)) ∧
      ¬ InBuf (io frame65 0x1FFBF#32) (io frame65 0x1FFBF#32).regs.dstAddr (65 + (1 + ceilDiv (65 - 64) 63) - 1) ∧
      (io [] 0#32).regs.srcLen.toNat = 0 ∧ ¬ InBuf (forEncode 0#32 1#32 0x20000#32 0#32) (forEncode 0#32 1#32 0x20000#32 0#32).regs.srcAddr 1 := by decide

/-- ChunkInFirstChunk: CI-2's chunk at the last place it fits, and the three ways to fail. -/
theorem witness_ChunkInFirstChunk :
    (let s := io (frame65.take 64) 0x1FFC0#32
     s.status.rxActive = false ∧ s.regs.srcLen.toNat = s.params.chunk ∧ InBuf s s.regs.srcAddr s.params.chunk ∧
       InBuf s s.regs.dstAddr (min s.params.chunk (le16 (slice s.src 1 3) + 3))) ∧
      (let s := io (frame65.take 64) 0x1FFC1#32
       s.status.rxActive = false ∧ ¬ InBuf s s.regs.dstAddr (min s.params.chunk (le16 (slice s.src 1 3) + 3))) ∧
      (io frame65 0#32).regs.srcLen.toNat ≠ (io frame65 0#32).params.chunk ∧
      ¬ InBuf (forEncode 0#32 64#32 0x1FFC1#32 0#32) (forEncode 0#32 64#32 0x1FFC1#32 0#32).regs.srcAddr 64 := by decide

/-- `midReassembly` with a chunk to come and another base. -/
def nextChunk (b : Byte) (base : Word) : State :=
  let s := midReassembly.memWrite 0x1000 [b]
  { s with regs := { s.regs with rxBase := base } }

/-- ChunkInContinuationChunk: each clause, the byte at the last address and behind it. -/
theorem witness_ChunkInContinuationChunk :
    ((nextChunk 0x95#8 0x1FFBF#32).status.rxActive = true ∧ (nextChunk 0x95#8 0x1FFBF#32).RxInv ∧
      (nextChunk 0x95#8 0x1FFBF#32).ReservedInv ∧ (nextChunk 0x95#8 0x1FFBF#32).ParamInv) ∧
      ((nextChunk 0x95#8 0x1FFC0#32).status.rxActive = true ∧ (nextChunk 0x95#8 0x1FFC0#32).RxInv ∧
        (nextChunk 0x95#8 0x1FFC0#32).ReservedInv ∧ (nextChunk 0x95#8 0x1FFC0#32).ParamInv) ∧
      (let s := nextChunk 0x95#8 0x1FFBF#32
       s.regs.srcLen.toNat = s.params.chunk ∧ InBuf s s.regs.srcAddr s.params.chunk ∧
         (byteAt s.src 0).setWidth 32 = s.regs.rxCmd ||| 0x01#32 ∧
         s.regs.rxBase.toNat + s.regs.rxWritten.toNat
           + min s.params.contPayload (s.regs.rxDeclLen.toNat + 3 - s.regs.rxWritten.toNat) ≤ s.params.bufSize) ∧
      (let s := nextChunk 0x95#8 0x1FFC0#32
       s.regs.srcLen.toNat = s.params.chunk ∧ InBuf s s.regs.srcAddr s.params.chunk ∧
         (byteAt s.src 0).setWidth 32 = s.regs.rxCmd ||| 0x01#32 ∧
         s.params.bufSize < s.regs.rxBase.toNat + s.regs.rxWritten.toNat
           + min s.params.contPayload (s.regs.rxDeclLen.toNat + 3 - s.regs.rxWritten.toNat)) ∧
      (byteAt (nextChunk 0x94#8 0x2000#32).src 0).setWidth 32 ≠ (nextChunk 0x94#8 0x2000#32).regs.rxCmd ||| 0x01#32 ∧
      ({ midReassembly with regs := { midReassembly.regs with srcLen := 63#32 } } : State).regs.srcLen.toNat ≠
        midReassembly.params.chunk :=
  ⟨⟨by decide, fun _ => ⟨⟨0, by decide⟩, by decide, by decide, by decide⟩, by unfold State.ReservedInv; decide, midReassembly_param⟩,
    ⟨by decide, fun _ => ⟨⟨0, by decide⟩, by decide, by decide, by decide⟩, by unfold State.ReservedInv; decide, midReassembly_param⟩,
    by decide, by decide, by decide, by decide⟩

/-- ReassemblyCountAfterChunkIn, on a continuation chunk (CI-3). -/
theorem witness_ReassemblyCountAfterChunkIn :
    let s := { pendingChunk.memWrite 0x1000 [0x95#8] with schedule := [] }
    s.Inv ∧ ∃ t, exec .chunkIn s = .next t ∧ t.status.err = false :=
  ⟨⟨⟨by decide, by decide, by decide, by decide⟩, by unfold State.ReservedInv; decide,
    fun _ => ⟨⟨0, by decide⟩, by decide, by decide, by decide⟩, ⟨by decide, by decide⟩, midReassembly_param,
      Memory.write_wf midReassembly_wf.1 _ _, Memory.write_within midReassembly_wf.2 (by decide)⟩, _, rfl,
    by decide⟩

/-- The chunks of `frame65`, extended to 64 bytes. -/
def chunks65 : List (List Byte) := [frame65.take 64, [0x95#8, 0xb2#8] ++ bytes 62 0xEE#8]

/-- ReassemblyInvertsChunking. -/
theorem witness_ReassemblyInvertsChunking :
    let s := io (bytes 64 0x00#8) 0x1FFBF#32
    s.params.HasSpecValues ∧ frame65.length = le16 (slice frame65 1 3) + 3 ∧ continuationFlag (byteAt frame65 0) = false ∧
      chunks65.length = chunkCount s.params frame65.length ∧ (∀ c ∈ chunks65, c.length = 64) ∧
      (∀ j, j < chunks65.length → slice (chunked s.params frame65) (64 * j) (64 * j + 64) <+: chunks65.getD j []) ∧
      s.status.rxActive = false ∧ s.regs.srcLen = 64#32 ∧ InBuf s s.regs.srcAddr 64 ∧
      InBuf s s.regs.dstAddr (le16 (slice frame65 1 3) + 3) ∧ s.regs.srcAddr.toNat + 64 ≤ s.regs.dstAddr.toNat := by
  decide

/-- McuWrapResult and McuUnwrapInvertsWrap: the last place 9 bytes fit, and the ways to fail. -/
theorem witness_McuWrapResult :
    (let s := ioAux 0xFF04#32 [0x00#8] 0x1FFF7#32
     InBuf s s.regs.srcAddr s.regs.srcLen.toNat ∧ InBuf s s.regs.dstAddr (8 + s.regs.srcLen.toNat) ∧
       (∃ t, exec .mcuWrap s = .next t ∧ t.status.err = false) ∧ s.params.bufSize < 2 ^ 32 ∧ InBuf s 0x1FFFF#32 s.regs.srcLen.toNat) ∧
      ¬ InBuf (ioAux 0#32 [0x00#8] 0x1FFF8#32) (ioAux 0#32 [0x00#8] 0x1FFF8#32).regs.dstAddr (8 + 1) ∧
      ¬ InBuf (forEncode 0#32 1#32 0x20000#32 0#32) (forEncode 0#32 1#32 0x20000#32 0#32).regs.srcAddr 1 :=
  ⟨⟨by decide, by decide, ⟨_, rfl, by decide⟩, by decide⟩, by decide, by decide⟩

/-- McuUnwrapResult: each clause. -/
theorem witness_McuUnwrapResult :
    (let s := ioAux 0xFF04#32 mcuDone 0x1FFFF#32
     InBuf s s.regs.srcAddr s.regs.srcLen.toNat ∧ ¬ s.regs.srcLen.toNat < 8 ∧
       le32 (slice s.src 0 4) = s.regs.aux.toNat ∧ le32 (slice s.src 4 8) = s.regs.srcLen.toNat ∧
       InBuf s s.regs.dstAddr (s.regs.srcLen.toNat - 8)) ∧
      ¬ InBuf (ioAux 0xFF04#32 mcuDone 0x20000#32) (ioAux 0xFF04#32 mcuDone 0x20000#32).regs.dstAddr (9 - 8) ∧
      (ioAux 0xFF04#32 (mcuDone.take 7) 0#32).regs.srcLen.toNat < 8 ∧
      le32 (slice (ioAux 0xFF02#32 mcuDone 0#32).src 0 4) ≠ (ioAux 0xFF02#32 mcuDone 0#32).regs.aux.toNat ∧
      le32 (slice (ioAux 0xFF04#32 (mcuDone ++ [0x00#8]) 0#32).src 4 8) ≠
        (ioAux 0xFF04#32 (mcuDone ++ [0x00#8]) 0#32).regs.srcLen.toNat ∧
      ¬ InBuf (forEncode 0#32 9#32 0x1FFF8#32 0#32) (forEncode 0#32 9#32 0x1FFF8#32 0#32).regs.srcAddr 9 := by decide

/-! ## Witnesses: hash and ciphers -/

/-- Registers for the operations that read a key and an IV. -/
def keyed (keyAddr keyLen ivAddr ivLen src len dst aux : Word) : State :=
  st (fun r => { r with
    keyAddr := keyAddr, keyLen := keyLen, ivAddr := ivAddr, ivLen := ivLen, srcAddr := src, srcLen := len
    dstAddr := dst, aux := aux }) 0 []

/-- Sha256Result, HmacSha256Result and PrfDeriveResult: ranges that end at the end of the buffer, and ones a byte
longer. -/
theorem witness_hash :
    (let s := keyed 0x1FFFF#32 1#32 0#32 0#32 0x1FFFE#32 2#32 0x1FFE0#32 32#32
     InBuf s s.regs.keyAddr s.regs.keyLen.toNat ∧ InBuf s s.regs.srcAddr s.regs.srcLen.toNat ∧ InBuf s s.regs.dstAddr 32 ∧
       InBuf s s.regs.dstAddr s.regs.aux.toNat) ∧
      let s := keyed 0x1FFFF#32 2#32 0#32 0#32 0x1FFFE#32 3#32 0x1FFE1#32 32#32
      ¬ InBuf s s.regs.keyAddr s.regs.keyLen.toNat ∧ ¬ InBuf s s.regs.srcAddr s.regs.srcLen.toNat ∧
        ¬ InBuf s s.regs.dstAddr 32 ∧ ¬ InBuf s s.regs.dstAddr s.regs.aux.toNat := by decide

/-- Sha256Padding: the empty message, and the lengths on both sides of a block more. -/
theorem witness_Sha256Padding :
    ([] : List Byte).length < 2 ^ 61 ∧ (bytes 55 0x00#8).length < 2 ^ 61 ∧ (bytes 56 0x00#8).length < 2 ^ 61 := by decide

/-- Aes128CbcDecResult: its clauses. -/
theorem witness_Aes128CbcDecResult :
    (let s := keyed 0x1FFF0#32 16#32 0x1FFF0#32 16#32 0x1FFF0#32 16#32 0x1FFF0#32 0#32
     s.regs.keyLen = 16#32 ∧ s.regs.ivLen = 16#32 ∧ InBuf s s.regs.keyAddr 16 ∧ InBuf s s.regs.ivAddr 16 ∧
       InBuf s s.regs.srcAddr s.regs.srcLen.toNat ∧ s.regs.srcLen.toNat % 16 = 0 ∧
       InBuf s s.regs.dstAddr s.regs.srcLen.toNat) ∧
      (let s := keyed 0x1FFF1#32 16#32 0x1FFF1#32 16#32 0x1FFF1#32 17#32 0x1FFF1#32 0#32
       s.regs.keyLen = 16#32 ∧ s.regs.ivLen = 16#32 ∧ ¬ InBuf s s.regs.keyAddr 16 ∧ ¬ InBuf s s.regs.ivAddr 16 ∧
         ¬ InBuf s s.regs.srcAddr s.regs.srcLen.toNat ∧ s.regs.srcLen.toNat % 16 ≠ 0 ∧
         ¬ InBuf s s.regs.dstAddr s.regs.srcLen.toNat) ∧
      let s := keyed 0#32 15#32 0#32 0#32 0#32 0#32 0#32 0#32
      s.regs.keyLen ≠ 16#32 ∧ s.regs.ivLen ≠ 16#32 := by decide

/-- CbcDecryptsBlockwise, with its first and its second block. -/
theorem witness_CbcDecryptsBlockwise :
    (run 0 16).length = 16 ∧ (bytes 16 0x00#8).length = 16 ∧ (bytes 32 0x00#8).length % 16 = 0 ∧
      0 < (bytes 32 0x00#8).length / 16 ∧ 1 < (bytes 32 0x00#8).length / 16 := by decide

/-- GeaXorResult, GeaIsInvolution and Crc32Mpeg2Result. -/
theorem witness_GeaXorResult :
    (let s := keyed 0#32 0#32 0#32 0#32 0x1FFFE#32 2#32 0x1FFFE#32 0#32
     InBuf s s.regs.srcAddr s.regs.srcLen.toNat ∧ s.regs.srcLen.toNat % 2 = 0 ∧
       InBuf s s.regs.dstAddr s.regs.srcLen.toNat ∧ s.src.length % 2 = 0) ∧
      let s := keyed 0#32 0#32 0#32 0#32 0x1FFFE#32 3#32 0x1FFFE#32 0#32
      ¬ InBuf s s.regs.srcAddr s.regs.srcLen.toNat ∧ s.regs.srcLen.toNat % 2 ≠ 0 ∧
        ¬ InBuf s s.regs.dstAddr s.regs.srcLen.toNat :=
  ⟨⟨by decide, by decide, by decide, by rw [src_length]; decide⟩, by decide⟩

/-- CrcTrailerOrder: the trailer of SD-1. -/
theorem witness_CrcTrailerOrder : [0xf5#8, 0x68#8, 0xf3#8, 0xff#8].length = 4 ∧
    crcTrailer [0xf5#8, 0x68#8, 0xf3#8, 0xff#8] = 0xF3FFF568 := by decide

/-! ## Witnesses: handshake -/

/-- GtlsHelloResult: the last place 40 bytes fit, and the next. -/
theorem witness_GtlsHelloResult :
    InBuf (session .failed [] 0x1FFD8#32) (session .failed [] 0x1FFD8#32).regs.dstAddr 40 ∧ ¬ InBuf (session .failed [] 0x1FFD9#32) (session .failed [] 0x1FFD9#32).regs.dstAddr 40 := by
  decide

/-- A ServerIdentify payload with the server random 20..3f. -/
def identifyInput (sid : List Byte) : List Byte :=
  [0x02#8, 0xff#8, 0x00#8, 0x00#8, 0x48#8, 0x00#8, 0x00#8, 0x00#8] ++ run 0x20 32 ++ sid

/-- The identity that is right for a PSK and a client random. -/
def goodSid (psk cr : List Byte) : List Byte :=
  hmac (slice (prf psk (cr ++ run 0x20 32) 0x44) 32 64) (cr ++ run 0x20 32)

/-- Other bytes of the same length. -/
def flipped (b : List Byte) : List Byte := b.map (· ^^^ 0x01#8)

theorem flipped_ne {b : List Byte} (h : b ≠ []) : b ≠ flipped b := by
  cases b with
  | nil => exact absurd rfl h
  | cons x r =>
    intro e
    have hx : x = x ^^^ 0x01#8 := (List.cons.inj e).1
    revert hx
    generalize x = y
    revert y
    decide

/-- An identity that is wrong for them. -/
def wrongSid (psk cr : List Byte) : List Byte := flipped (goodSid psk cr)

theorem goodSid_length (psk cr : List Byte) : (goodSid psk cr).length = 32 := hmac_length _ _

theorem wrongSid_length (psk cr : List Byte) : (wrongSid psk cr).length = 32 :=
  (List.length_map _).trans (goodSid_length _ _)

theorem wrongSid_ne (psk cr : List Byte) : goodSid psk cr ≠ wrongSid psk cr :=
  flipped_ne (List.ne_nil_of_length_pos (by rw [goodSid_length]; decide))

theorem identifyInput_fields {sid : List Byte} (h : sid.length = 32) :
    (identifyInput sid).length = 72 ∧ le32 (slice (identifyInput sid) 0 4) = 0xFF02 ∧
      le32 (slice (identifyInput sid) 4 8) = 72 ∧ slice (identifyInput sid) 8 40 = run 0x20 32 ∧
      slice (identifyInput sid) 40 72 = sid := by
  have hr : (run 0x20 32).length = 32 := rfl
  have h0 : slice (identifyInput sid) 0 4 = [0x02#8, 0xff#8, 0x00#8, 0x00#8] := rfl
  have h4 : slice (identifyInput sid) 4 8 = [0x48#8, 0x00#8, 0x00#8, 0x00#8] := rfl
  refine ⟨by simp [identifyInput, hr, h], by rw [h0]; decide, by rw [h4]; decide, ?_, ?_⟩
  · simp [identifyInput, slice, hr]
  · simp [identifyInput, slice, hr, h]

/-- A state with a payload in the buffer reads it as its input. -/
theorem src_of_write {s : State} {v : List Byte} (h : s.regs.srcLen.toNat = v.length) :
    (s.memWrite s.regs.srcAddr.toNat v).src = v := by
  have e : (s.memWrite s.regs.srcAddr.toNat v).srcLen = v.length := h
  unfold State.src
  rw [e]
  exact memRead_memWrite_same _ _ _

/-- `GTLS_IDENTIFY` about to run on a payload with a given identity. -/
def toIdentify (g : GtlsState) (sid : List Byte) (d : Word) : State :=
  (forEncode 0#32 72#32 0x1000#32 d |>.setGtls g).memWrite 0x1000 (identifyInput sid)

theorem toIdentify_src {g : GtlsState} {sid : List Byte} {d : Word} (h : sid.length = 32) :
    (toIdentify g sid d).src = identifyInput sid :=
  src_of_write (s := (forEncode 0#32 72#32 0x1000#32 d).setGtls g) (by rw [(identifyInput_fields h).1]; rfl)

/-- GtlsIdentifyResult and CraftedIdentityIsRefused: the clauses that look at the identity, at the last place 44 bytes
fit. -/
theorem witness_GtlsIdentifyResult :
    let psk := arrayBytes Regs.reset.psk
    let cr := arrayBytes Regs.reset.clientRandom
    (∀ sid ∈ [goodSid psk cr, wrongSid psk cr],
      let s := toIdentify .serverIdentify sid 0x1FFD4#32
      s.regs.gtlsState = .serverIdentify ∧ s.regs.srcLen = 72#32 ∧ InBuf s s.regs.srcAddr 72 ∧ InBuf s s.regs.dstAddr 44 ∧
        le32 (slice s.src 0 4) = 0xFF02 ∧ le32 (slice s.src 4 8) = 72) ∧
      (let s := toIdentify .serverIdentify (goodSid psk cr) 0x1FFD4#32
       hmac (slice (prf (arrayBytes s.regs.psk) (arrayBytes s.regs.clientRandom ++ slice s.src 8 40) s.params.kdfOut) 32 64)
         (arrayBytes s.regs.clientRandom ++ slice s.src 8 40) = slice s.src 40 72) ∧
      let s := toIdentify .serverIdentify (wrongSid psk cr) 0x1FFD4#32
      hmac (slice (prf (arrayBytes s.regs.psk) (arrayBytes s.regs.clientRandom ++ slice s.src 8 40) s.params.kdfOut) 32 64)
         (arrayBytes s.regs.clientRandom ++ slice s.src 8 40) ≠ slice s.src 40 72 := by
  intro psk cr
  have hg : (goodSid psk cr).length = 32 := hmac_length _ _
  have hw : (wrongSid psk cr).length = 32 := wrongSid_length _ _
  refine ⟨?_, ?_, ?_⟩
  · intro sid hs
    have h : sid.length = 32 := by
      rcases List.mem_cons.1 hs with rfl | hs
      · exact hg
      · rw [List.mem_singleton.1 hs]; exact hw
    refine ⟨rfl, rfl, (by decide : InBuf State.reset 0x1000#32 72), (by decide : InBuf State.reset 0x1FFD4#32 44), ?_, ?_⟩ <;> rw [toIdentify_src h]
    · exact (identifyInput_fields h).2.1
    · exact (identifyInput_fields h).2.2.1
  · show hmac _ _ = _
    rw [toIdentify_src hg, (identifyInput_fields hg).2.2.2.1, (identifyInput_fields hg).2.2.2.2]
    rfl
  · show hmac _ _ ≠ _
    rw [toIdentify_src hw, (identifyInput_fields hw).2.2.2.1, (identifyInput_fields hw).2.2.2.2]
    exact wrongSid_ne psk cr

/-- GtlsIdentifyResult: the clauses of its other checks. -/
theorem witness_GtlsIdentifyResult_checks :
    (session .clientHello identifyG 0#32).regs.gtlsState ≠ .serverIdentify ∧
      (let s := (forEncode 0#32 72#32 0x1FFB9#32 0#32).setGtls .serverIdentify
       s.regs.gtlsState = .serverIdentify ∧ ¬ InBuf s s.regs.srcAddr s.regs.srcLen.toNat) ∧
      (session .serverIdentify (identifyG.take 7) 0#32).regs.srcLen.toNat < 8 ∧
      le32 (slice (session .serverIdentify (0x03#8 :: identifyG.tail) 0#32).src 0 4) ≠ 0xFF02 ∧
      le32 (slice (session .serverIdentify identifyG.dropLast 0#32).src 4 8) ≠ 71 ∧
      (session .serverIdentify identifyG.dropLast 0#32).regs.srcLen.toNat - 8 ≠ 64 ∧
      ¬ InBuf (session .serverIdentify identifyG 0x1FFD5#32) (session .serverIdentify identifyG 0x1FFD5#32).regs.dstAddr 44 := by decide

/-- `GTLS_IDENTIFY` succeeds on the right identity. -/
theorem identify_succeeds {s : State} (hq : s.params.HasSpecValues) (hg : s.regs.gtlsState = .serverIdentify)
    (hl : s.regs.srcLen = 72#32) (hs : InBuf s s.regs.srcAddr 72) (hd : InBuf s s.regs.dstAddr 44)
    (hm : s.src = identifyInput (goodSid (arrayBytes s.regs.psk) (arrayBytes s.regs.clientRandom))) :
    ∃ t, exec .gtlsIdentify s = .next t ∧ t.status.err = false := by
  have f := identifyInput_fields (sid := goodSid (arrayBytes s.regs.psk) (arrayBytes s.regs.clientRandom)) (hmac_length _ _)
  have h1 : s.srcLen = 72 := by simp [State.srcLen, hl]
  refine ⟨_, rfl, ?_⟩
  rw [if_neg (by simp [hg]), if_neg (by simp [(srcOk_iff s).2 (by rw [hl]; exact hs)])]
  dsimp only
  rw [hm, h1, if_neg (by simp [mcuTag, mcuDeclared, f.2.1, f.2.2.1]), if_neg (by decide),
    if_neg (by simp [(dstOk_iff s 44).2 hd]), if_neg]
  · rfl
  · rw [f.2.2.2.1, f.2.2.2.2, hq.kdfOut]
    show ¬(goodSid _ _ != goodSid _ _) = true
    simp

/-- SessionKeysAreThePrfOutput. -/
theorem witness_SessionKeysAreThePrfOutput :
    let s := toIdentify .serverIdentify (goodSid (arrayBytes Regs.reset.psk) (arrayBytes Regs.reset.clientRandom)) 0x1FFD4#32
    s.params.HasSpecValues ∧ ∃ t, exec .gtlsIdentify s = .next t ∧ t.status.err = false :=
  ⟨rfl, identify_succeeds rfl rfl rfl (by decide) (by decide) (toIdentify_src (hmac_length _ _))⟩

/-- GtlsDoneResult: each clause. -/
theorem witness_GtlsDoneResult :
    (let s := session .serverDone mcuDone 0#32
     s.regs.gtlsState = .serverDone ∧ InBuf s s.regs.srcAddr s.regs.srcLen.toNat ∧ s.regs.srcLen.toNat = 9 ∧
       le32 (slice s.src 0 4) = 0xFF04 ∧ le32 (slice s.src 4 8) = s.regs.srcLen.toNat ∧ byteAt s.src 8 = 0#8) ∧
      byteAt (session .serverDone (mcuDone.dropLast ++ [0x01#8]) 0#32).src 8 ≠ 0#8 ∧
      (session .serverDone (mcuDone.take 7) 0#32).regs.srcLen.toNat < 8 ∧
      le32 (slice (session .serverDone (0x05#8 :: mcuDone.tail) 0#32).src 0 4) ≠ 0xFF04 ∧
      le32 (slice (session .serverDone (mcuDone ++ [0x00#8]) 0#32).src 4 8) ≠ 10 ∧
      (session .serverDone (mcuDone ++ [0x00#8]) 0#32).regs.srcLen.toNat - 8 ≠ 1 ∧
      (let s := (forEncode 0#32 9#32 0x1FFF8#32 0#32).setGtls .serverDone
       s.regs.gtlsState = .serverDone ∧ ¬ InBuf s s.regs.srcAddr s.regs.srcLen.toNat) ∧
      (session .failed mcuDone 0#32).regs.gtlsState ≠ .serverDone := by decide

/-- HandshakeCompletes: the host writes the payloads between the operations. -/
theorem witness_HandshakeCompletes : ∃ s0 s1 s2 s3 s4 : State,
    InBuf s0 s0.regs.dstAddr 40 ∧ exec .gtlsHello s0 = .next s1 ∧ OperandsOnly s1 s2 ∧ s2.params.HasSpecValues ∧
      s2.regs.srcLen = 72#32 ∧
      InBuf s2 s2.regs.srcAddr 72 ∧ InBuf s2 s2.regs.dstAddr 44 ∧ le32 (slice s2.src 0 4) = 0xFF02 ∧
      le32 (slice s2.src 4 8) = 72 ∧
      (let cr := arrayBytes s0.regs.clientRandom
       slice s2.src 40 72 = hmac (slice (prf (arrayBytes s0.regs.psk) (cr ++ slice s2.src 8 40) 0x44) 32 64)
         (cr ++ slice s2.src 8 40)) ∧
      exec .gtlsIdentify s2 = .next s3 ∧ OperandsOnly s3 s4 ∧ s4.regs.srcLen = 9#32 ∧ InBuf s4 s4.regs.srcAddr 9 ∧
      s4.src = mcuDone := by
  let s0 : State := forEncode 0#32 0#32 0#32 0x1FFD8#32
  let s1 : State := after .gtlsHello s0
  let g := goodSid (arrayBytes Regs.reset.psk) (arrayBytes Regs.reset.clientRandom)
  have f := identifyInput_fields (sid := g) (hmac_length _ _)
  let s1' : State := { s1 with regs := { s1.regs with srcAddr := 0x1000#32, srcLen := 72#32, dstAddr := 0x1FFD4#32 } }
  let s2 : State := s1'.memWrite s1'.regs.srcAddr.toNat (identifyInput g)
  have h2 : s2.src = identifyInput g := src_of_write (s := s1') (by rw [f.1]; rfl)
  obtain ⟨s3, h3⟩ : ∃ s3, exec .gtlsIdentify s2 = .next s3 := ⟨_, rfl⟩
  have hs3 : s3.params = Params.spec := (sameRest_exec h3).2.2.1
  let s3' : State := { s3 with regs := { s3.regs with srcAddr := 0x1000#32, srcLen := 9#32 } }
  refine ⟨s0, s1, s2, s3, s3'.memWrite s3'.regs.srcAddr.toNat mcuDone, by decide, rfl, rfl, rfl, rfl,
    (by decide : InBuf State.reset 0x1000#32 72), (by decide : InBuf State.reset 0x1FFD4#32 44), ?_, ?_, ?_, h3, rfl, rfl,
    by show 0x1000 + 9 ≤ s3.params.bufSize; rw [hs3]; decide, src_of_write (s := s3') rfl⟩
  · rw [h2]; exact f.2.1
  · rw [h2]; exact f.2.2.1
  · rw [h2, f.2.2.2.1, f.2.2.2.2]; rfl

/-! ## Witnesses: sensor channel -/

/-- SensorSplitBlocks, with the shortest body and with empty passthrough blocks. -/
theorem witness_SensorSplitBlocks :
    Params.spec.HasSpecValues ∧ (run 0 16).length = 16 ∧ (bytes (0x3A7 + 7 * 0x3F0 + 6 * 0) 0x00#8).length = 0x3A7 + 7 * 0x3F0 + 6 * 0 :=
  ⟨rfl, rfl, bytes_length _ _⟩

/-- An established session, every key 0, with a raw payload at address 0 and the output there too. -/
def established (m : List Byte) (d : Word) : State :=
  ({ State.reset with regs := { Regs.reset with
      gtlsState := .established, srcLen := toWord m.length, dstAddr := d } } : State).memWrite 0 m

/-- SensorDecryptResult: the checks that come before the first one that looks at `MID_PASS_LEN`. -/
theorem witness_SensorDecryptResult_checks :
    let m : List Byte := [0x01#8, 0xaa#8, 0x00#8, 0x00#8, 0x08#8, 0x00#8, 0x00#8, 0x00#8]
    (session .serverDone m 0#32).params.HasSpecValues ∧ (session .serverDone m 0#32).regs.gtlsState ≠ .established ∧
      (¬ InBuf (st (fun r => { r with gtlsState := .established, srcAddr := 0x20000#32, srcLen := 1#32 }) 0 []) (st (fun r => { r with gtlsState := .established, srcAddr := 0x20000#32, srcLen := 1#32 }) 0 []).regs.srcAddr 1) ∧
      (established (m.take 7) 0#32).regs.srcLen.toNat < 8 ∧
      (let s := established (0x02#8 :: m.tail) 0#32
       8 ≤ s.regs.srcLen.toNat ∧ le32 (slice s.src 0 4) ≠ 0xAA01) ∧
      (let s := established (m ++ [0x00#8]) 0#32
       8 ≤ s.regs.srcLen.toNat ∧ le32 (slice s.src 0 4) = 0xAA01 ∧ le32 (slice s.src 4 8) ≠ s.regs.srcLen.toNat) ∧
      let s := established m 0#32
      8 ≤ s.regs.srcLen.toNat ∧ le32 (slice s.src 0 4) = 0xAA01 ∧ le32 (slice s.src 4 8) = s.regs.srcLen.toNat ∧
        InBuf s s.regs.srcAddr s.regs.srcLen.toNat ∧ s.regs.srcLen.toNat < 40 := by decide

/-- A raw payload with a body and a tag (R270). -/
def rawPayload (body tag : List Byte) : List Byte := toLE32 0xAA01 ++ toLE32 (body.length + 40) ++ body ++ tag

theorem rawPayload_fields {body tag : List Byte} (ht : tag.length = 32) (hb : body.length + 40 ≤ 0x20000) :
    (rawPayload body tag).length = body.length + 40 ∧ le32 (slice (rawPayload body tag) 0 4) = 0xAA01 ∧
      le32 (slice (rawPayload body tag) 4 8) = body.length + 40 ∧
      slice (rawPayload body tag) 8 (8 + body.length) = body ∧
      slice (rawPayload body tag) (8 + body.length) (body.length + 40) = tag := by
  have h0 : slice (rawPayload body tag) 0 4 = toLE32 0xAA01 ++ [] := by simp [rawPayload, slice, toLE32_eq]
  have h4 : slice (rawPayload body tag) 4 8 = toLE32 (body.length + 40) ++ [] := by simp [rawPayload, slice, toLE32_eq]
  refine ⟨by simp [rawPayload, ht]; omega, ?_, ?_, ?_, ?_⟩
  · rw [h0]; exact le32_toLE32 (by decide) []
  · rw [h4]; exact le32_toLE32 (by omega) []
  · simp [rawPayload, slice, toLE32_eq]
  · have hd : (toLE32 0xAA01 ++ toLE32 (body.length + 40) ++ body).length = 8 + body.length := by simp; omega
    have hn : body.length + 40 - (8 + body.length) = tag.length := by omega
    rw [slice, hn, rawPayload, List.drop_left' hd, List.take_length]

theorem established_src {m : List Byte} {d : Word} (h : m.length ≤ 0x20000) :
    (established m d).src = m ∧ (established m d).regs.srcLen.toNat = m.length := by
  have hl : (toWord m.length).toNat = m.length := by simp only [toWord, BitVec.toNat_ofNat]; omega
  exact ⟨src_of_write (s := { State.reset with regs := { Regs.reset with
    gtlsState := .established, srcLen := toWord m.length, dstAddr := d } }) hl, hl⟩

/-- The pre-GEA bytes of the blocks 1 to 13 of an all-zero body, keys 0. -/
def zeroBlocks : List Byte :=
  sensorSplit Params.spec Config.midPassLen Config.cbcRestart (arrayBytes Regs.reset.symKey) (arrayBytes Regs.reset.symIv)
    (bytes (minBody Params.spec Config.midPassLen) 0x00#8)

theorem zeroBlocks_length : zeroBlocks.length = minBody Params.spec Config.midPassLen :=
  (sensorSplit_length (q := Params.spec) rfl _ _ (arrayBytes_length _) (arrayBytes_length _) (by rw [bytes_length])).trans (bytes_length _ _)

/-- The body: zeros, then the trailer `q` in block 14. -/
def zeroBody (q : List Byte) : List Byte := bytes (minBody Params.spec Config.midPassLen) 0x00#8 ++ q

theorem zeroBody_split (q : List Byte) :
    sensorSplit Params.spec Config.midPassLen Config.cbcRestart (arrayBytes Regs.reset.symKey) (arrayBytes Regs.reset.symIv)
      (zeroBody q) = zeroBlocks ++ q :=
  splitFrom_append _ _ _ _ _ _ _ 0 _ _ (by rw [bytes_length]; exact Nat.le_refl _)

/-- The tag that is right for that body, counter 0. -/
def zeroTag (q : List Byte) : List Byte :=
  hmac (arrayBytes Regs.reset.hmacKey) (toBE32 0 ++ slice (zeroBlocks ++ q)
    (minBody Params.spec Config.midPassLen + 4 - 0x400) (minBody Params.spec Config.midPassLen + 4))

/-- The trailer that is right for that body (R277). -/
def zeroTrailer : List Byte :=
  let c := crc32Mpeg2 (zeroBlocks.drop 5)
  [BitVec.ofNat 8 (c.toNat / 2 ^ 8), BitVec.ofNat 8 c.toNat, BitVec.ofNat 8 (c.toNat / 2 ^ 24), BitVec.ofNat 8 (c.toNat / 2 ^ 16)]

/-- SensorDecryptResult and ServerCounterAdvances, for every `MID_PASS_LEN` with which a payload fits in the buffer: for
the trailer that is right and one that is wrong, and for the tag that is right and one that is wrong, a state meets all
the premises before. -/
theorem witness_SensorDecryptResult (hm : minBody Params.spec Config.midPassLen + 44 ≤ 0x20000) (q tag : List Byte) (hq : q.length = 4)
    (ht : tag.length = 32) :
    let s := established (rawPayload (zeroBody q) tag) 0#32
    let len := s.regs.srcLen.toNat
    let n := len - 40
    let buf := sensorSplit Params.spec Config.midPassLen Config.cbcRestart (arrayBytes s.regs.symKey) (arrayBytes s.regs.symIv)
      (slice s.src 8 (8 + n))
    s.params.HasSpecValues ∧ s.regs.gtlsState = .established ∧ InBuf s s.regs.srcAddr len ∧ 8 ≤ len ∧ le32 (slice s.src 0 4) = 0xAA01 ∧
      le32 (slice s.src 4 8) = len ∧ 40 + (0x3A7 + 7 * 0x3F0 + 6 * Config.midPassLen) ≤ len ∧ (n - 9) % 2 = 0 ∧
      InBuf s s.regs.dstAddr (n - 9) ∧
      (hmac (arrayBytes s.regs.hmacKey) (toBE32 s.regs.hmacServerCtr.toNat ++ slice buf (n - 0x400) n) =
        slice s.src (8 + n) len ↔ zeroTag q = tag) ∧
      ((crc32Mpeg2 (slice buf 5 (n - 4))).toNat = crcTrailer (slice buf (n - 4) n) ↔
        (crc32Mpeg2 (zeroBlocks.drop 5)).toNat = crcTrailer q) := by
  have hb : (zeroBody q).length = minBody Params.spec Config.midPassLen + 4 := by simp [zeroBody, hq]
  have f := rawPayload_fields (body := zeroBody q) ht (by omega)
  have e := established_src (m := rawPayload (zeroBody q) tag) (d := 0#32) (by omega)
  have hmb : minBody Params.spec Config.midPassLen =
    0x3A7 + 7 * 0x3F0 + 6 * Config.midPassLen := minBody_of_spec rfl _
  have hzl := zeroBlocks_length
  dsimp only
  rw [e.2, f.1, e.1, Nat.add_sub_cancel, f.2.2.2.1, f.2.2.2.2, f.2.1, f.2.2.1, hb]
  have hsplit : sensorSplit Params.spec Config.midPassLen Config.cbcRestart
      (arrayBytes (established (rawPayload (zeroBody q) tag) 0#32).regs.symKey)
      (arrayBytes (established (rawPayload (zeroBody q) tag) 0#32).regs.symIv) (zeroBody q) = zeroBlocks ++ q :=
    zeroBody_split q
  rw [hsplit]
  refine ⟨rfl, rfl, by show 0 + _ ≤ 0x20000; omega, by omega, rfl, rfl, by omega, by omega, by show 0 + _ ≤ 0x20000; omega,
    Iff.rfl, ?_⟩
  have hg : slice (zeroBlocks ++ q) 5 (minBody Params.spec Config.midPassLen + 4 - 4) = zeroBlocks.drop 5 := by
    rw [Nat.add_sub_cancel]
    simp only [slice]
    rw [List.drop_append_of_le_length (by omega), List.take_left' (by rw [List.length_drop]; omega)]
  have hq' : slice (zeroBlocks ++ q) (minBody Params.spec Config.midPassLen + 4 - 4) (minBody Params.spec Config.midPassLen + 4) = q := by
    rw [Nat.add_sub_cancel]
    simp only [slice]
    rw [List.drop_left' hzl, Nat.add_sub_cancel_left, ← hq, List.take_length]
  rw [hg, hq']

theorem flipped_facts {b : List Byte} (h : b.length = 32) : b.length = 32 ∧ (flipped b).length = 32 ∧ b ≠ flipped b :=
  ⟨h, (List.length_map _).trans h, flipped_ne (List.ne_nil_of_length_pos (by omega))⟩

/-- A trailer is right for a CRC value, and another is not. -/
theorem trailers (c : Word) :
    c.toNat = crcTrailer [BitVec.ofNat 8 (c.toNat / 2 ^ 8), BitVec.ofNat 8 c.toNat, BitVec.ofNat 8 (c.toNat / 2 ^ 24),
      BitVec.ofNat 8 (c.toNat / 2 ^ 16)] ∧ ∃ q : List Byte, q.length = 4 ∧ c.toNat ≠ crcTrailer q := by
  have hc := c.isLt
  generalize c.toNat = n at hc
  constructor
  · simp only [crcTrailer, byteAt, List.getD_cons_zero, List.getD_cons_succ, BitVec.toNat_ofNat]
    omega
  · by_cases h : n = 0
    · exact ⟨[1#8, 0#8, 0#8, 0#8], rfl, by rw [h]; decide⟩
    · exact ⟨[0#8, 0#8, 0#8, 0#8], rfl, fun e => h (e.trans (by decide))⟩

/-- The trailers and tags it is used with. -/
theorem witness_SensorDecryptResult_cases :
    (∀ q, (zeroTag q).length = 32 ∧ (flipped (zeroTag q)).length = 32 ∧ zeroTag q ≠ flipped (zeroTag q)) ∧
      zeroTrailer.length = 4 ∧ (crc32Mpeg2 (zeroBlocks.drop 5)).toNat = crcTrailer zeroTrailer ∧
      ∃ q : List Byte, q.length = 4 ∧ (crc32Mpeg2 (zeroBlocks.drop 5)).toNat ≠ crcTrailer q :=
  ⟨fun _ => flipped_facts (hmac_length _ _), rfl, (trailers _).1, (trailers _).2⟩

/-- SensorDecryptResult: a body of an even length, and an output that does not fit. -/
theorem witness_SensorDecryptResult_length (hm : minBody Params.spec Config.midPassLen + 45 ≤ 0x20000) (k : Nat) (hk : k = 4 ∨ k = 5)
    (d : Word) (hd : d = 0#32 ∨ d = 0x20000#32) :
    let s := established (rawPayload (zeroBody (bytes k 0x00#8)) (bytes 32 0x00#8)) d
    let len := s.regs.srcLen.toNat
    s.params.HasSpecValues ∧ s.regs.gtlsState = .established ∧ InBuf s s.regs.srcAddr len ∧ 8 ≤ len ∧ le32 (slice s.src 0 4) = 0xAA01 ∧
      le32 (slice s.src 4 8) = len ∧ 40 + (0x3A7 + 7 * 0x3F0 + 6 * Config.midPassLen) ≤ len ∧
      ((len - 40 - 9) % 2 ≠ 0 ↔ k = 5) ∧ (¬ InBuf s s.regs.dstAddr (len - 40 - 9) ↔ d = 0x20000#32) := by
  have hb : (zeroBody (bytes k 0x00#8)).length = minBody Params.spec Config.midPassLen + k := by simp [zeroBody]
  have f := rawPayload_fields (body := zeroBody (bytes k 0x00#8)) (tag := bytes 32 0x00#8) (bytes_length _ _) (by omega)
  have e := established_src (m := rawPayload (zeroBody (bytes k 0x00#8)) (bytes 32 0x00#8)) (d := d) (by omega)
  have hmb : minBody Params.spec Config.midPassLen =
    0x3A7 + 7 * 0x3F0 + 6 * Config.midPassLen := minBody_of_spec rfl _
  dsimp only
  rw [e.2, f.1, e.1, f.2.1, f.2.2.1, hb]
  refine ⟨rfl, rfl, by show 0 + _ ≤ 0x20000; omega, by omega, rfl, rfl, by omega, by omega, ?_⟩
  show ¬ d.toNat + _ ≤ 0x20000 ↔ _
  rcases hd with rfl | rfl
  · simp; omega
  · simp; omega

end Sys2Proof.Tests
end

section
/-! SUPPORT. What an operation can end in, said once: an operation that answers a next state has one of the endings of
`Ending`. The claims about single steps follow by cases on it, and no such proof unfolds an operation. -/

namespace Sys2Proof.Machine

/-- The endings of an operation `i` performed in `s`, with what later proofs need to know of each: which code a failure
raises, that an output fits in the buffer, and which registers a completion leaves changed. -/
inductive Ending (s : State) : Instr → State → Prop
  /-- A failed check (40_control.md R104). -/
  | raise {i : Instr} {e : ErrCode} (he : e ∈ mayRaise i) : Ending s i (s.raise e)
  /-- A failed handshake step (44_gtls.md R240). -/
  | failGtls {i : Instr} {e : ErrCode} (hi : isHandshakeStep i = true) (he : e ∈ mayRaise i) (hb : e ≠ .badState) :
      Ending s i (s.failGtls e)
  /-- `NOP` (R110). -/
  | nop : Ending s .nop s.complete
  /-- An operation whose only register is `DST_LEN` wrote its output (20_memory.md R61). -/
  | output {i : Instr} {n : Nat} {v : List Byte} (hi : ∀ r, mayWrite i r = (r == .dstLen)) (hv : v.length ≤ n)
      (hd : InBuf s s.regs.dstAddr n) : Ending s i (s.output n v).complete
  /-- `FRAME_DECODE` refused the checksum, with its diagnostic (41_framing.md R126). -/
  | frameMismatch (q received expected : Byte) :
      Ending s .frameDecode
        (State.raise { s with regs := { s.regs with csumInfo := csumInfo q received expected } } .checksumMismatch)
  /-- `FRAME_DECODE` wrote the payload (R126). -/
  | frameDecoded (q received expected b : Byte) {n : Nat} {v : List Byte} (hv : v.length ≤ n)
      (hd : InBuf s s.regs.dstAddr n) :
      Ending s .frameDecode (State.complete { s.output n v with regs := { s.regs with
        csumInfo := csumInfo q received expected, dstLen := toWord n, msgId := msgIdOf b } })
  /-- `CHUNK_OUT` wrote its chunks (R130). -/
  | chunkedOut (k : Nat) {n : Nat} {v : List Byte} (hv : v.length ≤ n) (hd : InBuf s s.regs.dstAddr n) :
      Ending s .chunkOut
        (State.complete { s.output n v with regs := { s.regs with dstLen := toWord n, chunkCnt := toWord k } })
  /-- `CHUNK_IN` refused a continuation chunk, which ends the reassembly (R135). -/
  | chunkDropped {e : ErrCode} (he : e ∈ mayRaise .chunkIn) : Ending s .chunkIn ((s.setRxActive false).raise e)
  /-- `CHUNK_IN` took the first chunk of a message of declared length `len`; `rx` says that more have to come (R135). -/
  | chunkFirst (ha : s.status.rxActive = false) (b : Byte) {len k : Nat} {rx : Bool} {v : List Byte}
      (hl : len < 2 ^ 16) (hv : v.length ≤ min s.params.chunk (len + 3))
      (hd : InBuf s s.regs.dstAddr (min s.params.chunk (len + 3))) (hrx : rx = true → s.params.chunk - 3 < len) :
      Ending s .chunkIn ((({ s.memWrite s.regs.dstAddr.toNat v with regs := { s.regs with
        rxCmd := b.setWidth 32, rxDeclLen := toWord len, rxAcc := toWord (s.params.chunk - 3)
        rxBase := s.regs.dstAddr, rxWritten := toWord (min s.params.chunk (len + 3)) } } :
          State).setRxActive rx).setDstLen k).complete
  /-- `CHUNK_IN` took `w` bytes of a continuation chunk; `rx` says that more have to come (R135). -/
  | chunkNext (ha : s.status.rxActive = true) {w k : Nat} {rx : Bool} {v : List Byte}
      (hw : w = min s.params.contPayload (s.regs.rxDeclLen.toNat + 3 - s.regs.rxWritten.toNat)) (hv : v.length ≤ w)
      (hd : s.regs.rxBase.toNat + s.regs.rxWritten.toNat + w ≤ s.params.bufSize)
      (hrx : rx = true → (toWord (s.regs.rxAcc.toNat + s.params.contPayload)).toNat < s.regs.rxDeclLen.toNat) :
      Ending s .chunkIn ((({ s.memWrite (s.regs.rxBase.toNat + s.regs.rxWritten.toNat) v with regs := { s.regs with
        rxWritten := toWord (s.regs.rxWritten.toNat + w), rxAcc := toWord (s.regs.rxAcc.toNat + s.params.contPayload) } } :
          State).setRxActive rx).setDstLen k).complete
  /-- `RX_ABORT` (R140). -/
  | rxAbort : Ending s .rxAbort (s.setRxActive false).complete
  /-- `CRC32_MPEG2` (43_ciphers.md R225). -/
  | crc (w : Word) : Ending s .crc32Mpeg2 (State.complete { s with regs := { s.regs with result := w } })
  /-- `GTLS_HELLO` wrote the ClientHello (44_gtls.md R243). -/
  | hello {v : List Byte} (hv : v.length ≤ 40) (hd : InBuf s s.regs.dstAddr 40) :
      Ending s .gtlsHello
        (State.complete { s.output 40 v with regs := { s.regs with dstLen := toWord 40, gtlsState := .serverIdentify } })
  /-- `GTLS_IDENTIFY` derived the session from the server's random `sr` and found its own identity equal to `sid` (R245). -/
  | identified {sr sid : List Byte} (hsr : sr.length = 32) {v : List Byte} (hv : v.length ≤ 44)
      (hd : InBuf s s.regs.dstAddr 44) :
      Ending s .gtlsIdentify (State.complete { s.output 44 v with regs := { s.regs.withSession sr sid sid
        (keyMaterial s.params.kdfOut (arrayBytes s.regs.psk) (arrayBytes s.regs.clientRandom) sr) with
          dstLen := toWord 44, gtlsState := .serverDone } })
  /-- `GTLS_DONE` seeded the counters (R250). -/
  | established :
      Ending s .gtlsDone (State.complete
        { s with regs := { s.regs.seedCounters with dstLen := toWord 0, gtlsState := .established } })
  /-- `SENSOR_DECRYPT` refused the CRC, with the counter advanced (45_sensor.md R276). -/
  | sensorMismatch :
      Ending s .sensorDecrypt
        (State.raise { s with regs := { s.regs with hmacServerCtr := s.regs.hmacServerCtr + 1#32 } } .crcMismatch)
  /-- `SENSOR_DECRYPT` wrote the image (R272). -/
  | sensorOutput {n : Nat} {v : List Byte} (hv : v.length ≤ n) (hd : InBuf s s.regs.dstAddr n) :
      Ending s .sensorDecrypt (State.complete
        { s.output n v with regs := { s.regs with hmacServerCtr := s.regs.hmacServerCtr + 1#32, dstLen := toWord n } })
  /-- `SRST` (R112). -/
  | srst : Ending s .srst s.resetRegs

variable {s t : State} {i : Instr}

theorem Ending.check {a b : State} {c : Prop} [Decidable c] (ha : c → Ending s i a) (hb : ¬ c → Ending s i b) :
    Ending s i (if c then a else b) := by
  split
  · exact ha ‹_›
  · exact hb ‹_›

/-- A check that fails with a code the operation may raise. -/
theorem Ending.orRaise {b : State} {e : ErrCode} {c : Prop} [Decidable c] (hb : ¬ c → Ending s i b)
    (he : e ∈ mayRaise i := by simp [mayRaise]) : Ending s i (if c then s.raise e else b) :=
  .check (fun _ => .raise he) hb

/-- A check that fails a handshake step. -/
theorem Ending.orFail {b : State} {e : ErrCode} {c : Prop} [Decidable c] (hb : ¬ c → Ending s i b)
    (hi : isHandshakeStep i = true := by rfl) (he : e ∈ mayRaise i := by decide)
    (hne : e ≠ .badState := by decide) : Ending s i (if c then s.failGtls e else b) :=
  .check (fun _ => .failGtls hi he hne) hb

theorem Ending.finish {n : Nat} {v : List Byte} (hv : v.length ≤ n)
    (hi : ∀ r, mayWrite i r = (r == .dstLen) := by exact fun _ => rfl)
    (hr : .badOperand ∈ mayRaise i := by simp [mayRaise]) : Ending s i (s.finish n v) := by
  by_cases hd : InBuf s s.regs.dstAddr n
  · rw [finish_of_inBuf hd]; exact .output hi hv hd
  · rw [finish_of_not_inBuf hd]; exact .raise hr

theorem Ending.of_next {u : State} (h : (.next u : Result) = .next t) (hu : Ending s i u) : Ending s i t := by
  cases h
  exact hu

theorem inBuf_of_dstOk {n : Nat} (h : ¬(!s.dstOk n) = true) : InBuf s s.regs.dstAddr n :=
  (dstOk_iff s n).1 (by simpa using h)

theorem slice_length_le (b : List Byte) (i j : Nat) : (slice b i j).length ≤ j - i := by
  rw [slice_length]
  exact min_le_left _ _

/-- GEA returns no more bytes than it is given, also for an odd number (43_ciphers.md R212, log entry 10). -/
theorem gea_length_le (next : Word → Word × BitVec 16) (st : Word) (d : List Byte) :
    (gea next st d).length ≤ d.length := by
  match d with
  | [] => exact Nat.le_refl _
  | [_] => exact Nat.zero_le _
  | b0 :: b1 :: r =>
    have := gea_length_le next (next st).1 r
    simp only [gea, List.length_append, toLE16_length, List.length_cons]
    omega

theorem setRxActive_eq_self {b : Bool} (h : s.status.rxActive = b) : s.setRxActive b = s := by
  subst h
  rfl

theorem ending_frameDecode (h : execFrameDecode s = .next t) : Ending s .frameDecode t :=
  .of_next h <| .orRaise fun _ => .orRaise fun _ => .orRaise fun _ => .orRaise fun _ => .orRaise fun _ =>
    .orRaise fun hd => .check (fun _ => .frameMismatch _ _ _) fun _ =>
      .frameDecoded _ _ _ _ ((slice_length_le _ _ _).trans (by omega)) (inBuf_of_dstOk hd)

theorem ending_chunkInFirst (ha : s.status.rxActive = false) : Ending s .chunkIn (chunkInFirst s.src s) :=
  .orRaise fun hd => .check
    (fun _ => .chunkFirst ha _ (le16_lt _) (slice_length_le _ _ _) (inBuf_of_dstOk hd) nofun)
    (fun hl => .chunkFirst ha _ (le16_lt _) (slice_length_le _ _ _) (inBuf_of_dstOk hd) fun _ => Nat.lt_of_not_le hl)

theorem ending_chunkInNext (ha : s.status.rxActive = true) : Ending s .chunkIn (chunkInNext s.src s) := by
  refine .check (fun _ => .chunkDropped (by decide)) fun _ => .check (fun _ => .chunkDropped (by decide)) fun hd => ?_
  have hd := inRange_iff.1 (by simpa using hd)
  have hv : ∀ w, (slice s.src 1 (1 + w)).length ≤ w := fun w => (slice_length_le _ _ _).trans (by omega)
  refine .check (fun _ => .chunkNext ha rfl (hv _) hd nofun) fun hl => ?_
  rw [← setRxActive_eq_self (s := { s.memWrite _ _ with regs := _ }) ha]
  exact .chunkNext ha rfl (hv _) hd fun _ => Nat.lt_of_not_le hl

theorem ending_chunkIn (h : execChunkIn s = .next t) : Ending s .chunkIn t :=
  .of_next h <| .orRaise fun _ => .orRaise fun _ =>
    .check ending_chunkInNext fun ha => ending_chunkInFirst (by simpa using ha)

theorem ending_aes128CbcDec (h : execAes128CbcDec s = .next t) : Ending s .aes128CbcDec t := by
  refine .of_next h <| .orRaise fun hl => .orRaise fun _ => .orRaise fun _ => .orRaise fun _ => .orRaise fun hm =>
    .finish ?_
  obtain ⟨hkey, hiv⟩ : s.regs.keyLen = 16#32 ∧ s.regs.ivLen = 16#32 := by simpa using hl
  rw [cbcDec_length (by simp [hkey]) (by simp [hiv]) (by simpa using hm), src_length]

theorem ending_gtlsIdentify (h : execGtlsIdentify s = .next t) : Ending s .gtlsIdentify t := by
  refine .of_next h <| .orRaise fun _ => .orFail fun _ => .orFail fun _ => .orFail fun hl => .orFail fun hd =>
    .orFail fun hc => ?_
  have hn : s.srcLen - 8 = 64 := by simpa using hl
  have hsrc : s.src.length = 72 := by rw [src_length]; omega
  rw [not_not.1 (mt bne_iff_ne.2 hc)]
  refine .identified ?_ ?_ (inBuf_of_dstOk hd)
  · exact slice_length_eq (by omega)
  · simp [identifyReply, slice_length_eq (b := s.src) (i := 40) (j := 72) (by omega)]

theorem ending_gtlsDone (h : execGtlsDone s = .next t) : Ending s .gtlsDone t :=
  .of_next h <| .orRaise fun _ => .orFail fun _ => .orFail fun _ => .orFail fun _ => .orFail fun _ => .established

theorem ending_sensorDecrypt (h : execSensorDecrypt s = .next t) : Ending s .sensorDecrypt t :=
  .of_next h <| .orRaise fun _ => .orRaise fun _ => .orRaise fun _ => .orRaise fun _ => .orRaise fun _ =>
    .orRaise fun _ => .orRaise fun _ => .orRaise fun hd => .orRaise fun _ => .check (fun _ => .sensorMismatch) fun _ =>
      .sensorOutput ((gea_length_le _ _ _).trans (slice_length_le _ _ _)) (inBuf_of_dstOk hd)

/-- All an operation can do: the inversion of `exec`. -/
theorem exec_ending (h : exec i s = .next t) : Ending s i t := by
  cases i with
  | nop => exact .of_next h .nop
  | frameEncode c p =>
    exact .of_next h <| .orRaise fun _ => .orRaise fun _ => .orRaise fun _ => .finish (Nat.le_refl _)
  | frameDecode => exact ending_frameDecode h
  | chunkOut =>
    exact .of_next h <| .orRaise fun _ => .orRaise fun _ => .orRaise fun hd =>
      .chunkedOut _ (Nat.le_refl _) (inBuf_of_dstOk hd)
  | chunkIn => exact ending_chunkIn h
  | rxAbort => exact .of_next h .rxAbort
  | mcuWrap => exact .of_next h <| .orRaise fun _ => .finish (by simp [mcuPayload]; omega)
  | mcuUnwrap =>
    exact .of_next h <| .orRaise fun _ => .orRaise fun _ => .orRaise fun _ => .orRaise fun _ =>
      .finish (slice_length_le _ _ _)
  | sha256 => exact .of_next h <| .orRaise fun _ => .finish (sha256_length _).le
  | hmacSha256 => exact .of_next h <| .orRaise fun _ => .orRaise fun _ => .finish (hmac_length _ _).le
  | prfDerive => exact .of_next h <| .orRaise fun _ => .orRaise fun _ => .finish (prf_length _ _ _).le
  | aes128CbcDec => exact ending_aes128CbcDec h
  | geaXor =>
    exact .of_next h <| .orRaise fun _ => .orRaise fun _ => .finish ((gea_length_le _ _ _).trans (src_length s).le)
  | crc32Mpeg2 => exact .of_next h <| .orRaise fun _ => .crc _
  | gtlsHello =>
    exact .of_next h <| .orFail fun hd => .hello (by simp [helloPayload, mcuPayload]) (inBuf_of_dstOk hd)
  | gtlsIdentify => exact ending_gtlsIdentify h
  | gtlsDone => exact ending_gtlsDone h
  | sensorDecrypt => exact ending_sensorDecrypt h
  | srst => exact .of_next h .srst

end Sys2Proof.Machine
end

section
/-! SUPPORT. What the host can do, said once: a turn of the host moves the machine in one of the four ways of
`HostMove`. -/

namespace Sys2Proof.Machine

/-- The register file `r'` differs from `r` at most in the registers of class `RW` (10_state.md R23, R24). -/
def Regs.HostWritten (r r' : Regs) : Prop :=
  r' = { r with
    srcAddr := r'.srcAddr, srcLen := r'.srcLen, dstAddr := r'.dstAddr, keyAddr := r'.keyAddr, keyLen := r'.keyLen
    ivAddr := r'.ivAddr, ivLen := r'.ivLen, aux := r'.aux, msgId := r'.msgId, psk := r'.psk
    clientRandom := r'.clientRandom }

/-- What one turn of the host does to the machine, the host agent then being `ag`. -/
inductive HostMove (s : State) : State → Prop
  /-- Nothing but in the host itself: a read, a branch, or no statement left. -/
  | away (ag : HostAgent) : HostMove s { s with host := ag }
  /-- A write to `CMD` (R26). -/
  | command (ag : HostAgent) (w : Word) (hb : s.status.busy = false) : HostMove s { s.accept w with host := ag }
  /-- A write to an `RW` register (R23). -/
  | store (ag : HostAgent) {r : Regs} (hr : s.regs.HostWritten r) : HostMove s { s with regs := r, host := ag }
  /-- A write of a buffer byte (20_memory.md R62). -/
  | byte (ag : HostAgent) {a : Nat} (b : Byte) (ha : a < s.params.bufSize) :
      HostMove s { s.memWrite a [b] with host := ag }

variable {s t : State} {a : Access}

theorem regViolation_offset (r : RegName) : regViolation 32 r.offset = none := by
  simp [regViolation, regAt_offset, (offset_lt r).2]

theorem violation_of_idle (hb : s.status.busy = false) : violation s a = idleViolation s a := by
  simp [violation, hb]

/-- While busy every access but the read of `STATUS` is a hazard (70_reset_and_hazards.md R340). -/
theorem violation_of_busy (hb : s.status.busy = true) (ha : a ≠ .regRead 32 0x004) :
    violation s a = some .busyHazard := by
  simp [violation, hb, isStatusRead, RegName.offset, ha]

theorem idle_of_not_violation (h : violation s a = none) (ha : a ≠ .regRead 32 0x004) : s.status.busy = false := by
  by_contra hb
  rw [violation_of_busy (by simpa using hb) ha] at h
  cases h

/-- A permitted write to a register by its offset (R67). -/
theorem hostAccess_regWrite {r : RegName} (v : Word) (hb : s.status.busy = false) (hr : r.cls ≠ .r) :
    hostAccess s (.regWrite 32 r.offset v) =
      .next { s.writeReg r v with host := { s.host with pc := s.host.pc + 1 } } := by
  refine hostAccess_eq_next.2 ⟨?_, ?_⟩
  · simp [violation_of_idle hb, idleViolation, regViolation_offset, regAt_offset, hr]
  · simp [accessEffect, accessData, regAt_offset]

/-- A permitted read of a register by its offset (R67). -/
theorem hostAccess_regRead (r : RegName) (hb : s.status.busy = false) :
    hostAccess s (.regRead 32 r.offset) =
      .next { s with host := { s.host with pc := s.host.pc + 1, reads := s.host.reads ++ [s.readReg r] } } := by
  refine hostAccess_eq_next.2 ⟨?_, ?_⟩
  · simp [violation_of_idle hb, idleViolation, regViolation_offset]
  · simp [accessEffect, accessData, regAt_offset]

theorem hostAccess_of_busy (hb : s.status.busy = true) (ha : a ≠ .regRead 32 0x004) :
    hostAccess s a = .fault .busyHazard := by
  simp [hostAccess, violation_of_busy hb ha]

theorem hostMove_writeReg (r : RegName) (v : Word) (ag : HostAgent) (hb : s.status.busy = false) :
    HostMove s { s.writeReg r v with host := ag } := by
  cases r with
  | cmd => exact .command ag v hb
  | _ => exact .store ag rfl

theorem hostMove_of_access (h : hostAccess s a = .next t) : HostMove s t := by
  obtain ⟨hv, rfl⟩ := hostAccess_eq_next.1 h
  cases a with
  | regRead width offset => exact .away _
  | bufRead addr => exact .away _
  | regWrite width offset v =>
    have hb := idle_of_not_violation hv nofun
    cases hr : regAt offset with
    | none => simp only [accessEffect, hr]; exact .away _
    | some r => simp only [accessEffect, hr]; exact hostMove_writeReg r v _ hb
  | bufWrite addr b =>
    rw [violation_of_idle (idle_of_not_violation hv nofun)] at hv
    exact .byte _ b (by simpa [idleViolation] using hv)

/-- All a turn of the host can do. -/
theorem hostMove_of_hostStep (h : hostStep s = .next t) : HostMove s t := by
  obtain rfl | ⟨pc, rfl⟩ | ⟨st, a, -, -, ha⟩ := hostStep_cases h
  · exact .away t.host
  · exact .away _
  · exact hostMove_of_access ha

theorem HostMove.params_eq (h : HostMove s t) : t.params = s.params := by
  cases h with
  | _ => rfl

/-- What a register reads as after a host write to an `RW` register (10_state.md R23). -/
theorem readReg_writeReg {r : RegName} (q : RegName) (v : Word) (hr : r.cls = .rw) :
    (s.writeReg r v).readReg q = if q = r then v else s.readReg q := by
  cases r with
  | psk i =>
    cases q with
    | psk j => simp [State.writeReg, State.readReg, Vector.getElem_set, Fin.ext_iff, eq_comm]
    | _ => rfl
  | clientRandom i =>
    cases q with
    | clientRandom j => simp [State.writeReg, State.readReg, Vector.getElem_set, Fin.ext_iff, eq_comm]
    | _ => rfl
  | _ => cases hr <;> cases q <;> rfl

theorem writeReg_frame {r : RegName} (v : Word) (hr : r.cls = .rw) :
    (s.writeReg r v).pend = s.pend ∧ (s.writeReg r v).buf = s.buf ∧ (s.writeReg r v).resets = s.resets := by
  cases r with
  | cmd => cases hr
  | _ => exact ⟨rfl, rfl, rfl⟩

/-- The engine's turn with a word pending (40_control.md R100). -/
theorem step_of_engine {w : Word} (ht : nextTurn s = .engine) (hp : s.pend = some w) :
    step s = onNext (fun u => u.retire.endTurn) (perform w s) := by
  simp only [step, turnStep, ht, engineStep, hp]
  cases perform w s <;> rfl

end Sys2Proof.Machine
end

section
/-! SUPPORT. The parts of the invariant: each holds at reset, and each is kept by every ending of an operation and by every
move of the host. -/

namespace Sys2Proof.Machine

variable {s t : State} {i : Instr}

/-! ## STATUS -/

/-- `STATUS` while no operation is pending (10_state.md R25). -/
def Status.Ended (t : Status) : Prop :=
  t.busy = false ∧ (t.err = true ↔ t.errcode ≠ .ok) ∧ (t.done = false → t.errcode = .ok)

theorem ok_notMem_mayRaise (i : Instr) : .ok ∉ mayRaise i := by
  cases i <;> simp [mayRaise]

theorem Status.raised_ended {e : ErrCode} (he : e ≠ .ok) (t : Status) : (t.raised e).Ended :=
  ⟨rfl, ⟨fun _ => he, fun _ => rfl⟩, nofun⟩

theorem Status.raised_ended_of_mem {e : ErrCode} (he : e ∈ mayRaise i) (t : Status) : (t.raised e).Ended :=
  t.raised_ended fun h => ok_notMem_mayRaise i (h ▸ he)

theorem Status.completed_ended (t : Status) : t.completed.Ended := by simp [Status.Ended]

theorem Status.reset_ended : Status.reset.Ended := by simp [Status.Ended, Status.reset]

theorem statusInv_of_ended (h : s.status.Ended) (hp : s.pend = none) : s.StatusInv := by
  obtain ⟨hb, he, hd⟩ := h
  exact ⟨by simp [hb, hp], by simp [hb], he, hd⟩

theorem Ending.status_ended (h : Ending s i t) : t.status.Ended := by
  cases h with
  | raise he => exact Status.raised_ended_of_mem he _
  | failGtls _ he _ => exact Status.raised_ended_of_mem he _
  | frameMismatch => exact Status.raised_ended (by decide) _
  | chunkDropped he => exact Status.raised_ended_of_mem he _
  | sensorMismatch => exact Status.raised_ended (by decide) _
  | srst => exact Status.reset_ended
  | _ => exact Status.completed_ended _

/-! ## The reserved bits -/

theorem toNat_toWord {n : Nat} (h : n < 2 ^ 32) : (toWord n).toNat = n := by
  rw [toWord, BitVec.toNat_ofNat, Nat.mod_eq_of_lt h]

/-- A bound on the upper part of a joined word bounds the whole. -/
theorem toNat_append_lt {m n k : Nat} {x : BitVec m} (y : BitVec n) (h : x.toNat < 2 ^ k) :
    (x ++ y).toNat < 2 ^ (k + n) := by
  rw [BitVec.toNat_append, ← Nat.shiftLeft_add_eq_or_of_lt y.isLt, Nat.shiftLeft_eq]
  calc x.toNat * 2 ^ n + y.toNat < x.toNat * 2 ^ n + 2 ^ n := Nat.add_lt_add_left y.isLt _
    _ = (x.toNat + 1) * 2 ^ n := by ring
    _ ≤ 2 ^ k * 2 ^ n := Nat.mul_le_mul_right _ h
    _ = 2 ^ (k + n) := (pow_add 2 k n).symm

/-- Bits 31..17 of `CSUM_INFO` are 0 (R28). -/
theorem csumInfo_lt (q received expected : Byte) : (csumInfo q received expected).toNat < 2 ^ 17 :=
  toNat_append_lt received (toNat_append_lt expected (toNat_append_lt (k := 0) _ (by decide)))

theorem Ending.reservedInv (h : Ending s i t) (hs : s.ReservedInv) : t.ReservedInv := by
  obtain ⟨hcmd, hdecl, hcsum⟩ := hs
  cases h with
  | frameMismatch q r e => exact ⟨hcmd, hdecl, csumInfo_lt q r e⟩
  | frameDecoded q r e => exact ⟨hcmd, hdecl, csumInfo_lt q r e⟩
  | chunkFirst _ b hl =>
    have hb : (b.setWidth 32).toNat < 2 ^ 8 := by simp; omega
    exact ⟨hb, (toNat_toWord (hl.trans (by decide))).trans_lt hl, hcsum⟩
  | srst => exact ⟨Nat.two_pow_pos _, Nat.two_pow_pos _, Nat.two_pow_pos _⟩
  | _ => exact ⟨hcmd, hdecl, hcsum⟩

/-! ## The session -/

theorem seedCounters_hmacClientCtr (r : Regs) : r.seedCounters.hmacClientCtr.toNat = r.ctrSeed.toNat % 2 ^ 16 := by
  simp [Regs.seedCounters]
  omega

theorem Ending.sessionInv (h : Ending s i t) (hs : s.SessionInv) : t.SessionInv := by
  obtain ⟨hid, hctr⟩ := hs
  cases h with
  | failGtls => exact ⟨hid, nofun⟩
  | hello => exact ⟨hid, nofun⟩
  | identified => exact ⟨rfl, nofun⟩
  | established => exact ⟨hid, fun _ => seedCounters_hmacClientCtr s.regs⟩
  | srst => exact ⟨rfl, nofun⟩
  | _ => exact ⟨hid, hctr⟩

/-! ## The reassembly -/

/-- What the invariant says of the numbers of an active reassembly (41_framing.md R134). -/
def Reassembling (q : Params) (acc decl written base : Nat) : Prop :=
  (∃ j, acc = q.chunk - 3 + q.contPayload * j) ∧ acc < decl ∧ written = min (decl + 3) (acc + 3) ∧
    base + written ≤ q.bufSize

theorem rxInv_iff (s : State) : s.RxInv ↔ (s.status.rxActive = true → Reassembling s.params s.regs.rxAcc.toNat
    s.regs.rxDeclLen.toNat s.regs.rxWritten.toNat s.regs.rxBase.toNat) := Iff.rfl

theorem reassembling_first {q : Params} {len base : Nat} (hc : 3 ≤ q.chunk) (hl : q.chunk - 3 < len)
    (hd : base + min q.chunk (len + 3) ≤ q.bufSize) :
    Reassembling q (q.chunk - 3) len (min q.chunk (len + 3)) base :=
  ⟨⟨0, rfl⟩, hl, by omega, hd⟩

theorem Reassembling.next {q : Params} {acc decl written base : Nat} (h : Reassembling q acc decl written base)
    (hl : acc + q.contPayload < decl) (hd : base + written + q.contPayload ≤ q.bufSize) :
    Reassembling q (acc + q.contPayload) decl (written + q.contPayload) base := by
  obtain ⟨⟨j, rfl⟩, -, hw, -⟩ := h
  exact ⟨⟨j + 1, by ring⟩, hl, by omega, by omega⟩

/-- The bounds of the parameters and of `RX_DECL_LEN` keep the counts of `CHUNK_IN` from wrapping (log entry 6). -/
theorem Ending.rxInv (h : Ending s i t) (hp : s.ParamInv) (hres : s.ReservedInv) (hs : s.RxInv) : t.RxInv := by
  obtain ⟨-, -, hc3, hc, hcc⟩ := hp
  cases h with
  | chunkDropped => exact nofun
  | rxAbort => exact nofun
  | srst => exact nofun
  | @chunkFirst _ _ len _ _ _ hl _ hd hrx =>
    refine (rxInv_iff _).2 fun hact => ?_
    show Reassembling s.params (toWord (s.params.chunk - 3)).toNat (toWord len).toNat
      (toWord (min s.params.chunk (len + 3))).toNat s.regs.dstAddr.toNat
    rw [toNat_toWord (by omega), toNat_toWord (by omega), toNat_toWord (by omega)]
    exact reassembling_first hc3 (hrx hact) hd
  | @chunkNext ha w _ _ _ hw _ hd hrx =>
    refine (rxInv_iff _).2 fun hact => ?_
    have hr := (rxInv_iff s).1 hs ha
    have ⟨_, hlt, hwritten, _⟩ := hr
    obtain ⟨-, hdecl, -⟩ := hres
    have hmore := hrx hact
    have hacc := toNat_toWord (n := s.regs.rxAcc.toNat + s.params.contPayload) (by omega)
    have hfull : w = s.params.contPayload := by omega
    show Reassembling s.params (toWord (s.regs.rxAcc.toNat + s.params.contPayload)).toNat s.regs.rxDeclLen.toNat
      (toWord (s.regs.rxWritten.toNat + w)).toNat s.regs.rxBase.toNat
    rw [hacc, toNat_toWord (by omega), hfull]
    exact hr.next (by omega) (by omega)
  | _ => exact hs

/-! ## The buffer -/

theorem Ending.buf_inv (h : Ending s i t) (hw : s.buf.wf) (hb : s.buf.within s.params.bufSize) :
    t.buf.wf ∧ t.buf.within s.params.bufSize := by
  have write : ∀ {a n : Nat} {v : List Byte}, v.length ≤ n → a + n ≤ s.params.bufSize →
      (s.buf.write a v).wf ∧ (s.buf.write a v).within s.params.bufSize :=
    fun hv hd => ⟨Memory.write_wf hw _ _, Memory.write_within hb (by omega)⟩
  cases h with
  | output _ hv hd => exact write hv hd
  | frameDecoded _ _ _ _ hv hd => exact write hv hd
  | chunkedOut _ hv hd => exact write hv hd
  | chunkFirst _ _ _ hv hd => exact write hv hd
  | chunkNext _ _ hv hd => exact write hv hd
  | hello hv hd => exact write hv hd
  | identified _ hv hd => exact write hv hd
  | sensorOutput hv hd => exact write hv hd
  | _ => exact ⟨hw, hb⟩

/-! ## The whole invariant -/

theorem Ending.inv (h : Ending s i t) (hp : t.params = s.params) (hs : s.Inv) : t.retire.Inv := by
  obtain ⟨-, hres, hrx, hses, hpar, hwf, hin⟩ := hs
  have hbuf := h.buf_inv hwf hin
  rw [← hp] at hbuf
  refine ⟨statusInv_of_ended h.status_ended rfl, h.reservedInv hres, h.rxInv hpar hres hrx, h.sessionInv hses, ?_, hbuf⟩
  rw [State.ParamInv, retire_params, hp]
  exact hpar

/-- An illegal word changes `STATUS` and `PEND` only (40_control.md R103). -/
theorem inv_raise_retire {e : ErrCode} (he : e ≠ .ok) (hs : s.Inv) : (s.raise e).retire.Inv := by
  obtain ⟨-, hrest⟩ := hs
  exact ⟨statusInv_of_ended (Status.raised_ended he _) rfl, hrest⟩

theorem HostMove.inv (h : HostMove s t) (hs : s.Inv) : t.Inv := by
  obtain ⟨hst, hres, hrx, hses, hpar, hwf, hin⟩ := hs
  cases h with
  | away => exact ⟨hst, hres, hrx, hses, hpar, hwf, hin⟩
  | command ag w => exact ⟨by simp [State.StatusInv], hres, hrx, hses, hpar, hwf, hin⟩
  | store ag hr => rw [hr]; exact ⟨hst, hres, hrx, hses, hpar, hwf, hin⟩
  | byte ag b ha =>
    exact ⟨hst, hres, hrx, hses, hpar, Memory.write_wf hwf _ _, Memory.write_within hin (by simpa using ha)⟩

/-- The invariant of a state at its reset values, whatever its parameters are within their bounds. -/
theorem inv_of_reset (hr : s.regs = Regs.reset) (ht : s.status = Status.reset) (hpend : s.pend = none)
    (hb : s.buf = []) (hp : s.ParamInv) : s.Inv := by
  refine ⟨statusInv_of_ended (ht ▸ Status.reset_ended) hpend, ?_, ?_, ?_, hp, ?_, ?_⟩
  · rw [State.ReservedInv, hr]
    exact ⟨Nat.two_pow_pos _, Nat.two_pow_pos _, Nat.two_pow_pos _⟩
  · rw [State.RxInv, ht]
    exact nofun
  · rw [State.SessionInv, hr]
    exact ⟨rfl, nofun⟩
  · rw [hb]
    exact Memory.nil_wf
  · rw [hb]
    exact Memory.nil_within _

/-! ## Which moves leave the reassembly state and the counters alone -/

/-- The reassembly state of 10_state.md R29 is the same in both. -/
def SameRx (s t : State) : Prop :=
  t.status.rxActive = s.status.rxActive ∧ t.regs.rxCmd = s.regs.rxCmd ∧ t.regs.rxDeclLen = s.regs.rxDeclLen ∧
    t.regs.rxAcc = s.regs.rxAcc ∧ t.regs.rxBase = s.regs.rxBase ∧ t.regs.rxWritten = s.regs.rxWritten

theorem HostMove.sameRx (h : HostMove s t) : SameRx s t := by
  cases h with
  | store ag hr => rw [hr]; exact ⟨rfl, rfl, rfl, rfl, rfl, rfl⟩
  | _ => exact ⟨rfl, rfl, rfl, rfl, rfl, rfl⟩

theorem Ending.sameRx (h : Ending s i t) : SameRx s t ∨ i = .chunkIn ∨ i = .rxAbort ∨ i = .srst := by
  cases h with
  | chunkDropped => exact .inr (.inl rfl)
  | chunkFirst => exact .inr (.inl rfl)
  | chunkNext => exact .inr (.inl rfl)
  | rxAbort => exact .inr (.inr (.inl rfl))
  | srst => exact .inr (.inr (.inr rfl))
  | _ => exact .inl ⟨rfl, rfl, rfl, rfl, rfl, rfl⟩

theorem HostMove.counters (h : HostMove s t) :
    t.regs.hmacClientCtr = s.regs.hmacClientCtr ∧ t.regs.hmacServerCtr = s.regs.hmacServerCtr := by
  cases h with
  | store ag hr => rw [hr]; exact ⟨rfl, rfl⟩
  | _ => exact ⟨rfl, rfl⟩

theorem Ending.hmacClientCtr (h : Ending s i t) :
    t.regs.hmacClientCtr = s.regs.hmacClientCtr ∨ i = .gtlsDone ∨ i = .srst := by
  cases h with
  | established => exact .inr (.inl rfl)
  | srst => exact .inr (.inr rfl)
  | _ => exact .inl rfl

theorem Ending.hmacServerCtr (h : Ending s i t) :
    t.regs.hmacServerCtr = s.regs.hmacServerCtr ∨ i = .gtlsDone ∨ i = .sensorDecrypt ∨ i = .srst := by
  cases h with
  | established => exact .inr (.inl rfl)
  | sensorMismatch => exact .inr (.inr (.inl rfl))
  | sensorOutput => exact .inr (.inr (.inl rfl))
  | srst => exact .inr (.inr (.inr rfl))
  | _ => exact .inl rfl

end Sys2Proof.Machine
end

section
/-! SUPPORT. The statements about the state, reset and the host port. -/

namespace Sys2Proof.Machine

/-- Settles O17, by the kinds of step: a host move, an operation's ending, an illegal word, an idle turn, reset. -/
theorem stepKeepsInvariant : Obligations.StepKeepsInvariant := by
  intro s t hs h
  obtain ⟨-, u, hu, rfl⟩ | ⟨-, -, rfl⟩ | ⟨-, w, i, u, -, -, hu, rfl⟩ | ⟨-, w, r, -, -, rfl⟩ | ⟨-, rfl⟩ := step_cases h
  · have hm := hostMove_of_hostStep hu
    exact ⟨hm.inv hs, hm.params_eq⟩
  · exact ⟨hs, rfl⟩
  · obtain ⟨-, -, hp, -, -⟩ := sameRest_exec hu
    exact ⟨(exec_ending hu).inv hp hs, hp⟩
  · exact ⟨inv_raise_retire (by decide) hs, rfl⟩
  · obtain ⟨-, -, -, -, hpar, -, -⟩ := hs
    exact ⟨inv_of_reset rfl rfl rfl rfl hpar, rfl⟩

/-- Settles O8, by what a permitted write to `CMD` and the engine's turn do. -/
theorem commandAcceptance : Obligations.CommandAcceptance := by
  refine ⟨fun s w hb => ?_, fun s t w ht hp h => ?_, fun s w hb => ?_⟩
  · exact ⟨_, hostAccess_regWrite (r := .cmd) w hb (by decide), rfl, rfl, rfl, fun _ => rfl, rfl⟩
  · rw [step_of_engine ht hp] at h
    obtain ⟨u, hu, rfl⟩ := onNext_eq_next.1 h
    exact ⟨rfl, u, hu, rfl, rfl, rfl⟩
  · exact hostAccess_of_busy hb nofun

/-- Settles O11, by read after write of the register file. -/
theorem hostRegisterAccess : Obligations.HostRegisterAccess := by
  refine ⟨fun s r v hb hr => ?_, fun s r hb => ?_, fun _ => rfl⟩
  · obtain ⟨hp, hbuf, hn⟩ := writeReg_frame (s := s) v hr
    exact ⟨_, hostAccess_regWrite v hb (by simp [hr]), (readReg_writeReg r v hr).trans (if_pos rfl),
      fun q hq => (readReg_writeReg q v hr).trans (if_neg hq), sameBuffer_of_buf hbuf hn, hp⟩
  · exact ⟨_, hostAccess_regRead r hb, rfl, fun _ => rfl, fun _ => rfl, rfl⟩

/-- Settles O22, by the kinds of step. -/
theorem reassemblyStateWriters : Obligations.ReassemblyStateWriters := by
  intro s t h
  obtain ⟨-, u, hu, rfl⟩ | ⟨-, -, rfl⟩ | ⟨ht, w, i, u, hw, hi, hu, rfl⟩ | ⟨-, w, r, -, -, rfl⟩ | ⟨ht, rfl⟩ := step_cases h
  · exact .inl (hostMove_of_hostStep hu).sameRx
  · exact .inl ⟨rfl, rfl, rfl, rfl, rfl, rfl⟩
  · obtain hsame | rfl | rfl | rfl := (exec_ending hu).sameRx
    · exact .inl hsame
    · exact .inr (.inl ⟨ht, w, hw, hi⟩)
    · exact .inr (.inr (.inl ⟨ht, w, hw, hi⟩))
    · exact .inr (.inr (.inr (.inl ⟨ht, w, hw, hi⟩)))
  · exact .inl ⟨rfl, rfl, rfl, rfl, rfl, rfl⟩
  · exact .inr (.inr (.inr (.inr ht)))

/-- Settles O24, by the kinds of step. -/
theorem sessionCounterWriters : Obligations.SessionCounterWriters := by
  intro s t h
  obtain ⟨-, u, hu, rfl⟩ | ⟨-, -, rfl⟩ | ⟨ht, w, i, u, hw, hi, hu, rfl⟩ | ⟨-, w, r, -, -, rfl⟩ | ⟨ht, rfl⟩ := step_cases h
  · obtain ⟨hc, hs⟩ := (hostMove_of_hostStep hu).counters
    exact ⟨absurd hc, absurd hs⟩
  · exact ⟨absurd rfl, absurd rfl⟩
  · constructor
    · intro hne
      obtain hc | rfl | rfl := (exec_ending hu).hmacClientCtr
      · exact absurd hc hne
      · exact .inl ⟨ht, w, hw, hi⟩
      · exact .inr (.inl ⟨ht, w, hw, hi⟩)
    · intro hne
      obtain hs | rfl | rfl | rfl := (exec_ending hu).hmacServerCtr
      · exact absurd hs hne
      · exact .inl ⟨ht, w, hw, hi⟩
      · exact .inr (.inl ⟨ht, w, hw, hi⟩)
      · exact .inr (.inr (.inl ⟨ht, w, hw, hi⟩))
  · exact ⟨absurd rfl, absurd rfl⟩
  · exact ⟨fun _ => .inr (.inr ht), fun _ => .inr (.inr (.inr ht))⟩

/-! ## The session registers -/

theorem toLE16_le16_of_length {b : List Byte} (hb : b.length = 2) : toLE16 (le16 b) = b := by
  match b, hb with
  | [x, y], _ => exact toLE16_le16 x y

/-- The session registers hold 68 bytes of key material whole, in its order (10_state.md R32). -/
theorem arrayBytes_withSession (r : Regs) (sr sid cid : List Byte) {km : List Byte} (hkm : km.length = 68) :
    arrayBytes (r.withSession sr sid cid km).symKey ++ arrayBytes (r.withSession sr sid cid km).symIv
      ++ arrayBytes (r.withSession sr sid cid km).hmacKey
      ++ toLE16 ((r.withSession sr sid cid km).ctrSeed.toNat % 65536)
      ++ toLE16 ((r.withSession sr sid cid km).ctrSeed.toNat / 65536) = km := by
  have hl : ∀ {i j}, j ≤ 68 → (slice km i j).length = j - i := fun h => slice_length_eq (by omega)
  have hlow := le16_lt (slice km 64 66)
  have hhigh := le16_lt (slice km 66 68)
  have hseed : (r.withSession sr sid cid km).ctrSeed.toNat = le16 (slice km 64 66) + 2 ^ 16 * le16 (slice km 66 68) :=
    toNat_toWord (by omega)
  have h0 : (r.withSession sr sid cid km).ctrSeed.toNat % 65536 = le16 (slice km 64 66) := by omega
  have h1 : (r.withSession sr sid cid km).ctrSeed.toNat / 65536 = le16 (slice km 66 68) := by omega
  rw [h0, h1, toLE16_le16_of_length (hl (by decide)), toLE16_le16_of_length (hl (by decide))]
  simp only [Regs.withSession]
  rw [arrayBytes_bytesArray (hl (by decide)), arrayBytes_bytesArray (hl (by decide)),
    arrayBytes_bytesArray (hl (by decide)), slice_append_slice (by decide) (by decide),
    slice_append_slice (by decide) (by decide), slice_append_slice (by decide) (by decide),
    slice_append_slice (by decide) (by decide)]
  simp [slice, ← hkm]

/-- The registers after a `GTLS_IDENTIFY` that succeeded (44_gtls.md R245). -/
theorem regs_of_gtlsIdentify {s t : State} (h : exec .gtlsIdentify s = .next t) (he : t.status.err = false) :
    ∃ sr sid, sr.length = 32 ∧
      t.regs = { s.regs.withSession sr sid sid (keyMaterial s.params.kdfOut (arrayBytes s.regs.psk)
        (arrayBytes s.regs.clientRandom) sr) with dstLen := toWord 44, gtlsState := .serverDone } := by
  cases exec_ending h with
  | raise => cases he
  | failGtls => cases he
  | output hi => exact absurd (hi .gtlsState) (by decide)
  | identified hsr => exact ⟨_, _, hsr, rfl⟩

/-- Settles O54, by the split of the key material and its inverse. -/
theorem sessionKeysAreThePrfOutput : Obligations.SessionKeysAreThePrfOutput := by
  intro s t hq h he
  obtain ⟨sr, sid, hsr, ht⟩ := regs_of_gtlsIdentify h he
  rw [ht, hq.kdfOut]
  refine ⟨(arrayBytes_withSession s.regs sr sid sid (prf_length _ _ _)).trans ?_, rfl⟩
  show prf _ (_ ++ sr) 68 = prf _ (_ ++ arrayBytes (bytesArray 8 sr)) 68
  rw [arrayBytes_bytesArray hsr]

/-! ## Reset -/

theorem atResetValues_of_reset {s : State} (hr : s.regs = Regs.reset) (ht : s.status = Status.reset) :
    AtResetValues s := by
  constructor
  · intro r hpsk
    cases r with
    | psk i => exact absurd rfl (hpsk i)
    | status => rw [State.readReg, ht]; rfl
    | _ => simp [State.readReg, hr, Regs.reset, GtlsState.word]
  · rw [hr]
    exact arrayBytes_bytesArray (by simp)

/-- Settles O15, from the reset column of 10_state.md R24. -/
theorem resetStateValues : Obligations.ResetStateValues :=
  ⟨atResetValues_of_reset rfl rfl, rfl, rfl, rfl, rfl, 0, fun _ => rfl⟩

/-- Settles O16: the reset values meet the invariant for all parameters within their bounds, and R6's are. -/
theorem invariantHoldsAtReset : Obligations.InvariantHoldsAtReset :=
  ⟨inv_of_reset rfl rfl rfl rfl (by simp [State.ParamInv, State.reset, Params.spec]), rfl⟩

end Sys2Proof.Machine
end

section
/-! SUPPORT. The buffer through the host port: the host's byte accesses. -/

namespace Sys2Proof.Machine

variable {s : State} {x : Nat}

/-- A permitted byte write (20_memory.md R62). -/
theorem hostAccess_bufWrite (b : Byte) (hb : s.status.busy = false) (hx : x < s.params.bufSize) :
    hostAccess s (.bufWrite x b) =
      .next { s.memWrite x [b] with host := { s.host with pc := s.host.pc + 1 } } := by
  refine hostAccess_eq_next.2 ⟨?_, ?_⟩
  · simp [violation_of_idle hb, idleViolation, hx]
  · simp [accessEffect, accessData]

/-- A permitted byte read (R62, R68). -/
theorem hostAccess_bufRead (hb : s.status.busy = false) (hx : x < s.params.bufSize) :
    hostAccess s (.bufRead x) = .next { s with host := { s.host with
      pc := s.host.pc + 1, reads := s.host.reads ++ [(s.readByte x).setWidth 32] } } := by
  refine hostAccess_eq_next.2 ⟨?_, ?_⟩
  · simp [violation_of_idle hb, idleViolation, hx]
  · simp [accessEffect, accessData]

/-- Settles O12, by what a permitted byte access does and by read after write of the buffer. -/
theorem hostBufferAccess : Obligations.HostBufferAccess := by
  intro s x b hb hx
  refine ⟨⟨_, hostAccess_bufWrite b hb hx, ?_, rfl, rfl, rfl⟩,
    ⟨_, hostAccess_bufRead hb hx, rfl, rfl, rfl, rfl, ?_⟩⟩
  · exact written_of_buf rfl rfl
  · exact sameBuffer_of_buf rfl rfl

end Sys2Proof.Machine
end

section
/-! SUPPORT. The statements about the encoding: what a word has to be to decode to an operation, and which registers an
operation leaves alone. -/

namespace Sys2Proof

/-! ## Command words -/

/-- An operation's code and flags are put where R80 has them; only `FRAME_ENCODE` has flags (R82). -/
theorem encode_of_opOf {op : BitVec 6} {c p : Bool} {i : Instr} (h : opOf op c p = some i)
    (hf : op = 0x01#6 ∨ (c = false ∧ p = false)) : encode i = cmd32 op c p := by
  obtain rfl | ⟨rfl, rfl⟩ := hf
  · cases h
    rfl
  · unfold opOf at h
    split at h <;> cases h <;> rfl

/-- A word with its reserved bits 0 is its `OP`, `C` and `P` in the format of R80. -/
theorem eq_cmd32_of_reservedBitsClear {w : Word} (h : reservedBitsClear w = true) :
    w = cmd32 (opField w) (cField w) (pField w) := by
  obtain ⟨hlow, hhigh⟩ : w.extractLsb' 6 2 = 0#2 ∧ w.extractLsb' 10 22 = 0#22 := by simpa [reservedBitsClear] using h
  have := word_eq_fields w
  rwa [hlow, hhigh] at this

theorem encode_of_decode {w : Word} {i : Instr} (h : decode w = .op i) : encode i = w := by
  obtain ⟨hop, hres, hflags⟩ := decode_eq_op h
  exact (encode_of_opOf hop hflags).trans (eq_cmd32_of_reservedBitsClear hres).symm

theorem decode_encode (i : Instr) : decode (encode i) = .op i := by
  cases i with
  | frameEncode c p => cases c <;> cases p <;> decide
  | _ => decide

/-- Settles O1: the fields of a word are the whole of it. -/
theorem decodeAndEncodeAgree : Obligations.DecodeAndEncodeAgree :=
  ⟨decode_encode, fun _ _ => encode_of_decode⟩

/-! ## The decoder's checks and the lists of R84 -/

theorem opField_toNat (w : Word) : (opField w).toNat = w.toNat % 64 := by
  simp [opField]

/-- The codes that R84 lists as reserved are the ones the table of R82 leaves out. -/
theorem opOf_isSome_eq : ∀ (op : BitVec 6) (c p : Bool), (opOf op c p).isSome = !CmdWord.reservedOp op.toNat := by
  decide

theorem opOf_isSome (w : Word) : (opOf (opField w) (cField w) (pField w)).isSome = CmdWord.opAssigned w := by
  rw [opOf_isSome_eq, opField_toNat, CmdWord.opAssigned]

theorem reservedBitsClear_eq (w : Word) : reservedBitsClear w = CmdWord.reservedClear w := by
  have hlow : w.extractLsb' 6 2 = 0#2 ↔ w.toNat / 64 % 4 = 0 := by
    simp [BitVec.toNat_eq, BitVec.extractLsb'_toNat, Nat.shiftRight_eq_div_pow]
  have hhigh : w.extractLsb' 10 22 = 0#22 ↔ w.toNat / 1024 = 0 := by
    simp only [BitVec.toNat_eq, BitVec.extractLsb'_toNat, Nat.shiftRight_eq_div_pow, BitVec.toNat_ofNat]
    omega
  rw [Bool.eq_iff_iff]
  simp [reservedBitsClear, CmdWord.reservedClear, hlow, hhigh]

/-- The decoder's check of the flags is R84's, with both flags read as one number. -/
theorem flags_eq (w : Word) :
    ((cField w || pField w) && opField w != 0x01#6) = !CmdWord.flagsAllowed w := by
  have hop : (opField w != 0x01#6) = !(w.toNat % 64 == 1) := by
    rw [bne, ← opField_toNat, Bool.eq_iff_iff]
    simp [BitVec.toNat_eq]
  have hc : cField w = decide (w.toNat / 256 % 2 = 1) := by
    simp [cField, BitVec.getLsbD, Nat.testBit_eq_decide_div_mod_eq]
  have hp : pField w = decide (w.toNat / 512 % 2 = 1) := by
    simp [pField, BitVec.getLsbD, Nat.testBit_eq_decide_div_mod_eq]
  have hcp : (cField w || pField w) = !(w.toNat / 256 % 4 == 0) := by
    rw [hc, hp, Bool.eq_iff_iff]
    simp only [Bool.or_eq_true, decide_eq_true_eq, Bool.not_eq_true', beq_eq_false_iff_ne, ne_eq]
    omega
  rw [hcp, hop, CmdWord.flagsAllowed, Bool.not_or]

/-- The decoder finds an operation exactly in the words that R84 calls legal. -/
theorem decode_isOp_iff (w : Word) : (∃ i, decode w = .op i) ↔ CmdWord.wellFormed w = true := by
  rw [CmdWord.wellFormed, ← opOf_isSome, ← reservedBitsClear_eq, decode, flags_eq]
  cases opOf (opField w) (cField w) (pField w) with
  | none => simp
  | some i => cases reservedBitsClear w <;> cases CmdWord.flagsAllowed w <;> simp

/-- Settles O2: each of the decoder's checks is the condition of R84 it stands for. -/
theorem decodeRefusesExactlyIllegalWords : Obligations.DecodeRefusesExactlyIllegalWords := by
  refine ⟨decode_isOp_iff, fun w i h => ?_⟩
  obtain ⟨hop, -⟩ := decode_eq_op h
  exact hop

end Sys2Proof

namespace Sys2Proof.Machine

variable {s t : State} {i : Instr} {r : RegName}

/-- An illegal word ends in `BAD_OPCODE` (40_control.md R103). -/
theorem perform_of_illegal {w : Word} {why : Illegal} (h : decode w = .illegal why) (s : State) :
    perform w s = .next (s.raise .badOpcode) := by
  simp [perform, h]

/-- Settles O3, by evaluation of R88's words, and by what an illegal word does in every state. -/
theorem workedEncodings : Obligations.WorkedEncodings := by
  have hill : decode 0x00000102#32 = .illegal .flagNotAllowed := by decide
  exact ⟨by decide, by decide, by decide, by decide, by decide, by decide, by decide, by decide, ⟨_, hill⟩,
    fun s => ⟨_, perform_of_illegal hill s, rfl, rfl⟩⟩

/-! ## The registers an operation leaves alone -/

theorem readReg_of_regs (h : t.regs = s.regs) (hr : r ≠ .status) : t.readReg r = s.readReg r := by
  cases r with
  | status => exact absurd rfl hr
  | _ => simp only [State.readReg, h]

theorem mayWrite_gtlsState (h : isHandshakeStep i = true) : mayWrite i .gtlsState = true := by
  cases i with
  | gtlsHello | gtlsIdentify | gtlsDone => rfl
  | _ => cases h

/-- `GTLS_IDENTIFY` may write every register from `SERVER_RANDOM` up (R24, R83). -/
theorem mayWrite_gtlsIdentify (h : 0x0A0 ≤ r.offset) : mayWrite .gtlsIdentify r = true := by
  simp [mayWrite, h]

/-- Every ending writes only the registers that R83 marks for its operation. -/
theorem Ending.readReg (h : Ending s i t) (hr : r ≠ .status) (hw : mayWrite i r = false) :
    t.readReg r = s.readReg r := by
  cases h with
  | raise | nop | chunkDropped | rxAbort => exact readReg_of_regs rfl hr
  | srst => cases hw
  | failGtls hi =>
    cases r with
    | gtlsState => cases (mayWrite_gtlsState hi).symm.trans hw
    | status => exact absurd rfl hr
    | _ => rfl
  | output hi =>
    cases r with
    | dstLen => cases (hi .dstLen).symm.trans hw
    | status => exact absurd rfl hr
    | _ => rfl
  | frameMismatch =>
    cases r with
    | csumInfo => cases hw
    | status => exact absurd rfl hr
    | _ => rfl
  | frameDecoded =>
    cases r with
    | dstLen | msgId | csumInfo => cases hw
    | status => exact absurd rfl hr
    | _ => rfl
  | chunkedOut =>
    cases r with
    | dstLen | chunkCnt => cases hw
    | status => exact absurd rfl hr
    | _ => rfl
  | chunkFirst | chunkNext =>
    cases r with
    | dstLen | rxCmd | rxDeclLen | rxAcc | rxBase | rxWritten => cases hw
    | status => exact absurd rfl hr
    | _ => rfl
  | crc =>
    cases r with
    | result => cases hw
    | status => exact absurd rfl hr
    | _ => rfl
  | hello =>
    cases r with
    | dstLen | gtlsState => cases hw
    | status => exact absurd rfl hr
    | _ => rfl
  | identified =>
    cases r with
    | dstLen | gtlsState | ctrSeed => cases hw
    | serverRandom | serverIdentity | clientIdentity | symKey | symIv | hmacKey =>
      cases (mayWrite_gtlsIdentify (Nat.le_add_right_of_le (by decide))).symm.trans hw
    | status => exact absurd rfl hr
    | _ => rfl
  | established =>
    cases r with
    | dstLen | gtlsState | hmacClientCtr | hmacServerCtr => cases hw
    | status => exact absurd rfl hr
    | _ => rfl
  | sensorMismatch =>
    cases r with
    | hmacServerCtr => cases hw
    | status => exact absurd rfl hr
    | _ => rfl
  | sensorOutput =>
    cases r with
    | dstLen | hmacServerCtr => cases hw
    | status => exact absurd rfl hr
    | _ => rfl

/-- Settles O21, by the endings of an operation. -/
theorem operationsKeepUnlistedRegisters : Obligations.OperationsKeepUnlistedRegisters :=
  fun _ _ _ h _ hr hw => (exec_ending h).readReg hr hw

end Sys2Proof.Machine
end

section
/-! SUPPORT. The statements about control: what the engine's turn does with a word, `NOP` and `SRST`, and how an operation
ends or fails. -/

namespace Sys2Proof

/-! ## Illegal words -/

theorem decode_illegal_of_ne_op {w : Word} (h : ∀ i, decode w ≠ .op i) : ∃ why, decode w = .illegal why := by
  cases hd : decode w with
  | op i => exact absurd hd (h i)
  | illegal why => exact ⟨why, rfl⟩

/-- What R84's lists call illegal the decoder refuses (30_encoding.md R84, R85). -/
theorem decode_illegal_of_not_wellFormed {w : Word} (h : CmdWord.wellFormed w = false) :
    ∃ why, decode w = .illegal why :=
  decode_illegal_of_ne_op fun i hd => Bool.false_ne_true (h.symm.trans ((decode_isOp_iff w).1 ⟨i, hd⟩))

end Sys2Proof

namespace Sys2Proof.Machine

variable {s t : State} {i : Instr}

/-- An operation without flags has one word only: `OP` tells the operation, and the operation its word (R85). -/
theorem onlyWordOf_encode (hop : opField (encode i) ≠ 0x01#6) : OnlyWordOf i (encode i) := by
  refine ⟨decode_encode i, fun w' hw' hne => decode_illegal_of_ne_op fun j hj => hne ?_⟩
  obtain ⟨hi, -⟩ := decode_eq_op (decode_encode i)
  obtain ⟨hj', -⟩ := decode_eq_op hj
  rw [hw', opOf_flags _ _ _ (cField (encode i)) (pField (encode i)) hop, hi] at hj'
  cases hj'
  exact (encode_of_decode hj).symm

/-! ## The engine's turn -/

theorem perform_of_op {w : Word} (h : decode w = .op i) (s : State) : perform w s = exec i s := by
  simp [perform, h]

/-- The engine's turn with nothing pending passes (40_control.md R100). -/
theorem step_of_idle_engine (ht : nextTurn s = .engine) (hp : s.pend = none) : step s = .next s.endTurn := by
  simp [step, turnStep, ht, engineStep, hp]

/-- Settles O4, by what the engine's turn makes of a word that the decoder refuses. -/
theorem illegalWordRaisesBadOpcode : Obligations.IllegalWordRaisesBadOpcode := by
  intro s w ht hp hw
  obtain ⟨why, hd⟩ := decode_illegal_of_not_wellFormed hw
  have hstep : step s = .next (s.raise .badOpcode).retire.endTurn := by
    rw [step_of_engine ht hp, perform_of_illegal hd, onNext_next]
  exact ⟨_, hstep, rfl, rfl, rfl, fun _ => rfl, rfl, rfl, rfl, rfl⟩

/-- Settles O5, by what the engine's turn does with and without a pending word. -/
theorem stepPerformsDecodedOperation : Obligations.StepPerformsDecodedOperation := by
  refine ⟨fun s t w i ht hp hd h => ?_, fun s => step_of_idle_engine⟩
  rw [step_of_engine ht hp, perform_of_op hd, h]
  rfl

/-! ## `NOP` and `SRST` -/

/-- Settles O6: `NOP` has no flags, and its meaning is `complete` alone. -/
theorem nopOnlyCompletes : Obligations.NopOnlyCompletes :=
  ⟨onlyWordOf_encode (i := .nop) (by decide), fun _ => completesWith_of_complete_nil rfl rfl rfl rfl rfl rfl rfl⟩

theorem Status.word_reset : Status.reset.word = 0#32 := rfl

/-- Settles O7: `SRST` has no flags, and leaves the registers and `STATUS` as reset does. -/
theorem srstResetsRegisters : Obligations.SrstResetsRegisters :=
  ⟨onlyWordOf_encode (i := .srst) (by decide), fun s =>
    ⟨s.resetRegs, rfl, atResetValues_of_reset rfl rfl, Status.word_reset, rfl, fun _ => rfl, rfl, rfl, rfl, rfl, rfl⟩⟩

/-! ## How an operation ends -/

/-- No arm of `exec` faults or refuses. -/
theorem exec_eq_next (i : Instr) (s : State) : ∃ t, exec i s = .next t := by
  cases i <;> exact ⟨_, rfl⟩

theorem Ending.done (h : Ending s i t) (hi : i ≠ .srst) : t.status.done = true := by
  cases h with
  | srst => exact absurd rfl hi
  | _ => rfl

/-- Code 0 is success and no error's (60_exceptions.md R300). -/
theorem ErrCode.code_ne_zero_iff (e : ErrCode) : e.code ≠ 0#8 ↔ e ≠ .ok := by
  cases e <;> decide

/-- Settles O18, by the endings of an operation. -/
theorem everyOperationEnds : Obligations.EveryOperationEnds := by
  intro i s
  obtain ⟨t, h⟩ := exec_eq_next i s
  obtain ⟨hbusy, herr, -⟩ := (exec_ending h).status_ended
  exact ⟨t, h, hbusy, (exec_ending h).done, herr, herr.trans t.status.errcode.code_ne_zero_iff.symm⟩

/-! ## How an operation fails -/

/-- The failing endings of an operation: a failed check, and the failures to which a rule gives a diagnostic or a state
transition (40_control.md R102). -/
inductive Failure (s : State) : Instr → State → Prop
  /-- A failed check, with no other effect (R104). -/
  | raise (i : Instr) (e : ErrCode) : Failure s i (s.raise e)
  /-- A failed handshake step (44_gtls.md R240). -/
  | failGtls {i : Instr} {e : ErrCode} (hi : isHandshakeStep i = true) (he : e ≠ .badState) : Failure s i (s.failGtls e)
  /-- A refused continuation chunk (41_framing.md R135). -/
  | chunkDropped (e : ErrCode) : Failure s .chunkIn ((s.setRxActive false).raise e)
  /-- A frame's checksum refused, with its diagnostic (R126). -/
  | frameMismatch (c : Word) :
      Failure s .frameDecode (State.raise { s with regs := { s.regs with csumInfo := c } } .checksumMismatch)
  /-- A sensor payload's CRC refused, with the counter advanced (45_sensor.md R276). -/
  | sensorMismatch (c : Word) :
      Failure s .sensorDecrypt (State.raise { s with regs := { s.regs with hmacServerCtr := c } } .crcMismatch)

/-- The endings with `ERR = 1` are the failing ones. -/
theorem Ending.failure (h : Ending s i t) (he : t.status.err = true) : Failure s i t := by
  cases h with
  | raise => exact .raise _ _
  | failGtls hi _ hb => exact .failGtls hi hb
  | chunkDropped => exact .chunkDropped _
  | frameMismatch => exact .frameMismatch _
  | sensorMismatch => exact .sensorMismatch _
  | _ => cases he

theorem Failure.sameBuffer (h : Failure s i t) : SameBuffer s t := by
  cases h <;> exact fun _ => rfl

/-- Only a refused continuation chunk ends a reassembly (R135, 10_state.md R29). -/
theorem Failure.rxActive (h : Failure s i t) :
    t.status.rxActive = s.status.rxActive ∨ (i = .chunkIn ∧ s.status.rxActive = true) := by
  cases h with
  | chunkDropped =>
    cases ha : s.status.rxActive with
    | false => exact .inl rfl
    | true => exact .inr ⟨rfl, rfl⟩
  | _ => exact .inl rfl

/-- A failure writes only the register that a rule names for it, `STATUS` apart. -/
theorem Failure.readReg (h : Failure s i t) {r : RegName} (hr : r ≠ .status) :
    t.readReg r = s.readReg r ∨
      (i = .frameDecode ∧ t.status.errcode = .checksumMismatch ∧ r = .csumInfo) ∨
      (isHandshakeStep i = true ∧ t.status.errcode ≠ .badState ∧ r = .gtlsState ∧ t.regs.gtlsState = .failed) ∨
      (i = .sensorDecrypt ∧ t.status.errcode = .crcMismatch ∧ r = .hmacServerCtr) := by
  cases h with
  | raise | chunkDropped => exact .inl (readReg_of_regs rfl hr)
  | failGtls hi he =>
    cases r with
    | gtlsState => exact .inr (.inr (.inl ⟨hi, he, rfl, rfl⟩))
    | status => exact absurd rfl hr
    | _ => exact .inl rfl
  | frameMismatch =>
    cases r with
    | csumInfo => exact .inr (.inl ⟨rfl, rfl, rfl⟩)
    | status => exact absurd rfl hr
    | _ => exact .inl rfl
  | sensorMismatch =>
    cases r with
    | hmacServerCtr => exact .inr (.inr (.inr ⟨rfl, rfl, rfl⟩))
    | status => exact absurd rfl hr
    | _ => exact .inl rfl

/-- Settles O19, by the failing endings of an operation. -/
theorem failureWritesNothing : Obligations.FailureWritesNothing := by
  intro i s t h he
  have hf := (exec_ending h).failure he
  exact ⟨hf.sameBuffer, sameRest_exec h, hf.rxActive, fun r hr => hf.readReg hr⟩

end Sys2Proof.Machine
end

section
/-! SUPPORT. What the statements about framing share: what a claim about an operation says of the state it answers, what
the range checks answer, an operation's output as the next one's source, and slices of joined sequences. -/

namespace Sys2Proof.Machine

variable {i : Instr} {s t : State} {e : ErrCode} {r : Regs} {rx : Bool} {a n : Nat} {v : List Byte}

/-! ## What a claim says of the state an operation answers -/

theorem CompletesWith.of_next (h : CompletesWith i s r rx a v) (ht : exec i s = .next t) :
    t.status = { busy := false, done := true, err := false, rxActive := rx, errcode := .ok } ∧
      t.regs = r ∧ Written s t a v ∧ SameRest s t := by
  obtain ⟨u, hu, hrest⟩ := h
  cases hu.symm.trans ht
  exact hrest

theorem CompletesWith.err_eq_false (h : CompletesWith i s r rx a v) (ht : exec i s = .next t) :
    t.status.err = false := by
  rw [(h.of_next ht).1]

theorem RaisesWith.err_eq_true (h : RaisesWith i s e r rx) (ht : exec i s = .next t) : t.status.err = true := by
  obtain ⟨u, hu, hst, -⟩ := h
  cases hu.symm.trans ht
  rw [hst]

/-- An operation that succeeded has failed no check. -/
theorem not_of_raises {bad : Prop} (h : bad → RaisesWith i s e r rx) (ht : exec i s = .next t)
    (he : t.status.err = false) : ¬ bad :=
  fun hb => Bool.false_ne_true (he.symm.trans ((h hb).err_eq_true ht))

/-- No operation changes the parameters (00_scope.md R6). -/
theorem exec_params (h : exec i s = .next t) : t.params = s.params := by
  obtain ⟨-, -, hp, -⟩ := sameRest_exec h
  exact hp

/-! ## Checks -/

theorem srcOk_of_inBuf (h : InBuf s s.regs.srcAddr s.regs.srcLen.toNat) : s.srcOk = true := (srcOk_iff s).2 h

theorem srcOk_of_not_inBuf (h : ¬ InBuf s s.regs.srcAddr s.regs.srcLen.toNat) : s.srcOk = false :=
  Bool.eq_false_iff.2 (mt (srcOk_iff s).1 h)

theorem dstOk_of_inBuf (h : InBuf s s.regs.dstAddr n) : s.dstOk n = true := (dstOk_iff s n).2 h

theorem dstOk_of_not_inBuf (h : ¬ InBuf s s.regs.dstAddr n) : s.dstOk n = false :=
  Bool.eq_false_iff.2 (mt (dstOk_iff s n).1 h)

theorem toWord_toNat (w : Word) : toWord w.toNat = w := by simp [toWord]

/-! ## Reading back what an operation wrote -/

/-- The state `t` that an operation in `s` answered, with the operation's output named as the next one's source, and
`dst` as its destination. -/
def readBack (s t : State) (dst : Word) : State :=
  { t with regs := { t.regs with srcAddr := s.regs.dstAddr, srcLen := t.regs.dstLen, dstAddr := dst } }

section

variable (hw : Written s t s.regs.dstAddr.toNat v) (hl : t.regs.dstLen = toWord v.length) (hv : v.length < 2 ^ 32)
  (dst : Word)

include hl hv in
theorem readBack_srcLen : (readBack s t dst).regs.srcLen.toNat = v.length := by
  rw [← toNat_toWord hv, ← hl]
  rfl

include hw hl hv in
theorem readBack_src : (readBack s t dst).src = v := by
  show t.memRead s.regs.dstAddr.toNat (readBack s t dst).regs.srcLen.toNat = v
  rw [readBack_srcLen hl hv dst, memRead_of_written hw]

include hl hv in
theorem readBack_inBuf (hp : t.params = s.params) (hd : InBuf s s.regs.dstAddr v.length) :
    InBuf (readBack s t dst) (readBack s t dst).regs.srcAddr (readBack s t dst).regs.srcLen.toNat := by
  rw [readBack_srcLen hl hv dst]
  show s.regs.dstAddr.toNat + v.length ≤ t.params.bufSize
  rw [hp]
  exact hd

theorem readBack_dst_inBuf (hp : t.params = s.params) (hd : InBuf s dst n) :
    InBuf (readBack s t dst) (readBack s t dst).regs.dstAddr n := by
  show dst.toNat + n ≤ t.params.bufSize
  rw [hp]
  exact hd

end

/-! ## Bytes -/

theorem slice_append_left {b c : List Byte} {j k : Nat} (h : k ≤ b.length) : slice (b ++ c) j k = slice b j k := by
  simp [slice, List.drop_append, List.take_append, show k - j - (b.length - j) = 0 by omega]

theorem slice_cons_succ (x : Byte) (b : List Byte) (k : Nat) : slice (x :: b) 1 (1 + k) = slice b 0 k := by
  rw [slice, slice, Nat.add_sub_cancel_left]
  rfl

theorem slice_append_right (b c : List Byte) (j k : Nat) :
    slice (b ++ c) (b.length + j) (b.length + k) = slice c j k := by
  rw [slice, slice, List.drop_length_add_append, Nat.add_sub_add_left]

end Sys2Proof.Machine
end

section
/-! SUPPORT. The statements about frames: their checksum, their layout, and what the two framing operations make of
them. -/

namespace Sys2Proof.Machine

variable {s t : State} {q : Params} {c p : Bool} {category command : Byte} {payload : List Byte}

/-! ## The checksum -/

/-- Settles O25: the difference of R120 is an integer, so the sum gives the base back before it is reduced. -/
theorem frameChecksumLaw : Obligations.FrameChecksumLaw := by
  intro base b
  have h : (((b.map BitVec.toNat).sum + (fcsum base b).toNat : Nat) : Int) % 256 = (base : Int) % 256 := by
    rw [fcsum, Nat.cast_add, BitVec.toNat_ofInt]
    omega
  exact_mod_cast h

/-! ## The command byte -/

theorem commandByte_toNat (hcat : category.toNat ≤ 0xF) (hcmd : command.toNat ≤ 0x7) :
    (commandByte category command).toNat = 16 * category.toNat + 2 * command.toNat := by
  have hlow : (command <<< 1).toNat = 2 * command.toNat := by
    rw [BitVec.toNat_shiftLeft, Nat.shiftLeft_eq]
    omega
  have hhigh : (category <<< 4).toNat = category.toNat <<< 4 := by
    rw [BitVec.toNat_shiftLeft, Nat.shiftLeft_eq]
    omega
  rw [commandByte, BitVec.toNat_or, hlow, hhigh, ← Nat.shiftLeft_add_eq_or_of_lt (by omega), Nat.shiftLeft_eq]
  omega

theorem categoryOf_toNat (b : Byte) : (categoryOf b).toNat = b.toNat / 16 := by
  rw [categoryOf, BitVec.extractLsb'_toNat, Nat.shiftRight_eq_div_pow]
  omega

theorem commandOf_toNat (b : Byte) : (commandOf b).toNat = b.toNat / 2 % 8 := by
  rw [commandOf, BitVec.extractLsb'_toNat, Nat.shiftRight_eq_div_pow]

theorem continuationFlag_eq (b : Byte) : continuationFlag b = decide (b.toNat % 2 = 1) := by
  simp [continuationFlag, BitVec.getLsbD, Nat.testBit_eq_decide_div_mod_eq]

/-- `MSG_ID` of a command byte as a number (10_state.md R27). -/
theorem msgIdOf_eq_toWord (b : Byte) : msgIdOf b = toWord (b.toNat / 16 + 256 * (b.toNat / 2 % 8)) := by
  have hlow : ((categoryOf b).setWidth 8).toNat < 2 ^ 8 := BitVec.isLt _
  apply BitVec.eq_of_toNat_eq
  rw [toNat_toWord (by omega), msgIdOf, BitVec.toNat_append, BitVec.toNat_append,
    ← Nat.shiftLeft_add_eq_or_of_lt hlow, Nat.shiftLeft_eq, BitVec.toNat_setWidth, BitVec.toNat_setWidth,
    commandOf_toNat, categoryOf_toNat]
  simp
  omega

/-- `CSUM_INFO` as a number (10_state.md R28). -/
theorem csumInfo_eq_toWord (sentinel received expected : Byte) :
    csumInfo sentinel received expected =
      toWord (received.toNat + 256 * expected.toNat + if received = sentinel then 65536 else 0) := by
  have hflag : (0#15 ++ BitVec.ofBool (received == sentinel)).toNat = if received = sentinel then 1 else 0 := by
    by_cases h : received = sentinel <;> simp [h, beq_eq_false_iff_ne.2]
  have hr := received.isLt
  have he := expected.isLt
  apply BitVec.eq_of_toNat_eq
  rw [toNat_toWord (by split <;> omega), csumInfo, BitVec.toNat_append, ← Nat.shiftLeft_add_eq_or_of_lt hr,
    BitVec.toNat_append, ← Nat.shiftLeft_add_eq_or_of_lt he, hflag, Nat.shiftLeft_eq, Nat.shiftLeft_eq]
  split <;> omega

/-! ## The layout of a frame -/

/-- The bytes of a frame that its checksum covers (41_framing.md R121). -/
def frameBody (category command : Byte) (payload : List Byte) : List Byte :=
  commandByte category command :: toLE16 (payload.length + 1) ++ payload

/-- A frame is its body and one byte more. -/
theorem frame_eq (q : Params) (c : Bool) (category command : Byte) (payload : List Byte) :
    frame q c category command payload = frameBody category command payload ++
      [if c then fcsum q.csumBase (frameBody category command payload) else q.sentinel] := rfl

@[simp] theorem frameBody_length (category command : Byte) (payload : List Byte) :
    (frameBody category command payload).length = payload.length + 3 := by
  simp [frameBody]
  omega

@[simp] theorem frame_length (q : Params) (c : Bool) (category command : Byte) (payload : List Byte) :
    (frame q c category command payload).length = payload.length + 4 := by
  simp [frame_eq]

/-- Padding puts zeros behind the frame, if anything (R122). -/
theorem padToChunk_eq (chunk : Nat) (f : List Byte) : ∃ k, padToChunk chunk f = f ++ bytes k 0#8 := by
  unfold padToChunk
  split
  · exact ⟨_, rfl⟩
  · exact ⟨0, by simp [bytes]⟩

theorem encodedFrame_eq (q : Params) (c p : Bool) (category command : Byte) (payload : List Byte) :
    ∃ k, encodedFrame q c p category command payload = frame q c category command payload ++ bytes k 0#8 := by
  cases p with
  | false => exact ⟨0, by simp [encodedFrame, bytes]⟩
  | true => exact padToChunk_eq _ _

/-- The padded length is the next multiple of the chunk size (R123). -/
theorem padToChunk_length {chunk : Nat} (h : 0 < chunk) (f : List Byte) :
    (padToChunk chunk f).length = chunk * ceilDiv f.length chunk := by
  obtain ⟨m, hm⟩ : ∃ m, f.length = chunk * m + f.length % chunk := ⟨_, (Nat.div_add_mod _ _).symm⟩
  have hlt := Nat.mod_lt f.length h
  by_cases hr : f.length % chunk = 0
  · have hq : ceilDiv f.length chunk = m := by
      rw [ceilDiv, hm, hr, show chunk * m + 0 + chunk - 1 = chunk - 1 + chunk * m by omega, Nat.add_mul_div_left _ _ h,
        Nat.div_eq_of_lt (by omega), Nat.zero_add]
    simp [padToChunk, hr, hq]
    omega
  · have hq : ceilDiv f.length chunk = m + 1 := by
      rw [ceilDiv, show f.length + chunk - 1 = f.length % chunk - 1 + chunk * (m + 1) by rw [Nat.mul_succ]; omega,
        Nat.add_mul_div_left _ _ h, Nat.div_eq_of_lt (by omega), Nat.zero_add]
    simp [padToChunk, hr, hq, Nat.mul_succ]
    omega

/-! Whatever follows the frame, its fields are read from its own bytes. -/

theorem byteAt_frame_zero (z : List Byte) :
    byteAt (frame q c category command payload ++ z) 0 = commandByte category command := rfl

theorem le16_slice_frame (h : payload.length ≤ 65534) (z : List Byte) :
    le16 (slice (frame q c category command payload ++ z) 1 3) = payload.length + 1 :=
  le16_toLE16 (v := payload.length + 1) (by omega) []

theorem slice_frame_payload (z : List Byte) :
    slice (frame q c category command payload ++ z) 3 (payload.length + 3) = payload := by
  rw [frame_eq, List.append_assoc, slice_append_left (by simp)]
  simp [slice, frameBody, toLE16_eq]

theorem slice_frame_body (z : List Byte) :
    slice (frame q c category command payload ++ z) 0 (payload.length + 3) = frameBody category command payload := by
  rw [frame_eq, List.append_assoc, slice_append_left (by simp)]
  exact List.take_of_length_le (by simp)

theorem byteAt_frame_checksum (z : List Byte) :
    byteAt (frame q c category command payload ++ z) (payload.length + 3) =
      if c then fcsum q.csumBase (frameBody category command payload) else q.sentinel := by
  rw [frame_eq, List.append_assoc, byteAt_append_right (by simp), frameBody_length, Nat.sub_self]
  rfl

/-- Settles O26: the frame is its body and its checksum, and zeros are all that follows. -/
theorem frameLayout : Obligations.FrameLayout := by
  intro q c p category command payload hcat hcmd hn hchunk f n
  obtain ⟨k, hf⟩ : ∃ k, f = frame q c category command payload ++ bytes k 0#8 := encodedFrame_eq _ _ _ _ _ _
  have hbyte : (byteAt f 0).toNat = 16 * category.toNat + 2 * command.toNat := by
    rw [hf, byteAt_frame_zero, commandByte_toNat hcat hcmd]
  refine ⟨hbyte, ?_, ?_, ?_, ?_, ?_, ?_, ?_, ?_⟩
  · rw [categoryOf_toNat, hbyte]
    omega
  · rw [commandOf_toNat, hbyte]
    omega
  · rw [continuationFlag_eq, hbyte]
    exact decide_eq_false (by omega)
  · rw [hf, le16_slice_frame hn]
  · rw [hf, slice_frame_payload]
  · rw [hf, byteAt_frame_checksum, slice_frame_body]
  · cases p with
    | false => exact frame_length _ _ _ _ _
    | true => exact (padToChunk_length hchunk _).trans (by rw [frame_length]; rfl)
  · intro i hi hlt
    rw [hf] at hlt ⊢
    simp only [List.length_append, frame_length, bytes_length] at hlt
    rw [byteAt_append_right (by rw [frame_length]; exact hi), frame_length, byteAt_bytes _ (by omega)]

/-! ## `FRAME_ENCODE` -/

theorem frameEncode_msgId_iff (s : State) :
    (s.msgReserved != 0#16 || decide (0x0F#8 < s.msgCategory) || decide (0x07#8 < s.msgCommand)) = true ↔
      0x10000 ≤ s.regs.msgId.toNat ∨ 0xF < s.regs.msgId.toNat % 256 ∨ 0x7 < s.regs.msgId.toNat / 256 % 256 := by
  have hid := s.regs.msgId.isLt
  simp only [State.msgReserved, State.msgCategory, State.msgCommand, Bool.or_eq_true, bne_iff_ne, ne_eq,
    decide_eq_true_eq, BitVec.toNat_eq, BitVec.lt_def, BitVec.extractLsb'_toNat, Nat.shiftRight_eq_div_pow,
    BitVec.toNat_ofNat]
  omega

theorem msgCategory_eq (s : State) : s.msgCategory = BitVec.ofNat 8 s.regs.msgId.toNat := by
  apply BitVec.eq_of_toNat_eq
  simp [State.msgCategory]

theorem msgCommand_eq (s : State) : s.msgCommand = BitVec.ofNat 8 (s.regs.msgId.toNat / 256) := by
  apply BitVec.eq_of_toNat_eq
  simp [State.msgCommand, Nat.shiftRight_eq_div_pow]

/-- The checks of R122 that come before the frame is made. -/
def FrameEncodeRefuses (s : State) : Prop :=
  (0x10000 ≤ s.regs.msgId.toNat ∨ 0xF < s.regs.msgId.toNat % 256 ∨ 0x7 < s.regs.msgId.toNat / 256 % 256) ∨
    s.params.maxPayload < s.regs.srcLen.toNat ∨ ¬ InBuf s s.regs.srcAddr s.regs.srcLen.toNat

theorem exec_frameEncode_of_refuses (c p : Bool) (h : FrameEncodeRefuses s) :
    exec (.frameEncode c p) s = .next (s.raise .badOperand) := by
  show Host.Outcome.next (ite _ _ _) = _
  rcases h with hid | hmax | hsrc
  · rw [if_pos ((frameEncode_msgId_iff s).2 hid)]
  · rw [if_pos (show s.params.maxPayload < s.srcLen from hmax), ite_self]
  · rw [srcOk_of_not_inBuf hsrc, Bool.not_false, if_pos rfl, ite_self, ite_self]

theorem exec_frameEncode (c p : Bool) (h : ¬ FrameEncodeRefuses s) :
    exec (.frameEncode c p) s =
      .next (s.finish (encodedFrame s.params c p s.msgCategory s.msgCommand s.src).length
        (encodedFrame s.params c p s.msgCategory s.msgCommand s.src)) := by
  obtain ⟨hid, hmax, hsrc⟩ := (not_or.1 h).imp_right not_or.1
  show Host.Outcome.next (ite _ _ _) = _
  rw [if_neg (mt (frameEncode_msgId_iff s).1 hid), if_neg (show ¬ s.params.maxPayload < s.srcLen from hmax),
    srcOk_of_inBuf (not_not.1 hsrc), Bool.not_true, if_neg Bool.false_ne_true]

/-- The operation's word is its encoding, so decoding gives the operation back (30_encoding.md R88). -/
theorem decode_frameEncode_word (c p : Bool) :
    decode (BitVec.ofNat 32 (1 + (if c then 256 else 0) + (if p then 512 else 0))) = .op (.frameEncode c p) := by
  cases c <;> cases p <;> decide

/-- Settles O27: the first checks, then whether the frame fits where it is to be written. -/
theorem frameEncodeResult : Obligations.FrameEncodeResult := by
  intro c p s id f bad
  have hf : encodedFrame s.params c p s.msgCategory s.msgCommand s.src = f := by rw [msgCategory_eq, msgCommand_eq]
  have hbad : bad ↔ FrameEncodeRefuses s ∨ ¬ InBuf s s.regs.dstAddr f.length := by
    simp only [bad, id, FrameEncodeRefuses, or_assoc]
  refine ⟨decode_frameEncode_word c p, fun hb => ?_, fun hb => ?_⟩
  · by_cases hr : FrameEncodeRefuses s
    · exact raisesWith_raise (exec_frameEncode_of_refuses c p hr)
    · have hexec := exec_frameEncode c p hr
      rw [hf] at hexec
      exact raisesWith_finish hexec ((hbad.1 hb).resolve_left hr)
  · obtain ⟨hr, hd⟩ := not_or.1 (mt hbad.2 hb)
    have hexec := exec_frameEncode c p hr
    rw [hf] at hexec
    exact completesWith_finish hexec (not_not.1 hd)

/-! ## `FRAME_DECODE` -/

/-- The length field of the frame at `src` (R121). -/
def State.frameLen (s : State) : Nat := le16 (slice s.src 1 3)

/-- The checks 2 to 5 of R126. -/
def MalformedFrame (s : State) : Prop :=
  s.regs.srcLen.toNat < 3 ∨ (byteAt s.src 0).toNat % 2 = 1 ∨ s.frameLen = 0 ∨ s.regs.srcLen.toNat < 3 + s.frameLen

/-- The checksum byte of the frame at `src`. -/
def State.receivedChecksum (s : State) : Byte := byteAt s.src (2 + s.frameLen)

/-- The checksum of the bytes before it. -/
def State.expectedChecksum (s : State) : Byte := fcsum s.params.csumBase (slice s.src 0 (2 + s.frameLen))

/-- `CSUM_INFO` as `FRAME_DECODE` writes it. -/
def State.withCsumInfo (s : State) : State :=
  { s with regs := { s.regs with csumInfo := csumInfo s.params.sentinel s.receivedChecksum s.expectedChecksum } }

/-- The end of `FRAME_DECODE` that accepts the frame. -/
def State.frameDecoded (s : State) : State :=
  { s.output (s.frameLen - 1) (slice s.src 3 (2 + s.frameLen)) with
    regs := { s.withCsumInfo.regs with dstLen := toWord (s.frameLen - 1), msgId := msgIdOf (byteAt s.src 0) } }

theorem exec_frameDecode_eq (s : State) : exec .frameDecode s = .next (
    if !s.srcOk then s.raise .badOperand
    else if s.regs.srcLen.toNat < 3 then s.raise .framingError
    else if continuationFlag (byteAt s.src 0) then s.raise .framingError
    else if s.frameLen = 0 then s.raise .framingError
    else if s.regs.srcLen.toNat < 3 + s.frameLen then s.raise .framingError
    else if !s.dstOk (s.frameLen - 1) then s.raise .badOperand
    else if s.receivedChecksum != s.params.sentinel && s.receivedChecksum != s.expectedChecksum then
      s.withCsumInfo.raise .checksumMismatch
    else s.frameDecoded.complete) := rfl

theorem exec_frameDecode_of_not_src (hs : ¬ InBuf s s.regs.srcAddr s.regs.srcLen.toNat) :
    exec .frameDecode s = .next (s.raise .badOperand) := by
  rw [exec_frameDecode_eq, srcOk_of_not_inBuf hs]
  rfl

theorem exec_frameDecode_of_malformed (hs : InBuf s s.regs.srcAddr s.regs.srcLen.toNat) (hm : MalformedFrame s) :
    exec .frameDecode s = .next (s.raise .framingError) := by
  rw [exec_frameDecode_eq, srcOk_of_inBuf hs, continuationFlag_eq]
  rcases hm with h | h | h | h <;> simp [h]

/-- A frame with a well-formed header is left with the checks 6 and 7. -/
theorem exec_frameDecode_of_wellFormed (hs : InBuf s s.regs.srcAddr s.regs.srcLen.toNat) (hm : ¬ MalformedFrame s) :
    exec .frameDecode s = .next (
      if !s.dstOk (s.frameLen - 1) then s.raise .badOperand
      else if s.receivedChecksum != s.params.sentinel && s.receivedChecksum != s.expectedChecksum then
        s.withCsumInfo.raise .checksumMismatch
      else s.frameDecoded.complete) := by
  simp only [MalformedFrame, not_or] at hm
  obtain ⟨h3, hflag, hlen, hn⟩ := hm
  rw [exec_frameDecode_eq, srcOk_of_inBuf hs, continuationFlag_eq]
  simp only [h3, hflag, hlen, hn, Bool.not_true, decide_false, Bool.false_eq_true, if_false]

/-- A wrong checksum leaves its diagnostic (R126). -/
theorem raisesWith_frameDecode (hs : InBuf s s.regs.srcAddr s.regs.srcLen.toNat) (hm : ¬ MalformedFrame s)
    (hd : InBuf s s.regs.dstAddr (s.frameLen - 1)) (hsent : s.receivedChecksum ≠ s.params.sentinel)
    (hexp : s.receivedChecksum ≠ s.expectedChecksum) :
    RaisesWith .frameDecode s .checksumMismatch s.withCsumInfo.regs s.status.rxActive := by
  refine raisesWith_of_raise (s' := s.withCsumInfo) ?_ rfl rfl rfl rfl rfl rfl
  rw [exec_frameDecode_of_wellFormed hs hm, dstOk_of_inBuf hd]
  simp [hsent, hexp]

/-- A right checksum, or the sentinel, lets the payload through (R126). -/
theorem completesWith_frameDecode (hs : InBuf s s.regs.srcAddr s.regs.srcLen.toNat) (hm : ¬ MalformedFrame s)
    (hd : InBuf s s.regs.dstAddr (s.frameLen - 1))
    (hc : s.receivedChecksum = s.params.sentinel ∨ s.receivedChecksum = s.expectedChecksum) :
    CompletesWith .frameDecode s s.frameDecoded.regs s.status.rxActive s.regs.dstAddr.toNat
      (slice s.src 3 (2 + s.frameLen)) := by
  refine completesWith_of_complete (s' := s.frameDecoded) ?_ rfl rfl rfl rfl rfl rfl
  rw [exec_frameDecode_of_wellFormed hs hm, dstOk_of_inBuf hd]
  rcases hc with hc | hc <;> simp [hc]

/-- Settles O28: the checks in their order, and the diagnostics as numbers. -/
theorem frameDecodeResult : Obligations.FrameDecodeResult := by
  intro s n f len malformed rcv expected info
  have hinfo : s.withCsumInfo.regs = { s.regs with csumInfo := info } := by
    rw [State.withCsumInfo, csumInfo_eq_toWord]
    rfl
  refine ⟨onlyWordOf_encode (i := .frameDecode) (by decide),
    fun hs => raisesWith_raise (exec_frameDecode_of_not_src hs),
    fun hs hm => raisesWith_raise (exec_frameDecode_of_malformed hs hm), fun hs hm hd => ?_,
    fun hs hm hd hsent hexp => ?_, fun hs hm hd hc => ?_⟩
  · refine raisesWith_raise ?_
    rw [exec_frameDecode_of_wellFormed hs hm, dstOk_of_not_inBuf (n := s.frameLen - 1) hd]
    rfl
  · rw [← hinfo]
    exact raisesWith_frameDecode hs hm hd hsent hexp
  · have h := completesWith_frameDecode hs hm hd hc
    rw [State.frameDecoded, hinfo, msgIdOf_eq_toWord] at h
    exact h

/-- Settles O30: what the checksum decides is whether the operation completes or raises. -/
theorem decodeAcceptsChecksumOrSentinel : Obligations.DecodeAcceptsChecksumOrSentinel := by
  intro s t ht hs h3 hflag hlen hn hd
  have hm : ¬ MalformedFrame s := by
    rw [continuationFlag_eq, decide_eq_false_iff_not] at hflag
    simp only [MalformedFrame, not_or]
    exact ⟨Nat.not_lt.2 h3, hflag, hlen, Nat.not_lt.2 hn⟩
  constructor
  · intro he
    by_contra hc
    obtain ⟨hexp, hsent⟩ := not_or.1 hc
    exact not_of_raises (fun _ : True => raisesWith_frameDecode hs hm hd hsent hexp) ht he trivial
  · exact fun hc => (completesWith_frameDecode hs hm hd hc.symm).err_eq_false ht

/-! ## Decoding what was encoded -/

section

variable {z : List Byte} (hsrc : s.src = frame s.params c category command payload ++ z)
  (hn : payload.length ≤ 65534)

include hsrc hn

theorem frameLen_of_frame : s.frameLen = payload.length + 1 := by
  rw [State.frameLen, hsrc, le16_slice_frame hn]

theorem checksum_of_frame : s.receivedChecksum = s.params.sentinel ∨ s.receivedChecksum = s.expectedChecksum := by
  rw [State.expectedChecksum, State.receivedChecksum, frameLen_of_frame hsrc hn, hsrc,
    show 2 + (payload.length + 1) = payload.length + 3 by omega, byteAt_frame_checksum, slice_frame_body]
  cases c with
  | false => exact .inl rfl
  | true => exact .inr rfl

theorem not_malformed_of_frame (hcat : category.toNat ≤ 0xF) (hcmd : command.toNat ≤ 0x7) : ¬ MalformedFrame s := by
  have hlen : s.regs.srcLen.toNat = payload.length + 4 + z.length := by
    have := congrArg List.length hsrc
    rwa [src_length, List.length_append, frame_length] at this
  have hbyte : (byteAt s.src 0).toNat = 16 * category.toNat + 2 * command.toNat := by
    rw [hsrc, byteAt_frame_zero, commandByte_toNat hcat hcmd]
  rw [MalformedFrame, frameLen_of_frame hsrc hn, hbyte]
  omega

/-- `FRAME_DECODE` on the frame of a message, whatever follows it, yields the message (R127). -/
theorem completesWith_frameDecode_of_frame (hcat : category.toNat ≤ 0xF) (hcmd : command.toNat ≤ 0x7)
    (hs : InBuf s s.regs.srcAddr s.regs.srcLen.toNat) (hd : InBuf s s.regs.dstAddr payload.length) :
    CompletesWith .frameDecode s
      { s.withCsumInfo.regs with
        dstLen := toWord payload.length, msgId := toWord (category.toNat + 256 * command.toNat) }
      s.status.rxActive s.regs.dstAddr.toNat payload := by
  have hlen := frameLen_of_frame hsrc hn
  have h := completesWith_frameDecode hs (not_malformed_of_frame hsrc hn hcat hcmd) (by rw [hlen]; exact hd)
    (checksum_of_frame hsrc hn)
  have hid : msgIdOf (byteAt s.src 0) = toWord (category.toNat + 256 * command.toNat) := by
    rw [hsrc, byteAt_frame_zero, msgIdOf_eq_toWord, commandByte_toNat hcat hcmd]
    congr 1
    omega
  have hpayload : slice s.src 3 (2 + (payload.length + 1)) = payload := by
    rw [hsrc, show 2 + (payload.length + 1) = payload.length + 3 by omega, slice_frame_payload]
  rwa [State.frameDecoded, hlen, hid, hpayload] at h

end

/-- `MSG_ID` is its two fields, when its reserved bits are 0 (10_state.md R27). -/
theorem msgId_eq_toWord {w : Word} (h : w.toNat < 0x10000) :
    toWord ((BitVec.ofNat 8 w.toNat).toNat + 256 * (BitVec.ofNat 8 (w.toNat / 256)).toNat) = w := by
  apply BitVec.eq_of_toNat_eq
  rw [BitVec.toNat_ofNat, BitVec.toNat_ofNat, toNat_toWord (by omega)]
  omega

/-- Settles O29: the bytes written are a frame and zeros, whose fields `FRAME_DECODE` reads. -/
theorem frameRoundTrip : Obligations.FrameRoundTrip := by
  intro c p s t dst hbuf ht he hn hdst
  obtain ⟨-, hraises, hcompletes⟩ := frameEncodeResult c p s
  have hok := not_of_raises hraises ht he
  obtain ⟨-, hregs, hwritten, -, -, hparams, -⟩ := (hcompletes hok).of_next ht
  simp only [not_or, Nat.not_le, Nat.not_lt] at hok
  obtain ⟨hid, hcat, hcmd, -, -, hfit⟩ := hok
  obtain ⟨k, hf⟩ := encodedFrame_eq s.params c p (BitVec.ofNat 8 s.regs.msgId.toNat)
    (BitVec.ofNat 8 (s.regs.msgId.toNat / 256)) s.src
  rw [hf] at hregs hwritten hfit
  have hlen := congrArg Regs.dstLen hregs
  have hsmall := (Nat.le_add_left _ _).trans_lt (hfit.trans_lt hbuf)
  have hsrc := readBack_src hwritten hlen hsmall dst
  have hin := readBack_inBuf hlen hsmall dst hparams hfit
  rw [← hparams] at hsrc
  obtain ⟨u, hu, hst, hureg, huw, -⟩ := completesWith_frameDecode_of_frame hsrc ((src_length s).trans_le hn)
    (by rwa [BitVec.toNat_ofNat]) (by rwa [BitVec.toNat_ofNat]) hin
    (readBack_dst_inBuf dst hparams (by rw [src_length]; exact hdst))
  refine ⟨u, hu, by rw [hst], ?_, ?_, ?_⟩
  · rw [hureg]
    exact msgId_eq_toWord hid
  · rw [hureg, src_length]
    exact toWord_toNat _
  · have := memRead_of_written huw
    rwa [src_length] at this

end Sys2Proof.Machine
end

section
/-! SUPPORT. The statements about the MCU envelope. -/

namespace Sys2Proof.Machine

variable {s t : State} {dataType : Nat} {body : List Byte}

/-! ## The payload (41_framing.md R145) -/

@[simp] theorem mcuPayload_length (dataType : Nat) (body : List Byte) :
    (mcuPayload dataType body).length = 8 + body.length := by
  simp [mcuPayload]
  omega

theorem mcuTag_mcuPayload (h : dataType < 2 ^ 32) : mcuTag (mcuPayload dataType body) = dataType :=
  le32_toLE32 h []

theorem mcuDeclared_mcuPayload (h : 8 + body.length < 2 ^ 32) :
    mcuDeclared (mcuPayload dataType body) = 8 + body.length :=
  le32_toLE32 h []

theorem slice_mcuPayload_body : slice (mcuPayload dataType body) 8 (8 + body.length) = body := by
  simp [slice, mcuPayload, toLE32_eq]

/-! ## `MCU_WRAP` -/

theorem exec_mcuWrap_of_not_src (hs : ¬ InBuf s s.regs.srcAddr s.regs.srcLen.toNat) :
    exec .mcuWrap s = .next (s.raise .badOperand) := by
  show Host.Outcome.next (ite _ _ _) = _
  rw [srcOk_of_not_inBuf hs]
  rfl

theorem exec_mcuWrap (hs : InBuf s s.regs.srcAddr s.regs.srcLen.toNat) :
    exec .mcuWrap s = .next (s.finish (8 + s.srcLen) (mcuPayload s.regs.aux.toNat s.src)) := by
  show Host.Outcome.next (ite _ _ _) = _
  rw [srcOk_of_inBuf hs]
  rfl

theorem completesWith_mcuWrap (hs : InBuf s s.regs.srcAddr s.regs.srcLen.toNat)
    (hd : InBuf s s.regs.dstAddr (8 + s.regs.srcLen.toNat)) :
    CompletesWith .mcuWrap s { s.regs with dstLen := toWord (8 + s.regs.srcLen.toNat) } s.status.rxActive
      s.regs.dstAddr.toNat (mcuPayload s.regs.aux.toNat s.src) :=
  completesWith_finish (exec_mcuWrap hs) hd

/-- Settles O37: the source's check, then the output's. -/
theorem mcuWrapResult : Obligations.McuWrapResult := by
  intro s n m bad
  refine ⟨onlyWordOf_encode (i := .mcuWrap) (by decide), fun hb => ?_, fun hb => ?_⟩
  · by_cases hs : InBuf s s.regs.srcAddr n
    · exact raisesWith_finish (exec_mcuWrap hs) (hb.resolve_left (not_not.2 hs))
    · exact raisesWith_raise (exec_mcuWrap_of_not_src hs)
  · obtain ⟨hs, hd⟩ := not_or.1 hb
    have h := completesWith_mcuWrap (not_not.1 hs) (not_not.1 hd)
    rwa [mcuPayload, src_length] at h

/-! ## `MCU_UNWRAP` -/

/-- The checks 2 and 3 of R148. -/
def McuMismatch (s : State) : Prop :=
  s.regs.srcLen.toNat < 8 ∨ mcuTag s.src ≠ s.regs.aux.toNat ∨ mcuDeclared s.src ≠ s.regs.srcLen.toNat

theorem exec_mcuUnwrap_of_not_src (hs : ¬ InBuf s s.regs.srcAddr s.regs.srcLen.toNat) :
    exec .mcuUnwrap s = .next (s.raise .badOperand) := by
  show Host.Outcome.next (ite _ _ _) = _
  rw [srcOk_of_not_inBuf hs]
  rfl

theorem exec_mcuUnwrap_eq (hs : InBuf s s.regs.srcAddr s.regs.srcLen.toNat) : exec .mcuUnwrap s = .next (
    if s.regs.srcLen.toNat < 8 then s.raise .protocolMismatch
    else if mcuTag s.src != s.regs.aux.toNat then s.raise .protocolMismatch
    else if mcuDeclared s.src != s.regs.srcLen.toNat then s.raise .protocolMismatch
    else s.finish (s.regs.srcLen.toNat - 8) (slice s.src 8 s.regs.srcLen.toNat)) := by
  show Host.Outcome.next (ite _ _ _) = _
  rw [srcOk_of_inBuf hs]
  rfl

theorem exec_mcuUnwrap_of_mismatch (hs : InBuf s s.regs.srcAddr s.regs.srcLen.toNat) (hm : McuMismatch s) :
    exec .mcuUnwrap s = .next (s.raise .protocolMismatch) := by
  rw [exec_mcuUnwrap_eq hs]
  rcases hm with h | h | h <;> simp [h]

theorem exec_mcuUnwrap (hs : InBuf s s.regs.srcAddr s.regs.srcLen.toNat) (hm : ¬ McuMismatch s) :
    exec .mcuUnwrap s = .next (s.finish (s.regs.srcLen.toNat - 8) (slice s.src 8 s.regs.srcLen.toNat)) := by
  simp only [McuMismatch, not_or, not_not] at hm
  obtain ⟨hn, htag, hdecl⟩ := hm
  rw [exec_mcuUnwrap_eq hs, if_neg hn, htag, hdecl]
  simp

/-- Settles O38: the checks in their order. -/
theorem mcuUnwrapResult : Obligations.McuUnwrapResult := by
  intro s n m mismatch
  exact ⟨onlyWordOf_encode (i := .mcuUnwrap) (by decide),
    fun hs => raisesWith_raise (exec_mcuUnwrap_of_not_src hs),
    fun hs hm => raisesWith_raise (exec_mcuUnwrap_of_mismatch hs hm),
    fun hs hm hd => raisesWith_finish (exec_mcuUnwrap hs hm) hd,
    fun hs hm hd => completesWith_finish (exec_mcuUnwrap hs hm) hd⟩

/-- `MCU_UNWRAP` on a payload with `AUX`'s tag yields its body (R148). -/
theorem completesWith_mcuUnwrap_of_payload (hsrc : s.src = mcuPayload s.regs.aux.toNat body)
    (hs : InBuf s s.regs.srcAddr s.regs.srcLen.toNat) (hd : InBuf s s.regs.dstAddr body.length) :
    CompletesWith .mcuUnwrap s { s.regs with dstLen := toWord body.length } s.status.rxActive s.regs.dstAddr.toNat
      body := by
  have hlen : s.regs.srcLen.toNat = 8 + body.length := by
    have := congrArg List.length hsrc
    rwa [src_length, mcuPayload_length] at this
  have hm : ¬ McuMismatch s := by
    rw [McuMismatch, hsrc, mcuTag_mcuPayload s.regs.aux.isLt,
      mcuDeclared_mcuPayload (hlen ▸ s.regs.srcLen.isLt), hlen]
    simp
  have hexec := exec_mcuUnwrap hs hm
  rw [hlen, hsrc, slice_mcuPayload_body, Nat.add_sub_cancel_left] at hexec
  exact completesWith_finish hexec hd

/-- Settles O39: the bytes written are the payload, whose body `MCU_UNWRAP` takes. -/
theorem mcuUnwrapInvertsWrap : Obligations.McuUnwrapInvertsWrap := by
  intro s t dst hbuf ht he hdst
  obtain ⟨-, hraises, -⟩ := mcuWrapResult s
  have hok := not_of_raises hraises ht he
  simp only [not_or, not_not] at hok
  obtain ⟨hs, hfit⟩ := hok
  obtain ⟨-, hregs, hwritten, -, -, hparams, -⟩ := (completesWith_mcuWrap hs hfit).of_next ht
  have hn : 8 + s.regs.srcLen.toNat = (mcuPayload s.regs.aux.toNat s.src).length := by
    rw [mcuPayload_length, src_length]
    rfl
  rw [hn] at hregs hfit
  have hlen := congrArg Regs.dstLen hregs
  have hsmall := (Nat.le_add_left _ _).trans_lt (hfit.trans_lt hbuf)
  have hsrc : (readBack s t dst).src = mcuPayload (readBack s t dst).regs.aux.toNat s.src := by
    rw [readBack_src hwritten hlen hsmall, readBack, hregs]
  obtain ⟨u, hu, hst, hureg, huw, -⟩ := completesWith_mcuUnwrap_of_payload hsrc
    (readBack_inBuf hlen hsmall dst hparams hfit) (readBack_dst_inBuf dst hparams (by rw [src_length]; exact hdst))
  refine ⟨u, hu, by rw [hst], ?_, ?_⟩
  · rw [hureg, src_length]
    exact toWord_toNat _
  · have := memRead_of_written huw
    rwa [src_length] at this

end Sys2Proof.Machine
end

section
/-! SUPPORT. The statements about `RX_ABORT` and `CHUNK_OUT`: the chunks of a frame, one after the other. -/

namespace Sys2Proof.Machine

variable {s t : State} {q : Params} {f : List Byte}

/-- Settles O36: `RX_ABORT` has no flags, and its meaning is to clear `RX_ACTIVE` and complete. -/
theorem rxAbortResult : Obligations.RxAbortResult :=
  ⟨onlyWordOf_encode (i := .rxAbort) (by decide), fun s =>
    completesWith_of_complete_nil (s' := s.setRxActive false) rfl rfl rfl rfl rfl rfl rfl⟩

/-! ## The chunks of a frame (41_framing.md R130) -/

/-- The chunk number `j` of a frame. -/
def chunkAt (q : Params) (f : List Byte) : Nat → List Byte
  | 0 => slice f 0 q.chunk
  | j + 1 => contChunk q f (j + 1)

theorem slice_min_length (b : List Byte) (i k : Nat) : slice b i (min b.length k) = slice b i k := by
  rcases Nat.le_total b.length k with h | h
  · rw [Nat.min_eq_left h, slice, slice, List.take_of_length_le (by simp), List.take_of_length_le (by simp; omega)]
  · rw [Nat.min_eq_right h]

theorem chunked_eq (q : Params) (f : List Byte) :
    chunked q f = (List.range (chunkCount q f.length)).flatMap (chunkAt q f) := by
  have hk : chunkCount q f.length = chunkCount q f.length - 1 + 1 := by rw [chunkCount]; omega
  rw [hk, List.range_succ_eq_map, List.flatMap_cons, List.flatMap_map, chunked, slice_min_length]
  rfl

/-- A sequence put together from pieces of one size, the last of them perhaps shorter, is cut into them again. -/
theorem slice_flatMap_range {g : Nat → List Byte} {m k j : Nat} (hfull : ∀ i, i + 1 < k → (g i).length = m)
    (hle : ∀ i, i < k → (g i).length ≤ m) (hj : j < k) :
    slice ((List.range k).flatMap g) (m * j) (m * j + m) = g j := by
  induction j generalizing g k with
  | zero =>
    match k, hj with
    | 1, _ => simpa [slice] using List.take_of_length_le (hle 0 (by omega))
    | k + 2, _ =>
      rw [List.range_succ_eq_map, List.flatMap_cons, slice_append_left (by rw [hfull 0 (by omega)]; omega)]
      simpa [slice] using List.take_of_length_le (hle 0 (by omega))
  | succ j ih =>
    match k, hj with
    | k + 1, hj =>
      have h0 : (g 0).length = m := hfull 0 (by omega)
      rw [List.range_succ_eq_map, List.flatMap_cons, List.flatMap_map,
        show m * (j + 1) = (g 0).length + m * j by rw [h0]; ring, Nat.add_assoc, slice_append_right]
      exact ih (g := fun i => g (i + 1)) (fun i hi => hfull _ (by omega)) (fun i hi => hle _ (by omega)) (by omega)

/-! With the values of R6, a chunk has 64 bytes, the last one perhaps fewer. -/

section

variable (hq : q.HasSpecValues)

include hq

theorem chunkCount_eq (n : Nat) : chunkCount q n = 1 + ceilDiv (n - 64) 63 := by
  rw [chunkCount, hq.chunk, hq.contPayload]

theorem chunkAt_succ (f : List Byte) (j : Nat) :
    chunkAt q f (j + 1) = (byteAt f 0 ||| 0x01#8) :: slice f (64 + 63 * j) (64 + 63 * (j + 1)) := by
  rw [chunkAt, contChunk, slice_min_length, hq.chunk, hq.contPayload]
  rfl

/-- Before chunk `j`, the first 64 bytes of the frame and 63 for each chunk between were taken. -/
theorem lt_chunkCount_iff {n j : Nat} : j + 1 < chunkCount q n ↔ 64 + 63 * j < n := by
  rw [chunkCount_eq hq, ceilDiv]
  omega

theorem chunkAt_length {j : Nat} (hj : j < chunkCount q f.length) :
    (chunkAt q f j).length = min 64 (f.length + j - 64 * j) := by
  cases j with
  | zero => simp [chunkAt, slice_length, hq.chunk]
  | succ j =>
    have := (lt_chunkCount_iff hq).1 hj
    rw [chunkAt_succ hq, List.length_cons, slice_length]
    omega

/-- The chunk `j`, cut out of all of them. -/
theorem slice_chunked {j : Nat} (hj : j < chunkCount q f.length) :
    slice (chunked q f) (64 * j) (64 * j + 64) = chunkAt q f j := by
  rw [chunked_eq]
  refine slice_flatMap_range (fun i hi => ?_) (fun i hi => ?_) hj
  · have := (lt_chunkCount_iff hq).1 hi
    rw [chunkAt_length hq (by omega)]
    omega
  · rw [chunkAt_length hq hi]
    exact min_le_left _ _

theorem flatMap_chunkAt_length {m : Nat} (hm : m ≤ chunkCount q f.length) :
    ((List.range m).flatMap (chunkAt q f)).length = min (64 * m) (f.length + m - 1) := by
  induction m with
  | zero => simp
  | succ m ih =>
    rw [List.range_succ, List.flatMap_append, List.length_append, ih (by omega), List.flatMap_singleton,
      chunkAt_length hq hm]
    cases m with
    | zero => omega
    | succ m =>
      have := (lt_chunkCount_iff hq).1 hm
      omega

theorem chunked_length (f : List Byte) : (chunked q f).length = f.length + chunkCount q f.length - 1 := by
  have hlast : ¬ chunkCount q f.length - 1 + 1 < chunkCount q f.length := by omega
  rw [lt_chunkCount_iff hq] at hlast
  rw [chunked_eq, flatMap_chunkAt_length hq (Nat.le_refl _)]
  rw [chunkCount_eq hq] at hlast ⊢
  omega

end

/-! ## `CHUNK_OUT` -/

theorem exec_chunkOut_of_refuses (h : s.regs.srcLen.toNat = 0 ∨ ¬ InBuf s s.regs.srcAddr s.regs.srcLen.toNat) :
    exec .chunkOut s = .next (s.raise .badOperand) := by
  show Host.Outcome.next (ite _ _ _) = _
  rcases h with hn | hs
  · rw [if_pos (show s.srcLen = 0 from hn)]
  · rw [srcOk_of_not_inBuf hs, Bool.not_false, if_pos rfl, ite_self]

/-- The end of `CHUNK_OUT` that writes the chunks. -/
def State.chunksOut (s : State) : State :=
  { s.output (chunked s.params s.src).length (chunked s.params s.src) with regs := { s.regs with
      dstLen := toWord (chunked s.params s.src).length, chunkCnt := toWord (chunkCount s.params s.srcLen) } }

theorem exec_chunkOut (hn : s.regs.srcLen.toNat ≠ 0) (hs : InBuf s s.regs.srcAddr s.regs.srcLen.toNat) :
    exec .chunkOut s = .next (
      if !s.dstOk (chunked s.params s.src).length then s.raise .badOperand else s.chunksOut.complete) := by
  show Host.Outcome.next (ite _ _ _) = _
  rw [if_neg (show ¬ s.srcLen = 0 from hn), srcOk_of_inBuf hs]
  rfl

/-- Settles O31: the chunks are put together in order, and each is cut out of them again. -/
theorem chunkOutResult : Obligations.ChunkOutResult := by
  intro s hq n k bad
  have hk : chunkCount s.params s.src.length = k := by
    rw [chunkCount_eq hq, src_length]
    rfl
  have hlen : (chunked s.params s.src).length = n + k - 1 := by
    rw [chunked_length hq, hk, src_length]
    rfl
  refine ⟨onlyWordOf_encode (i := .chunkOut) (by decide), fun hb => ?_, fun hb => ?_⟩
  · by_cases hr : n = 0 ∨ ¬ InBuf s s.regs.srcAddr n
    · exact raisesWith_raise (exec_chunkOut_of_refuses hr)
    · have hd : ¬ InBuf s s.regs.dstAddr (n + k - 1) := (or_assoc.2 hb).resolve_left hr
      obtain ⟨hn, hs⟩ := not_or.1 hr
      refine raisesWith_raise ?_
      rw [exec_chunkOut hn (not_not.1 hs), hlen, dstOk_of_not_inBuf hd]
      rfl
  · simp only [bad, not_or, not_not] at hb
    obtain ⟨hn, hs, hd⟩ := hb
    refine ⟨chunked s.params s.src, ?_, hlen, ?_, fun j h1 hj => ?_⟩
    · have h := completesWith_of_complete (i := .chunkOut) (s := s) (s' := s.chunksOut)
        (a := s.regs.dstAddr.toNat) (v := chunked s.params s.src)
        (by rw [exec_chunkOut hn hs, hlen, dstOk_of_inBuf hd]; rfl) rfl rfl rfl rfl rfl rfl
      rw [State.chunksOut, hlen, ← src_length, hk] at h
      exact h
    · rw [slice_chunked (j := 0) hq (by rw [hk]; omega), chunkAt, hq.chunk]
    · obtain ⟨i, rfl⟩ := Nat.exists_eq_add_of_le' h1
      rw [slice_chunked hq (by rw [hk]; exact hj), chunkAt_succ hq, Nat.add_sub_cancel]

end Sys2Proof.Machine
end

section
/-! SUPPORT. The statements about `CHUNK_IN`: a first chunk, a continuation chunk, and the count they keep. -/

namespace Sys2Proof.Machine

variable {s t : State} {c : List Byte}

/-! ## The checks before the chunk is looked at (41_framing.md R135) -/

/-- The checks 1 and 2 of R135. -/
def ChunkInRefuses (s : State) : Prop :=
  s.regs.srcLen.toNat ≠ s.params.chunk ∨ ¬ InBuf s s.regs.srcAddr s.params.chunk

theorem exec_chunkIn_of_refuses (h : ChunkInRefuses s) : exec .chunkIn s = .next (s.raise .badOperand) := by
  show Host.Outcome.next (ite _ _ _) = _
  by_cases hlen : s.regs.srcLen.toNat = s.params.chunk
  · have hs := h.resolve_left (not_not.2 hlen)
    rw [← hlen] at hs
    rw [srcOk_of_not_inBuf hs, Bool.not_false, if_pos rfl, ite_self]
  · rw [if_pos (show (s.srcLen != s.params.chunk) = true from bne_iff_ne.2 hlen)]

theorem exec_chunkIn (h : ¬ ChunkInRefuses s) :
    exec .chunkIn s = .next (if s.status.rxActive then chunkInNext s.src s else chunkInFirst s.src s) := by
  obtain ⟨hlen, hs⟩ := not_or.1 h
  rw [not_not] at hlen hs
  show Host.Outcome.next (ite _ _ _) = _
  rw [if_neg (show ¬ (s.srcLen != s.params.chunk) = true from fun h => bne_iff_ne.1 h hlen), srcOk_of_inBuf (hlen ▸ hs)]
  rfl

/-! ## A first chunk -/

/-- The bytes of the frame that its first chunk holds. -/
def firstCount (s : State) (c : List Byte) : Nat := min s.params.chunk (le16 (slice c 1 3) + 3)

/-- The state after a first chunk's bytes were written, before its completion. -/
def State.tookFirst (s : State) (c : List Byte) : State :=
  let len := le16 (slice c 1 3)
  State.setRxActive
    { s.memWrite s.regs.dstAddr.toNat (slice c 0 (firstCount s c)) with regs := { s.regs with
      rxCmd := (byteAt c 0).setWidth 32, rxDeclLen := toWord len, rxAcc := toWord (s.params.chunk - 3)
      rxBase := s.regs.dstAddr, rxWritten := toWord (firstCount s c)
      dstLen := toWord (if len ≤ s.params.chunk - 3 then len + 3 else firstCount s c) } }
    (decide (s.params.chunk - 3 < len))

theorem tookFirst_rxDeclLen (s : State) (c : List Byte) :
    (s.tookFirst c).regs.rxDeclLen = toWord (le16 (slice c 1 3)) := rfl

theorem tookFirst_rxAcc (s : State) (c : List Byte) :
    (s.tookFirst c).regs.rxAcc = toWord (s.params.chunk - 3) := rfl

theorem tookFirst_rxWritten (s : State) (c : List Byte) :
    (s.tookFirst c).regs.rxWritten = toWord (firstCount s c) := rfl

theorem tookFirst_dstLen (s : State) (c : List Byte) : (s.tookFirst c).regs.dstLen =
    toWord (if le16 (slice c 1 3) ≤ s.params.chunk - 3 then le16 (slice c 1 3) + 3 else firstCount s c) := rfl

theorem tookFirst_rxActive (s : State) (c : List Byte) :
    (s.tookFirst c).status.rxActive = decide (s.params.chunk - 3 < le16 (slice c 1 3)) := rfl

theorem chunkInFirst_eq (c : List Byte) (s : State) :
    chunkInFirst c s = if !s.dstOk (firstCount s c) then s.raise .badOperand else (s.tookFirst c).complete := by
  show ite _ _ (ite _ _ _) = _
  congr 1
  by_cases h : le16 (slice c 1 3) ≤ s.params.chunk - 3
  · rw [if_pos h, State.tookFirst, if_pos h, decide_eq_false (Nat.not_lt.2 h)]
    rfl
  · rw [if_neg h, State.tookFirst, if_neg h, decide_eq_true (Nat.lt_of_not_le h)]
    rfl

theorem completesWith_chunkIn_first (ha : s.status.rxActive = false) (h : ¬ ChunkInRefuses s)
    (hd : InBuf s s.regs.dstAddr (firstCount s s.src)) :
    CompletesWith .chunkIn s (s.tookFirst s.src).regs (s.tookFirst s.src).status.rxActive s.regs.dstAddr.toNat
      (slice s.src 0 (firstCount s s.src)) := by
  refine completesWith_of_complete ?_ rfl rfl rfl rfl rfl rfl
  rw [exec_chunkIn h, ha, if_neg Bool.false_ne_true, chunkInFirst_eq, dstOk_of_inBuf hd]
  rfl

theorem setWidth_eq_toWord (b : Byte) : b.setWidth 32 = toWord b.toNat := by
  simp [toWord]

/-- Settles O32: the first checks, then whether the chunk's bytes fit where the frame is to be written. -/
theorem chunkInFirstChunk : Obligations.ChunkInFirstChunk := by
  intro s ha c len w bad
  refine ⟨onlyWordOf_encode (i := .chunkIn) (by decide), fun hb => ?_, fun hb => ?_⟩
  · rw [← ha]
    by_cases hr : ChunkInRefuses s
    · exact raisesWith_raise (exec_chunkIn_of_refuses hr)
    · have hd : ¬ InBuf s s.regs.dstAddr (firstCount s c) := (or_assoc.2 hb).resolve_left hr
      refine raisesWith_raise ?_
      rw [exec_chunkIn hr, ha, if_neg Bool.false_ne_true, chunkInFirst_eq, dstOk_of_not_inBuf hd]
      rfl
  · obtain ⟨hr, hd⟩ := not_or.1 (mt or_assoc.1 hb)
    have h := completesWith_chunkIn_first ha hr (not_not.1 hd)
    rw [State.tookFirst, setWidth_eq_toWord] at h
    exact h

/-! ## A continuation chunk -/

/-- The bytes of the frame that the coming continuation chunk holds. -/
def nextCount (s : State) : Nat := min s.params.contPayload (s.regs.rxDeclLen.toNat + 3 - s.regs.rxWritten.toNat)

/-- Where they belong. -/
def nextAddr (s : State) : Nat := s.regs.rxBase.toNat + s.regs.rxWritten.toNat

/-- The state after a continuation chunk's bytes were written, before its completion. -/
def State.tookNext (s : State) (c : List Byte) : State :=
  let acc := s.regs.rxAcc.toNat + s.params.contPayload
  State.setRxActive
    { s.memWrite (nextAddr s) (slice c 1 (1 + nextCount s)) with regs := { s.regs with
      rxWritten := toWord (s.regs.rxWritten.toNat + nextCount s), rxAcc := toWord acc
      dstLen := toWord (if s.regs.rxDeclLen.toNat ≤ acc then s.regs.rxDeclLen.toNat + 3
        else s.regs.rxWritten.toNat + nextCount s) } }
    (decide (acc < s.regs.rxDeclLen.toNat))

theorem tookNext_rxAcc (s : State) (c : List Byte) :
    (s.tookNext c).regs.rxAcc = toWord (s.regs.rxAcc.toNat + s.params.contPayload) := rfl

theorem tookNext_rxWritten (s : State) (c : List Byte) :
    (s.tookNext c).regs.rxWritten = toWord (s.regs.rxWritten.toNat + nextCount s) := rfl

theorem tookNext_dstLen (s : State) (c : List Byte) : (s.tookNext c).regs.dstLen =
    toWord (if s.regs.rxDeclLen.toNat ≤ s.regs.rxAcc.toNat + s.params.contPayload then s.regs.rxDeclLen.toNat + 3
      else s.regs.rxWritten.toNat + nextCount s) := rfl

theorem tookNext_rxActive (s : State) (c : List Byte) : (s.tookNext c).status.rxActive =
    decide (s.regs.rxAcc.toNat + s.params.contPayload < s.regs.rxDeclLen.toNat) := rfl

/-- `CHUNK_IN` on a continuation chunk, while its counts do not wrap (log entry 6). -/
theorem chunkInNext_eq (c : List Byte) (ha : s.status.rxActive = true)
    (hacc : s.regs.rxAcc.toNat + s.params.contPayload < 2 ^ 32)
    (hwritten : s.regs.rxWritten.toNat + nextCount s < 2 ^ 32) :
    chunkInNext c s =
      if (byteAt c 0).setWidth 32 != s.regs.rxCmd ||| 0x01#32 then (s.setRxActive false).raise .framingError
      else if !s.inRange (nextAddr s) (nextCount s) then (s.setRxActive false).raise .badOperand
      else (s.tookNext c).complete := by
  show ite _ _ (ite _ _ (ite _ _ _)) = _
  rw [nextCount] at hwritten
  congr 2
  rw [toNat_toWord hacc]
  by_cases h : s.regs.rxDeclLen.toNat ≤ s.regs.rxAcc.toNat + s.params.contPayload
  · rw [if_pos h, State.tookNext, if_pos h, decide_eq_false (Nat.not_lt.2 h)]
    rfl
  · rw [if_neg h, State.tookNext, if_neg h, decide_eq_true (Nat.lt_of_not_le h), toNat_toWord hwritten,
      setRxActive_eq_self (s := { s.memWrite _ _ with regs := _ }) ha]
    rfl

theorem completesWith_chunkIn_next (ha : s.status.rxActive = true) (h : ¬ ChunkInRefuses s)
    (hacc : s.regs.rxAcc.toNat + s.params.contPayload < 2 ^ 32)
    (hwritten : s.regs.rxWritten.toNat + nextCount s < 2 ^ 32)
    (hcmd : (byteAt s.src 0).setWidth 32 = s.regs.rxCmd ||| 0x01#32)
    (hd : nextAddr s + nextCount s ≤ s.params.bufSize) :
    CompletesWith .chunkIn s (s.tookNext s.src).regs (s.tookNext s.src).status.rxActive (nextAddr s)
      (slice s.src 1 (1 + nextCount s)) := by
  refine completesWith_of_complete ?_ rfl rfl rfl rfl rfl rfl
  rw [exec_chunkIn h, ha, if_pos rfl, chunkInNext_eq _ ha hacc hwritten, hcmd, inRange_iff.2 hd]
  simp

/-- The invariant keeps the counts of a continuation chunk from wrapping (log entry 6). -/
theorem nextCounts_lt (ha : s.status.rxActive = true) (hrx : s.RxInv) (hres : s.ReservedInv) (hp : s.ParamInv) :
    s.regs.rxAcc.toNat + s.params.contPayload < 2 ^ 32 ∧ s.regs.rxWritten.toNat + nextCount s < 2 ^ 32 := by
  obtain ⟨-, hlt, hw, -⟩ := hrx ha
  obtain ⟨-, hdecl, -⟩ := hres
  obtain ⟨-, -, -, hc, hcc⟩ := hp
  rw [nextCount]
  omega

/-- Settles O33: the first checks, then the command byte, then whether the chunk's bytes fit behind the others. -/
theorem chunkInContinuationChunk : Obligations.ChunkInContinuationChunk := by
  intro s ha hrx hres hp c len k w a
  obtain ⟨hacc, hwritten⟩ := nextCounts_lt ha hrx hres hp
  refine ⟨fun hr => ?_, fun hlen hs => ?_⟩
  · rw [← ha]
    exact raisesWith_raise (exec_chunkIn_of_refuses hr)
  · have hr : ¬ ChunkInRefuses s := not_or.2 ⟨not_not.2 hlen, not_not.2 hs⟩
    have hexec := (exec_chunkIn hr).trans (by rw [ha, if_pos rfl, chunkInNext_eq _ ha hacc hwritten])
    refine ⟨fun hcmd => ?_, fun hcmd => ⟨fun hd => ?_, fun hd => ?_⟩⟩
    · refine raisesWith_of_raise (s' := s.setRxActive false) (hexec.trans ?_) rfl rfl rfl rfl rfl rfl
      rw [if_pos (bne_iff_ne.2 hcmd)]
    · have hfit : ¬ nextAddr s + nextCount s ≤ s.params.bufSize := Nat.not_le.2 hd
      refine raisesWith_of_raise (s' := s.setRxActive false) (hexec.trans ?_) rfl rfl rfl rfl rfl rfl
      rw [if_neg (fun h => bne_iff_ne.1 h hcmd), inRange_false_iff.2 hfit]
      rfl
    · exact completesWith_chunkIn_next ha hr hacc hwritten hcmd hd

/-! ## The count -/

/-- Both ways for a chunk to be taken keep the count of R134. -/
theorem Ending.rxWritten_toNat (h : Ending s .chunkIn t) (he : t.status.err = false) (hrx : s.RxInv)
    (hres : s.ReservedInv) (hp : s.ParamInv) :
    t.regs.rxWritten.toNat = min (t.regs.rxDeclLen.toNat + 3) (t.regs.rxAcc.toNat + 3) := by
  cases h with
  | raise | chunkDropped => cases he
  | failGtls hstep => cases hstep
  | output hmay => cases hmay .rxCmd
  | chunkFirst _ _ hl =>
    obtain ⟨-, -, hc3, hc, -⟩ := hp
    simp only [complete_regs, setDstLen_regs, setRxActive_regs]
    rw [toNat_toWord (by omega), toNat_toWord (by omega), toNat_toWord (by omega)]
    omega
  | chunkNext ha hw =>
    obtain ⟨hacc, hwritten⟩ := nextCounts_lt ha hrx hres hp
    obtain ⟨-, hlt, hcount, -⟩ := hrx ha
    rw [← nextCount] at hw
    subst hw
    simp only [complete_regs, setDstLen_regs, setRxActive_regs]
    rw [toNat_toWord hwritten, toNat_toWord hacc, nextCount]
    omega

/-- Settles O34, by the endings of `CHUNK_IN`. -/
theorem reassemblyCountAfterChunkIn : Obligations.ReassemblyCountAfterChunkIn :=
  fun _ _ ⟨_, hres, hrx, _, hp, _⟩ ht he => (exec_ending ht).rxWritten_toNat he hrx hres hp

end Sys2Proof.Machine
end

section
/-! SUPPORT. Reassembly inverts chunking (41_framing.md R136): what is true between two chunks, kept by each of them. -/

namespace Sys2Proof.Machine

variable {s t : State} {q : Params} {f c : List Byte} {cs : List (List Byte)} {a j : Nat}

/-! ## The frame's bytes in an extended chunk -/

theorem slice_of_first (hq : q.HasSpecValues) (hpre : chunkAt q f 0 <+: c) (i : Nat) {k : Nat}
    (hk : k ≤ min f.length 64) : slice c i k = slice f i k := by
  obtain ⟨r, rfl⟩ := hpre
  rw [chunkAt, hq.chunk, slice_append_left (by rw [slice_length]; omega), slice_slice (by omega), Nat.zero_add,
    Nat.zero_add]

theorem byteAt_of_first (hq : q.HasSpecValues) (hpre : chunkAt q f 0 <+: c) (hf : 0 < f.length) :
    byteAt c 0 = byteAt f 0 := by
  have := congrArg (byteAt · 0) (slice_of_first hq hpre 0 (k := 1) (by omega))
  simpa [byteAt_slice] using this

theorem byteAt_of_next (hq : q.HasSpecValues) (hpre : chunkAt q f (j + 1) <+: c) :
    byteAt c 0 = byteAt f 0 ||| 0x01#8 := by
  obtain ⟨r, rfl⟩ := hpre
  rw [chunkAt_succ hq, List.cons_append, byteAt_cons_zero]

theorem slice_of_next (hq : q.HasSpecValues) (hpre : chunkAt q f (j + 1) <+: c) {k : Nat}
    (hk : 64 + 63 * j + k ≤ min f.length (64 + 63 * (j + 1))) :
    slice c 1 (1 + k) = slice f (64 + 63 * j) (64 + 63 * j + k) := by
  obtain ⟨r, rfl⟩ := hpre
  rw [chunkAt_succ hq, List.cons_append, slice_cons_succ, slice_append_left (by rw [slice_length]; omega),
    slice_slice (by omega), Nat.add_zero]

/-! ## Handing over a chunk -/

/-- The places for the reassembly of the frame `f` at `a`: where the chunks are handed over, and where the frame comes
to stand. -/
structure Handover (s : State) (f : List Byte) (a : Nat) : Prop where
  spec : s.params.HasSpecValues
  length_lt : f.length < 2 ^ 16 + 3
  srcLen : s.regs.srcLen = 64#32
  src_inBuf : InBuf s s.regs.srcAddr 64
  dstAddr : s.regs.dstAddr.toNat = a
  dst_inBuf : a + f.length ≤ s.params.bufSize
  disjoint : s.regs.srcAddr.toNat + 64 ≤ a ∨ a + f.length ≤ s.regs.srcAddr.toNat

theorem Handover.of_same (h : Handover s f a) (hp : t.params = s.params) (hsrc : t.regs.srcAddr = s.regs.srcAddr)
    (hlen : t.regs.srcLen = s.regs.srcLen) (hdst : t.regs.dstAddr = s.regs.dstAddr) : Handover t f a := by
  obtain ⟨hspec, hlt, hn, hs, ha, hd, hdisj⟩ := h
  exact ⟨hp ▸ hspec, hlt, hlen.trans hn, by rw [InBuf, hp, hsrc]; exact hs, hdst ▸ ha, hp ▸ hd, hsrc ▸ hdisj⟩

/-- The state in which `CHUNK_IN` is given the chunk `c`. -/
abbrev handOver (s : State) (c : List Byte) : State := s.memWrite s.regs.srcAddr.toNat c

theorem Handover.src_eq (h : Handover s f a) (hc : c.length = 64) : (handOver s c).src = c := by
  have : s.srcLen = c.length := by rw [State.srcLen, h.srcLen, hc]; rfl
  show (handOver s c).memRead s.regs.srcAddr.toNat s.srcLen = c
  rw [this, memRead_memWrite_same]

theorem Handover.not_refuses (h : Handover s f a) (c : List Byte) : ¬ ChunkInRefuses (handOver s c) := by
  have h64 : (handOver s c).params.chunk = 64 := h.spec.chunk
  rw [ChunkInRefuses, h64, memWrite_regs, h.srcLen]
  exact not_or.2 ⟨not_not.2 rfl, not_not.2 h.src_inBuf⟩

/-- Handing over a chunk leaves the frame's place alone. -/
theorem Handover.readByte (h : Handover s f a) (hc : c.length = 64) {i : Nat} (hi : i < f.length) :
    (handOver s c).readByte (a + i) = s.readByte (a + i) := by
  have := h.disjoint
  exact memWrite_readByte_outside s (by omega)

/-- The frame's bytes up to `m`, once those behind the first `n` are written. -/
theorem Handover.bytes_of_written (h : Handover s f a) (hc : c.length = 64) {n m : Nat} (hm : m ≤ f.length)
    (hw : Written (handOver s c) t (a + n) (slice f n m)) (hs : ∀ i < n, s.readByte (a + i) = byteAt f i) :
    ∀ i < m, t.readByte (a + i) = byteAt f i := by
  intro i hi
  rw [hw, slice_length_eq hm]
  by_cases hn : i < n
  · rw [if_neg (by omega), h.readByte hc (by omega), hs i hn]
  · rw [if_pos (by omega), byteAt_slice (by omega)]
    congr 1
    omega

/-! ## Between two chunks -/

/-- The chunks 0 to `j` of the frame `f` were taken, and stand at `a`. -/
structure Reassembled (t : State) (f : List Byte) (a j : Nat) : Prop where
  handover : Handover t f a
  rxCmd : t.regs.rxCmd = (byteAt f 0).setWidth 32
  rxDeclLen : t.regs.rxDeclLen.toNat + 3 = f.length
  rxAcc : t.regs.rxAcc.toNat = 61 + 63 * j
  rxBase : t.regs.rxBase.toNat = a
  rxWritten : t.regs.rxWritten.toNat = min f.length (64 + 63 * j)
  dstLen : t.regs.dstLen = toWord (min f.length (64 + 63 * j))
  rxActive : t.status.rxActive = decide (64 + 63 * j < f.length)
  err : t.status.err = false
  bytes : ∀ i < min f.length (64 + 63 * j), t.readByte (a + i) = byteAt f i

/-- Once no chunk is left, the frame stands at its place. -/
theorem Reassembled.memRead_eq (h : Reassembled t f a j) (hj : f.length ≤ 64 + 63 * j) : t.memRead a f.length = f := by
  refine ext_byteAt (memRead_length _ _ _) fun i hi => ?_
  rw [memRead_length] at hi
  rw [byteAt_memRead _ _ hi, h.bytes i (by omega)]

/-! ## The first chunk -/

theorem Handover.firstCount_eq (h : Handover s f a) (hf : f.length = le16 (slice f 1 3) + 3)
    (hlen : le16 (slice c 1 3) = le16 (slice f 1 3)) : firstCount (handOver s c) c = min f.length 64 := by
  rw [firstCount, memWrite_params, h.spec.chunk, hlen, ← hf, Nat.min_comm]

/-- The first chunk starts the reassembly. -/
theorem Handover.reassembled (h : Handover s f a) (ha : s.status.rxActive = false)
    (hf : f.length = le16 (slice f 1 3) + 3) (hc : c.length = 64) (hpre : chunkAt s.params f 0 <+: c) :
    ∃ t, exec .chunkIn (handOver s c) = .next t ∧ Reassembled t f a 0 := by
  have hle := le16_lt (slice f 1 3)
  have hlen : le16 (slice c 1 3) = le16 (slice f 1 3) := by rw [slice_of_first h.spec hpre 1 (by omega)]
  have hcount := h.firstCount_eq hf hlen
  have hd : InBuf (handOver s c) (handOver s c).regs.dstAddr (firstCount (handOver s c) c) := by
    have := h.dst_inBuf
    rw [hcount, InBuf, memWrite_regs, h.dstAddr, memWrite_params]
    omega
  have hcomp := completesWith_chunkIn_first (s := handOver s c) ha (h.not_refuses c)
  rw [h.src_eq hc] at hcomp
  obtain ⟨t, ht, hst, hregs, hw, -, -, hp, -⟩ := hcomp hd
  rw [hcount, slice_of_first h.spec hpre 0 (Nat.le_refl _), memWrite_regs, h.dstAddr] at hw
  refine ⟨t, ht, {
    handover := h.of_same hp (by rw [hregs]; rfl) (by rw [hregs]; rfl) (by rw [hregs]; rfl)
    rxCmd := by rw [hregs, ← byteAt_of_first h.spec hpre (by omega)]; rfl
    rxDeclLen := by rw [hregs, tookFirst_rxDeclLen, hlen, toNat_toWord (by omega), hf]
    rxAcc := by rw [hregs, tookFirst_rxAcc, memWrite_params, h.spec.chunk]; rfl
    rxBase := by rw [hregs]; exact h.dstAddr
    rxWritten := by rw [hregs, tookFirst_rxWritten, hcount, toNat_toWord (by omega)]
    dstLen := ?_
    rxActive := ?_
    err := by rw [hst]
    bytes := h.bytes_of_written (n := 0) hc (min_le_left _ _) hw nofun }⟩
  · rw [hregs, tookFirst_dstLen, hcount, hlen, ← hf, memWrite_params, h.spec.chunk]
    congr 1
    split <;> omega
  · rw [hst]
    show (State.tookFirst _ c).status.rxActive = _
    rw [tookFirst_rxActive, hlen, memWrite_params, h.spec.chunk, decide_eq_decide]
    omega

/-! ## A continuation chunk -/

theorem Reassembled.nextCount_eq (h : Reassembled s f a j) :
    nextCount (handOver s c) = min f.length (64 + 63 * (j + 1)) - min f.length (64 + 63 * j) := by
  have := h.rxDeclLen
  rw [nextCount, memWrite_params, memWrite_regs, h.handover.spec.contPayload, h.rxWritten]
  omega

/-- A continuation chunk carries it on. -/
theorem Reassembled.next (h : Reassembled s f a j) (hmore : 64 + 63 * j < f.length) (hc : c.length = 64)
    (hpre : chunkAt s.params f (j + 1) <+: c) :
    ∃ t, exec .chunkIn (handOver s c) = .next t ∧ Reassembled t f a (j + 1) := by
  have ho := h.handover
  have hdecl := h.rxDeclLen
  have hlt := ho.length_lt
  have hwritten := h.rxWritten
  rw [Nat.min_eq_right hmore.le] at hwritten
  have hcount := h.nextCount_eq (c := c)
  rw [Nat.min_eq_right hmore.le] at hcount
  have haddr : nextAddr (handOver s c) = a + (64 + 63 * j) := by
    rw [nextAddr, memWrite_regs, h.rxBase, hwritten]
  have hend : 64 + 63 * j + nextCount (handOver s c) = min f.length (64 + 63 * (j + 1)) := by omega
  have hacc : s.regs.rxAcc.toNat + s.params.contPayload = 61 + 63 * (j + 1) := by
    rw [h.rxAcc, ho.spec.contPayload]
    ring
  have hbyte : (byteAt c 0).setWidth 32 = (handOver s c).regs.rxCmd ||| 0x01#32 := by
    rw [byteAt_of_next ho.spec hpre, memWrite_regs, h.rxCmd, BitVec.setWidth_or]
    rfl
  have hcomp := completesWith_chunkIn_next (s := handOver s c) (h.rxActive.trans (decide_eq_true hmore))
    (ho.not_refuses c)
  rw [ho.src_eq hc, haddr, memWrite_regs, memWrite_params, hacc, hwritten, slice_of_next ho.spec hpre hend.le,
    hend] at hcomp
  obtain ⟨t, ht, hst, hregs, hw, -, -, hp, -⟩ := hcomp (by omega) (by omega) hbyte
    (by have := ho.dst_inBuf; omega)
  refine ⟨t, ht, {
    handover := ho.of_same hp (by rw [hregs]; rfl) (by rw [hregs]; rfl) (by rw [hregs]; rfl)
    rxCmd := by rw [hregs]; exact h.rxCmd
    rxDeclLen := by rw [hregs]; exact h.rxDeclLen
    rxAcc := by rw [hregs, tookNext_rxAcc, memWrite_regs, memWrite_params, hacc, toNat_toWord (by omega)]
    rxBase := by rw [hregs]; exact h.rxBase
    rxWritten := by rw [hregs, tookNext_rxWritten, memWrite_regs, hwritten, hend, toNat_toWord (by omega)]
    dstLen := ?_
    rxActive := ?_
    err := by rw [hst]
    bytes := ho.bytes_of_written hc (min_le_left _ _) hw fun i hi => h.bytes i (lt_min (by omega) hi) }⟩
  · rw [hregs, tookNext_dstLen, memWrite_regs, memWrite_params, hwritten, hend, hacc]
    congr 1
    split <;> omega
  · rw [hst]
    show (State.tookNext _ c).status.rxActive = _
    rw [tookNext_rxActive, memWrite_regs, memWrite_params, hacc, decide_eq_decide]
    omega

/-! ## All chunks -/

/-- The chunks behind chunk `j`, given in order, bring the reassembly to the last of them. -/
theorem Reassembled.chunkInAll_eq_next (h : Reassembled t f a j) (hk : j + cs.length < chunkCount t.params f.length)
    (hc : ∀ c ∈ cs, c.length = 64) (hpre : ∀ i < cs.length, chunkAt t.params f (j + 1 + i) <+: cs.getD i []) :
    ∃ u, chunkInAll cs t = .next u ∧ Reassembled u f a (j + cs.length) := by
  induction cs generalizing t j with
  | nil => exact ⟨t, rfl, h⟩
  | cons c cs ih =>
    rw [List.length_cons] at hk hpre
    have hmore : 64 + 63 * j < f.length := (lt_chunkCount_iff h.handover.spec).1 (by omega)
    obtain ⟨v, hv, hr⟩ := h.next hmore (hc c (by simp)) (hpre 0 (by omega))
    have hp : v.params = t.params := (exec_params hv).trans (memWrite_params _ _ _)
    obtain ⟨u, hu, hlast⟩ := ih hr (by rw [hp]; omega) (fun d hd => hc d (by simp [hd])) fun i hi => by
      rw [hp, show j + 1 + 1 + i = j + 1 + (i + 1) by omega]
      exact hpre (i + 1) (by omega)
    refine ⟨u, ?_, by rw [List.length_cons, Nat.add_comm cs.length, ← Nat.add_assoc]; exact hlast⟩
    rw [chunkInAll, hv]
    exact hu

/-- Settles O35, by induction on the chunks. -/
theorem reassemblyInvertsChunking : Obligations.ReassemblyInvertsChunking := by
  intro s f chunks len k hq hf _ hk hc hpre ha hlen hsrc hdst hdisj
  have hkeq : k = 1 + ceilDiv (len - 61) 63 := by
    rw [← show f.length - 64 = len - 61 by omega]
    exact chunkCount_eq hq _
  refine ⟨hkeq, ?_⟩
  have hcut : ∀ j < chunks.length, chunkAt s.params f j <+: chunks.getD j [] := fun j hj => by
    rw [← slice_chunked hq (hj.trans_eq hk)]
    exact hpre j hj
  have ho : Handover s f s.regs.dstAddr.toNat :=
    ⟨hq, by rw [hf]; exact Nat.add_lt_add_right (le16_lt _) 3, hlen, hsrc, rfl, by rw [hf]; exact hdst,
      by rw [hf]; exact hdisj⟩
  match chunks, hk with
  | [], hk => exact absurd (hk.trans hkeq) (by simp; omega)
  | c :: cs, hk =>
    obtain ⟨t, ht, hr⟩ := ho.reassembled ha hf (hc c (by simp)) (hcut 0 (by simp))
    have hp : t.params = s.params := (exec_params ht).trans (memWrite_params _ _ _)
    rw [List.length_cons] at hk hcut
    obtain ⟨u, hu, hlast⟩ := hr.chunkInAll_eq_next (cs := cs) (by rw [hp]; omega) (fun d hd => hc d (by simp [hd]))
      fun i hi => by
        rw [hp, show 0 + 1 + i = i + 1 by omega]
        exact hcut (i + 1) (by omega)
    have hfull : f.length ≤ 64 + 63 * (0 + cs.length) :=
      Nat.not_lt.1 (mt (lt_chunkCount_iff hq).2 (by omega))
    refine ⟨u, ?_, ?_, hlast.err, ?_, ?_⟩
    · rw [chunkInAll, ht]
      exact hu
    · rw [hlast.rxActive, decide_eq_false (Nat.not_lt.2 hfull)]
    · rw [hlast.dstLen, Nat.min_eq_left hfull, hf]
    · rw [← hf]
      exact hlast.memRead_eq hfull

end Sys2Proof.Machine
end

section
/-! SUPPORT. The statements about the hash, the HMAC and the PRF: their range checks, said once for the operations that
have no other, the padded message, the HMAC's pads, and the PRF's blocks. -/

namespace Sys2Proof.Machine

variable {i : Instr} {s : State} {bad c : Prop} {n : Nat} {v : List Byte}

/-! ## Operations that have range checks only -/

/-- `i` raises `BAD_OPERAND` under `bad`, and else writes the `n` bytes `v` at `DST_ADDR` and completes. -/
def FinishesUnless (i : Instr) (s : State) (bad : Prop) (n : Nat) (v : List Byte) : Prop :=
  (bad → RaisesWith i s .badOperand s.regs s.status.rxActive) ∧
    (¬ bad → CompletesWith i s { s.regs with dstLen := toWord n } s.status.rxActive s.regs.dstAddr.toNat v)

theorem finishesUnless_of_raise (hb : bad) (h : exec i s = .next (s.raise .badOperand)) :
    FinishesUnless i s bad n v :=
  ⟨fun _ => raisesWith_raise h, fun hn => absurd hb hn⟩

theorem finishesUnless_of_finish (h : exec i s = .next (s.finish n v)) :
    FinishesUnless i s (¬ InBuf s s.regs.dstAddr n) n v :=
  ⟨raisesWith_finish h, fun hn => completesWith_finish h (not_not.1 hn)⟩

/-- A check that passed adds nothing to the reasons to fail. -/
theorem FinishesUnless.or_of_not (h : FinishesUnless i s bad n v) (hc : ¬ c) : FinishesUnless i s (c ∨ bad) n v :=
  have hiff : c ∨ bad ↔ bad := or_iff_right hc
  ⟨fun hb => h.1 (hiff.1 hb), fun hb => h.2 (mt hiff.2 hb)⟩

theorem finishesUnless_of_srcCheck
    (h : exec i s = .next (if !s.srcOk then s.raise .badOperand else s.finish n v)) :
    FinishesUnless i s (¬ InBuf s s.regs.srcAddr s.regs.srcLen.toNat ∨ ¬ InBuf s s.regs.dstAddr n) n v := by
  by_cases hs : InBuf s s.regs.srcAddr s.regs.srcLen.toNat
  · rw [srcOk_of_inBuf hs] at h
    exact (finishesUnless_of_finish h).or_of_not (not_not.2 hs)
  · rw [srcOk_of_not_inBuf hs] at h
    exact finishesUnless_of_raise (.inl hs) h

theorem finishesUnless_of_keySrcChecks
    (h : exec i s = .next (
      if !s.keyOk then s.raise .badOperand else if !s.srcOk then s.raise .badOperand else s.finish n v)) :
    FinishesUnless i s (¬ InBuf s s.regs.keyAddr s.regs.keyLen.toNat ∨
      ¬ InBuf s s.regs.srcAddr s.regs.srcLen.toNat ∨ ¬ InBuf s s.regs.dstAddr n) n v := by
  by_cases hk : InBuf s s.regs.keyAddr s.regs.keyLen.toNat
  · rw [(keyOk_iff s).2 hk] at h
    exact (finishesUnless_of_srcCheck h).or_of_not (not_not.2 hk)
  · rw [Bool.eq_false_iff.2 (mt (keyOk_iff s).1 hk)] at h
    exact finishesUnless_of_raise (.inl hk) h

/-! ## `SHA256` -/

/-- Settles O40: `SHA256` checks its source and its output's place. -/
theorem sha256Result : Obligations.Sha256Result := fun s =>
  ⟨onlyWordOf_encode (i := .sha256) (by decide), sha256_length _, finishesUnless_of_srcCheck rfl⟩

/-! ## The padded message (42_hash.md R160) -/

theorem toNat_byteAt_leBytes {n k : Nat} (v : Nat) (h : k < n) :
    (byteAt (leBytes n v) k).toNat = v / 256 ^ k % 256 := by
  induction n generalizing v k with
  | zero => omega
  | succ n ih =>
    cases k with
    | zero => simp [leBytes, byteAt]
    | succ k =>
      have hstep : byteAt (leBytes (n + 1) v) (k + 1) = byteAt (leBytes n (v / 256)) k := rfl
      rw [hstep, ih _ (by omega), Nat.div_div_eq_div_mul, Nat.pow_succ']

/-- Big-endian bytes are the little-endian ones from the end. -/
theorem toNat_byteAt_beBytes {n k : Nat} (v : Nat) (h : k < n) :
    (byteAt (beBytes n v) (n - 1 - k)).toNat = v / 256 ^ k % 256 := by
  have hrev : byteAt (beBytes n v) (n - 1 - k) = byteAt (leBytes n v) k := by
    rw [byteAt_eq_getElem _ _ (by rw [beBytes_length]; omega), byteAt_eq_getElem _ _ (by rwa [leBytes_length])]
    simp only [beBytes, List.getElem_reverse, leBytes_length]
    congr 1
    omega
  rw [hrev, toNat_byteAt_leBytes v h]

/-- The number of zeros in the padded message of `n` bytes. -/
def shaZeros (n : Nat) : Nat := (119 - n % 64) % 64

theorem shaZeros_lt (n : Nat) : shaZeros n < 64 := Nat.mod_lt _ (by decide)

theorem shaZeros_fills_block (n : Nat) : (n + 9 + shaZeros n) % 64 = 0 := by
  rw [shaZeros]
  omega

/-- The padded message, cut behind the message. -/
theorem shaPad_eq (m : List Byte) :
    shaPad m = m ++ (0x80#8 :: (bytes (shaZeros m.length) 0x00#8 ++ beBytes 8 (8 * m.length))) := by
  simp [shaPad, shaZeros]

theorem shaPad_length (m : List Byte) : (shaPad m).length = m.length + 9 + shaZeros m.length := by
  simp [shaPad_eq]
  omega

theorem byteAt_shaPad_mark (m : List Byte) : byteAt (shaPad m) m.length = 0x80#8 := by
  rw [shaPad_eq, byteAt_append_right (Nat.le_refl _), Nat.sub_self, byteAt_cons_zero]

theorem byteAt_shaPad_zeros (m : List Byte) {k : Nat} (h : k < shaZeros m.length) :
    byteAt (shaPad m) (m.length + 1 + k) = 0#8 := by
  rw [shaPad_eq, byteAt_append_right (by omega), show m.length + 1 + k - m.length = k + 1 by omega, byteAt_cons_succ,
    byteAt_append_left (by rwa [bytes_length]), byteAt_bytes _ h]

theorem byteAt_shaPad_bitLength (m : List Byte) (k : Nat) :
    byteAt (shaPad m) (m.length + 1 + shaZeros m.length + k) = byteAt (beBytes 8 (8 * m.length)) k := by
  rw [shaPad_eq, byteAt_append_right (by omega),
    show m.length + 1 + shaZeros m.length + k - m.length = shaZeros m.length + k + 1 by omega, byteAt_cons_succ,
    byteAt_append_right (by rw [bytes_length]; omega), bytes_length, Nat.add_sub_cancel_left]

/-- Settles O41, part by part: the message, the mark, the zeros, and the length in bits. -/
theorem sha256Padding : Obligations.Sha256Padding := by
  intro m _ p
  have hlen : p.length = m.length + 9 + shaZeros m.length := shaPad_length m
  have hz := shaZeros_lt m.length
  refine ⟨hlen ▸ shaZeros_fills_block _, by omega, by omega, ?_, byteAt_shaPad_mark m, fun k hk hk' => ?_,
    fun k hk => ?_⟩
  · show (shaPad m).take m.length = m
    rw [shaPad_eq, List.take_left]
  · obtain ⟨j, rfl⟩ := Nat.exists_eq_add_of_le (Nat.succ_le_of_lt hk)
    exact byteAt_shaPad_zeros m (by omega)
  · rw [show p.length - 1 - k = m.length + 1 + shaZeros m.length + (8 - 1 - k) by omega, byteAt_shaPad_bitLength,
      toNat_byteAt_beBytes _ hk]

/-! ## HMAC (42_hash.md R170) -/

/-- Settles O42: `HMAC_SHA256` checks its key, its source and its output's place. -/
theorem hmacSha256Result : Obligations.HmacSha256Result := fun s =>
  ⟨onlyWordOf_encode (i := .hmacSha256) (by decide), hmac_length _ _, finishesUnless_of_keySrcChecks rfl⟩

/-- The key `b`, extended with zeros to 64 bytes, exclusive-or `x` in every byte. -/
def hmacPad (b : List Byte) (x : Byte) : List Byte :=
  (List.range 64).map fun i => (if i < b.length then byteAt b i else 0#8) ^^^ x

/-- Byte `i` of a sequence extended with zeros. -/
theorem byteAt_append_zeros {b : List Byte} {n i : Nat} (h : i < b.length + n) :
    byteAt (b ++ bytes n 0x00#8) i = if i < b.length then byteAt b i else 0#8 := by
  split
  next hi => exact byteAt_append_left hi
  next hi => rw [byteAt_append_right (by omega), byteAt_bytes _ (by omega)]

theorem xorBytes_zeroExtended {b : List Byte} (h : b.length ≤ 64) (x : Byte) :
    xorBytes (b ++ bytes (64 - b.length) 0x00#8) (bytes 64 x) = hmacPad b x := by
  have hlen : (b ++ bytes (64 - b.length) 0x00#8).length = 64 := by simp; omega
  have hxor : (xorBytes (b ++ bytes (64 - b.length) 0x00#8) (bytes 64 x)).length = 64 := by
    rw [xorBytes_length, hlen, bytes_length, Nat.min_self]
  refine ext_byteAt (hxor.trans (by simp [hmacPad])) fun i hi => ?_
  rw [hxor] at hi
  rw [byteAt_xorBytes (by omega) (by rwa [bytes_length]), byteAt_append_zeros (by omega), byteAt_bytes _ hi]
  simp [hmacPad, byteAt, hi]

/-- Settles O43: the key that the pads are made of has at most 64 bytes, hashed or not. -/
theorem hmacConstruction : Obligations.HmacConstruction := by
  intro k m k' pad
  have hk : k'.length ≤ 64 := by
    show (if 64 < k.length then sha256 k else k).length ≤ 64
    split
    next => rw [sha256_length]; decide
    next h => exact Nat.not_lt.1 h
  have hpad (x : Byte) : xorBytes (hmacKey0 k) (bytes 64 x) = pad x := xorBytes_zeroExtended hk x
  exact ⟨hmac_length k m, by rw [hmac, hpad, hpad]⟩

/-! ## The PRF (42_hash.md R180) -/

/-- Fewer blocks are a prefix of more. -/
theorem prfBlocks_prefix (k seed : List Byte) {count count' : Nat} (h : count ≤ count') (a : List Byte) :
    prfBlocks k seed count a <+: prfBlocks k seed count' a := by
  induction count generalizing count' a with
  | zero => exact List.nil_prefix
  | succ n ih =>
    obtain ⟨d, rfl⟩ := Nat.exists_eq_add_of_le' h
    exact (List.prefix_append_right_inj _).2 (ih (Nat.le_add_left n d) _)

theorem le_mul_ceilDiv (n : Nat) : n ≤ 32 * ceilDiv n 32 := by
  rw [ceilDiv]
  omega

theorem ceilDiv_mono {n n' : Nat} (h : n ≤ n') (b : Nat) : ceilDiv n b ≤ ceilDiv n' b :=
  Nat.div_le_div_right (by omega)

/-- A shorter output is the beginning of a longer one, since the blocks are and its own blocks hold all of it. -/
theorem prf_eq_take_prf (k r : List Byte) {n n' : Nat} (h : n ≤ n') : prf k r n = (prf k r n').take n := by
  obtain ⟨more, hmore⟩ := prfBlocks_prefix k (masterSecret ++ r) (ceilDiv_mono h 32) (masterSecret ++ r)
  simp only [prf]
  rw [List.take_take, Nat.min_eq_left h, ← hmore,
    List.take_append_of_le_length (by rw [prfBlocks_length]; exact le_mul_ceilDiv n)]

/-- Settles O44: the blocks do not depend on how many are asked for; the checks are those of HMAC. -/
theorem prfDeriveResult : Obligations.PrfDeriveResult :=
  ⟨fun k r n _ h => ⟨prf_eq_take_prf k r h, prf_length k r n⟩, fun _ =>
    ⟨onlyWordOf_encode (i := .prfDerive) (by decide), finishesUnless_of_keySrcChecks rfl⟩⟩

end Sys2Proof.Machine
end

section
/-! SUPPORT. The statements about AES-128-CBC decryption, GEA and the CRC: the checks of their operations, CBC block by
block, GEA done twice, and the CRC of a sequence that ends in its own CRC. -/

namespace Sys2Proof.Machine

variable {i : Instr} {s b : State} {p bad : Prop} {n : Nat} {v : List Byte}

/-! ## A range or length check before the others -/

/-- An operation that raises `BAD_OPERAND` on one check and goes on as `b` without it. -/
theorem finishesUnless_of_check {fails : Prop} [Decidable fails] (hp : fails ↔ p)
    (h : exec i s = .next (if fails then s.raise .badOperand else b))
    (hb : exec i s = .next b → FinishesUnless i s bad n v) : FinishesUnless i s (p ∨ bad) n v := by
  by_cases hf : fails
  · rw [if_pos hf] at h
    exact finishesUnless_of_raise (.inl (hp.1 hf)) h
  · rw [if_neg hf] at h
    exact (hb h).or_of_not (mt hp.2 hf)

theorem srcCheck_iff (s : State) : (!s.srcOk) = true ↔ ¬ InBuf s s.regs.srcAddr s.regs.srcLen.toNat := by
  rw [Bool.not_eq_true', ← Bool.not_eq_true, srcOk_iff]

theorem keyCheck_iff (s : State) : (!s.keyOk) = true ↔ ¬ InBuf s s.regs.keyAddr s.regs.keyLen.toNat := by
  rw [Bool.not_eq_true', ← Bool.not_eq_true, keyOk_iff]

theorem ivCheck_iff (s : State) : (!s.ivOk) = true ↔ ¬ InBuf s s.regs.ivAddr s.regs.ivLen.toNat := by
  rw [Bool.not_eq_true', ← Bool.not_eq_true, ivOk_iff]

/-! ## `AES128_CBC_DEC` -/

theorem keyMaterialCheck_iff (s : State) :
    (s.regs.keyLen != 16#32 || s.regs.ivLen != 16#32) = true ↔ s.regs.keyLen ≠ 16#32 ∨ s.regs.ivLen ≠ 16#32 := by
  rw [Bool.or_eq_true, bne_iff_ne, bne_iff_ne]

theorem exec_aes128CbcDec_of_badLen (h : s.regs.keyLen ≠ 16#32 ∨ s.regs.ivLen ≠ 16#32) :
    exec .aes128CbcDec s = .next (s.raise .invalidKeyMaterial) :=
  congrArg Host.Outcome.next (if_pos ((keyMaterialCheck_iff s).2 h))

/-- What is left of `AES128_CBC_DEC` once the key's and the IV's lengths have been checked. -/
def State.cbcDecrypted (s : State) : State :=
  if !s.keyOk then s.raise .badOperand
  else if !s.ivOk then s.raise .badOperand
  else if !s.srcOk then s.raise .badOperand
  else if s.srcLen % 16 != 0 then s.raise .badOperand
  else s.finish s.srcLen (cbcDec s.key s.iv s.src)

theorem exec_aes128CbcDec (h : ¬ (s.regs.keyLen ≠ 16#32 ∨ s.regs.ivLen ≠ 16#32)) :
    exec .aes128CbcDec s = .next s.cbcDecrypted :=
  congrArg Host.Outcome.next (if_neg (mt (keyMaterialCheck_iff s).1 h))

/-- The range and length checks, with the lengths still in their registers. -/
theorem finishesUnless_cbcDecrypted (h : exec i s = .next s.cbcDecrypted) :
    FinishesUnless i s (¬ InBuf s s.regs.keyAddr s.regs.keyLen.toNat ∨ ¬ InBuf s s.regs.ivAddr s.regs.ivLen.toNat ∨
      ¬ InBuf s s.regs.srcAddr s.regs.srcLen.toNat ∨ s.regs.srcLen.toNat % 16 ≠ 0 ∨
      ¬ InBuf s s.regs.dstAddr s.regs.srcLen.toNat) s.regs.srcLen.toNat (cbcDec s.key s.iv s.src) :=
  finishesUnless_of_check (keyCheck_iff s) h fun h => finishesUnless_of_check (ivCheck_iff s) h fun h =>
    finishesUnless_of_check (srcCheck_iff s) h fun h => finishesUnless_of_check bne_iff_ne h finishesUnless_of_finish

/-- Settles O45: the lengths of the key and the IV first, then the other checks in order. -/
theorem aes128CbcDecResult : Obligations.Aes128CbcDecResult := by
  intro s n badLen bad
  have hfin (hlen : ¬ badLen) : FinishesUnless .aes128CbcDec s bad n
      (cbcDec (s.memRead s.regs.keyAddr.toNat 16) (s.memRead s.regs.ivAddr.toNat 16) s.src) := by
    have h := finishesUnless_cbcDecrypted (exec_aes128CbcDec hlen)
    obtain ⟨hkey, hiv⟩ : s.regs.keyLen = 16#32 ∧ s.regs.ivLen = 16#32 := by simpa [badLen] using hlen
    rw [State.key, State.iv, hkey, hiv] at h
    exact h
  exact ⟨onlyWordOf_encode (i := .aes128CbcDec) (by decide),
    fun hlen => raisesWith_raise (exec_aes128CbcDec_of_badLen hlen), fun hlen => (hfin hlen).1, fun hlen => (hfin hlen).2⟩

/-! ## CBC block by block (43_ciphers.md R206) -/

/-- Plaintext block `i`: the decrypted ciphertext block exclusive-or the one before it, the IV for the first. -/
def cbcBlock (dec : List Byte → List Byte) (iv c : List Byte) (i : Nat) : List Byte :=
  xorBytes (dec (slice c (16 * i) (16 * i + 16))) (if i = 0 then iv else slice c (16 * (i - 1)) (16 * i))

theorem slice_drop (c : List Byte) (m j k : Nat) : slice (c.drop m) j k = slice c (m + j) (m + k) := by
  rw [slice, slice, List.drop_drop, Nat.add_sub_add_left]

/-- Behind the first block, CBC goes on with that block in the IV's place. -/
theorem cbcBlock_succ (dec : List Byte → List Byte) (iv c : List Byte) (i : Nat) :
    cbcBlock dec iv c (i + 1) = cbcBlock dec (c.take 16) (c.drop 16) i := by
  rw [cbcBlock, cbcBlock, slice_drop, slice_drop, show 16 * (i + 1) = 16 + 16 * i by ring]
  congr 1
  cases i with
  | zero => rfl
  | succ j => rw [if_neg (Nat.succ_ne_zero _), if_neg (Nat.succ_ne_zero _), Nat.add_sub_cancel, Nat.add_sub_cancel,
      Nat.mul_succ, Nat.add_comm]

theorem cbcChain_blocks (dec : List Byte → List Byte) (iv c : List Byte) (n : Nat) :
    cbcChain dec iv (blocks 16 n c) = (List.range n).flatMap (cbcBlock dec iv c) := by
  induction n generalizing iv c with
  | zero => rfl
  | succ n ih =>
    rw [blocks, cbcChain, ih, List.range_succ_eq_map, List.flatMap_cons, List.flatMap_map]
    simp only [Nat.succ_eq_add_one, cbcBlock_succ]
    rfl

theorem cbcBlock_length {dec : List Byte → List Byte} {iv c : List Byte} {j : Nat} (hd : ∀ x, (dec x).length = 16)
    (hv : iv.length = 16) (hj : 16 * j ≤ c.length) : (cbcBlock dec iv c j).length = 16 := by
  have hprev : (if j = 0 then iv else slice c (16 * (j - 1)) (16 * j)).length = 16 := by
    split
    next => exact hv
    next h => rw [slice_length_eq hj]; omega
  rw [cbcBlock, xorBytes_length, hd, hprev, Nat.min_self]

/-- Settles O46: the plaintext is put together from its blocks, all of 16 bytes. -/
theorem cbcDecryptsBlockwise : Obligations.CbcDecryptsBlockwise := by
  intro k iv c hk hv hc
  refine ⟨cbcDec_length hk hv hc, fun i hi => ?_⟩
  have hlen (j : Nat) (hj : j < c.length / 16) : (cbcBlock (aesDecBlock (keySchedule k)) iv c j).length = 16 :=
    cbcBlock_length (aesDecBlock_length hk) hv (by omega)
  rw [cbcDec, cbcChain_blocks]
  exact slice_flatMap_range (fun j hj => hlen j (by omega)) (fun j hj => (hlen j hj).le) hi

/-! ## GEA -/

/-- Settles O47: `GEA_XOR` checks its source, the parity of its length, and its output's place. -/
theorem geaXorResult : Obligations.GeaXorResult := fun s =>
  ⟨onlyWordOf_encode (i := .geaXor) (by decide), finishesUnless_of_check (srcCheck_iff s) rfl fun h =>
    finishesUnless_of_check bne_iff_ne h finishesUnless_of_finish⟩

/-- GEA on a sequence whose first word is given as a number. -/
theorem gea_toLE16_append (next : Word → Word × BitVec 16) (st : Word) (w : BitVec 16) (d : List Byte) :
    gea next st (toLE16 w.toNat ++ d) = toLE16 (w ^^^ (next st).2).toNat ++ gea next (next st).1 d := by
  have hw : BitVec.ofNat 16 (le16 (toLE16 w.toNat)) = w := by
    rw [← List.append_nil (toLE16 w.toNat), le16_toLE16 w.isLt, BitVec.ofNat_toNat, BitVec.setWidth_eq]
  conv_rhs => rw [← hw]
  rfl

/-- The first two bytes are the word they stand for. -/
theorem toLE16_word (b0 b1 : Byte) : toLE16 (BitVec.ofNat 16 (le16 [b0, b1])).toNat = [b0, b1] := by
  rw [BitVec.toNat_ofNat, Nat.mod_eq_of_lt (le16_lt _), toLE16_le16]

/-- GEA undoes itself: both runs go through the same states, and each word meets its keystream twice. -/
theorem gea_gea (next : Word → Word × BitVec 16) (st : Word) {d : List Byte} (h : d.length % 2 = 0) :
    gea next st (gea next st d) = d := by
  match d, h with
  | [], _ => rfl
  | [_], h => simp at h
  | b0 :: b1 :: r, h =>
    have ih : gea next (next st).1 (gea next (next st).1 r) = r := gea_gea next _ (by simp at h; omega)
    rw [gea, gea_toLE16_append, BitVec.xor_assoc, BitVec.xor_self, BitVec.xor_zero, toLE16_word, ih]
    rfl

/-- Settles O48, by induction on the words. -/
theorem geaIsInvolution : Obligations.GeaIsInvolution := fun next seed _ h => gea_gea next seed h

/-! ## The CRC -/

/-- Settles O49: `CRC32_MPEG2` checks its source, and writes `RESULT` alone. -/
theorem crc32Mpeg2Result : Obligations.Crc32Mpeg2Result := by
  refine fun s => ⟨onlyWordOf_encode (i := .crc32Mpeg2) (by decide), fun hs => ?_, fun hs => ?_⟩
  · exact raisesWith_raise (congrArg Host.Outcome.next (if_pos ((srcCheck_iff s).2 hs)))
  · exact completesWith_of_complete_nil (s' := { s with regs := { s.regs with result := crc32Mpeg2 s.src } })
      (congrArg Host.Outcome.next (if_neg (mt (srcCheck_iff s).1 (not_not.2 hs)))) rfl rfl rfl rfl rfl rfl

/-- No division step, where the top bit is clear. -/
theorem crcBit_of_top_clear {c : Word} (h : c.getLsbD 31 = false) : crcBit c = c <<< 1 :=
  if_neg (Bool.eq_false_iff.1 h)

/-- As long as only clear bits leave the register, the CRC shifts it. -/
theorem crcBit_iterate_of_top_clear {k : Nat} {c : Word} (h : ∀ j, 32 - k ≤ j → c.getLsbD j = false) :
    crcBit^[k] c = c <<< k := by
  induction k generalizing c with
  | zero => simp
  | succ k ih =>
    have hnext : ∀ j, 32 - k ≤ j → (c <<< 1).getLsbD j = false := fun j hj => by
      rw [BitVec.getLsbD_shiftLeft, h (j - 1) (by omega), Bool.and_false]
    rw [Function.iterate_succ_apply, crcBit_of_top_clear (h 31 (by omega)), ih hnext, ← BitVec.shiftLeft_add,
      Nat.add_comm 1 k]

theorem crcByte_eq_iterate (c : Word) (b : Byte) : crcByte c b = crcBit^[8] (c ^^^ b.setWidth 32 <<< 24) := rfl

/-- The register's top byte, fed to the CRC, cancels itself: the rest of the register moves up. -/
theorem crcByte_top (c : Word) : crcByte c (c.extractLsb' 24 8) = c <<< 8 := by
  have hclear : ∀ j, 32 - 8 ≤ j → (c ^^^ (c.extractLsb' 24 8).setWidth 32 <<< 24).getLsbD j = false := fun j hj => by
    by_cases h32 : j < 32
    · simp [show ¬ j < 24 by omega, show j - 24 < 8 by omega, show 24 + (j - 24) = j by omega, h32]
    · exact BitVec.getLsbD_of_ge _ _ (Nat.not_lt.1 h32)
  rw [crcByte_eq_iterate, crcBit_iterate_of_top_clear hclear, BitVec.shiftLeft_xor_distrib,
    ← BitVec.shiftLeft_add (_ : Word) 24, BitVec.shiftLeft_eq_zero (n := 24 + 8) (by decide), BitVec.xor_zero]

theorem toBE32_eq (c : Word) :
    toBE32 c.toNat = [c.extractLsb' 24 8, c.extractLsb' 16 8, c.extractLsb' 8 8, c.extractLsb' 0 8] := by
  simp [toBE32, beBytes, leBytes, BitVec.extractLsb', Nat.shiftRight_eq_div_pow, Nat.div_div_eq_div_mul]

/-- Each byte is the top one once those above it have moved out. -/
theorem extractLsb'_shiftLeft_top (c : Word) {k : Nat} (h : k ≤ 24) :
    (c <<< k).extractLsb' 24 8 = c.extractLsb' (24 - k) 8 := by
  refine BitVec.eq_of_getLsbD_eq fun j hj => ?_
  rw [BitVec.getLsbD_extractLsb', BitVec.getLsbD_extractLsb', BitVec.getLsbD_shiftLeft,
    show 24 + j - k = 24 - k + j by omega, decide_eq_true (show 24 + j < 32 by omega),
    decide_eq_false (show ¬ 24 + j < k by omega), Bool.not_false, Bool.and_self, Bool.true_and]

/-- A register run on over its own bytes is empty. -/
theorem foldl_crcByte_toBE32 (c : Word) : (toBE32 c.toNat).foldl crcByte c = 0#32 := by
  have hshift (k : Nat) (h : k ≤ 24) : crcByte (c <<< k) (c.extractLsb' (24 - k) 8) = c <<< (k + 8) := by
    rw [← extractLsb'_shiftLeft_top c h, crcByte_top, BitVec.shiftLeft_add]
  rw [toBE32_eq, List.foldl_cons, List.foldl_cons, List.foldl_cons, List.foldl_cons, List.foldl_nil, crcByte_top,
    hshift 8 (by decide), hshift 16 (by decide), hshift 24 (by decide)]
  exact BitVec.shiftLeft_eq_zero (Nat.le_refl _)

/-- Settles O50: the CRC of `d` is the register that its four bytes are fed to. -/
theorem crcOverItsOwnValueIsZero : Obligations.CrcOverItsOwnValueIsZero := fun d => by
  rw [crc32Mpeg2, List.foldl_append]
  exact foldl_crcByte_toBE32 _

end Sys2Proof.Machine
end

section
/-! SUPPORT. The statements about the handshake: the checks that `GTLS_IDENTIFY` and `GTLS_DONE` share, what each of the
three steps does, the moves of `GTLS_STATE`, and the three steps in a row. -/

namespace Sys2Proof.Machine

variable {s t u : State} {i : Instr} {e : ErrCode} {need : GtlsState} {tag len : Nat}

/-- A failed handshake step (44_gtls.md R240), as the claims say it. -/
theorem raisesWith_failGtls (h : exec i s = .next (s.failGtls e)) :
    RaisesWith i s e { s.regs with gtlsState := .failed } s.status.rxActive :=
  raisesWith_of_raise (s' := s.setGtls .failed) h rfl rfl rfl rfl rfl rfl

/-! ## `GTLS_HELLO` (R243) -/

/-- The state after the ClientHello was written, before its completion. -/
def State.helloSent (s : State) : State :=
  (s.output 40 (helloPayload (arrayBytes s.regs.clientRandom))).setGtls .serverIdentify

theorem exec_gtlsHello_eq (s : State) : exec .gtlsHello s = .next (
    if !s.dstOk 40 then s.failGtls .badOperand else s.helloSent.complete) := rfl

theorem exec_gtlsHello_of_not_dst (hd : ¬ InBuf s s.regs.dstAddr 40) :
    exec .gtlsHello s = .next (s.failGtls .badOperand) := by
  rw [exec_gtlsHello_eq, dstOk_of_not_inBuf hd]
  rfl

theorem completesWith_gtlsHello (hd : InBuf s s.regs.dstAddr 40) :
    CompletesWith .gtlsHello s { s.regs with dstLen := 40#32, gtlsState := .serverIdentify } s.status.rxActive
      s.regs.dstAddr.toNat (helloPayload (arrayBytes s.regs.clientRandom)) := by
  refine completesWith_of_complete (s' := s.helloSent) ?_ rfl rfl rfl rfl rfl rfl
  rw [exec_gtlsHello_eq, dstOk_of_inBuf hd]
  rfl

theorem helloPayload_eq {cr : List Byte} (h : cr.length = 32) :
    helloPayload cr = [0x01#8, 0xff#8, 0x00#8, 0x00#8, 0x28#8, 0x00#8, 0x00#8, 0x00#8] ++ cr := by
  rw [helloPayload, mcuPayload, h]
  rfl

/-- Settles O52: `GTLS_HELLO` looks at its output's place only. -/
theorem gtlsHelloResult : Obligations.GtlsHelloResult := by
  refine fun s => ⟨onlyWordOf_encode (i := .gtlsHello) (by decide), fun hd => ?_, fun hd => ?_⟩
  · exact raisesWith_failGtls (exec_gtlsHello_of_not_dst hd)
  · rw [← helloPayload_eq (arrayBytes_length _)]
    exact completesWith_gtlsHello hd

/-! ## The checks that `GTLS_IDENTIFY` and `GTLS_DONE` share (R245, R250) -/

/-- A step that is accepted in the state `need` only, on an MCU payload with the data type `tag` and a body of `len`
bytes; `b` is what is left of it after these checks. -/
def State.checkedMessage (s : State) (need : GtlsState) (tag len : Nat) (b : State) : State :=
  if s.regs.gtlsState != need then s.raise .badState
  else if !s.srcOk then s.failGtls .badOperand
  else if s.srcLen < 8 || mcuTag s.src != tag || mcuDeclared s.src != s.srcLen then s.failGtls .protocolMismatch
  else if s.srcLen - 8 != len then s.failGtls .protocolMismatch
  else b

/-- The source is no MCU payload with the data type `tag` and a body of `len` bytes. -/
def MessageMismatch (s : State) (tag len : Nat) : Prop :=
  s.regs.srcLen.toNat < 8 ∨ mcuTag s.src ≠ tag ∨ mcuDeclared s.src ≠ s.regs.srcLen.toNat ∨
    s.regs.srcLen.toNat - 8 ≠ len

theorem not_messageMismatch_of_srcLen {w : Word} (hw : w.toNat = 8 + len) (hn : s.regs.srcLen = w)
    (htag : mcuTag s.src = tag) (hdecl : mcuDeclared s.src = 8 + len) : ¬ MessageMismatch s tag len := by
  rw [MessageMismatch, hn, hw, htag, hdecl]
  simp

theorem checkedMessage_of_state (hg : s.regs.gtlsState ≠ need) :
    s.checkedMessage need tag len u = s.raise .badState :=
  if_pos (bne_iff_ne.2 hg)

section

variable (hg : s.regs.gtlsState = need)

include hg

theorem checkedMessage_of_not_src (hs : ¬ InBuf s s.regs.srcAddr s.regs.srcLen.toNat) :
    s.checkedMessage need tag len u = s.failGtls .badOperand := by
  rw [State.checkedMessage, hg, srcOk_of_not_inBuf hs]
  simp

variable (hs : InBuf s s.regs.srcAddr s.regs.srcLen.toNat)

include hs

theorem checkedMessage_of_mismatch (hm : MessageMismatch s tag len) :
    s.checkedMessage need tag len u = s.failGtls .protocolMismatch := by
  rw [State.checkedMessage, hg, srcOk_of_inBuf hs, State.srcLen]
  rcases hm with h | h | h | h <;> simp [h]

theorem checkedMessage_of_match (hm : ¬ MessageMismatch s tag len) : s.checkedMessage need tag len u = u := by
  simp only [MessageMismatch, not_or, not_not] at hm
  obtain ⟨hn, htag, hdecl, hlen⟩ := hm
  rw [State.checkedMessage, hg, srcOk_of_inBuf hs, State.srcLen, htag, hdecl, hlen]
  simp [hn]

end

/-! ## `GTLS_IDENTIFY` (R245 to R248) -/

/-- The server's random in the message at `src`. -/
def State.sentRandom (s : State) : List Byte := slice s.src 8 40

/-- The server's identity in the message at `src`. -/
def State.sentIdentity (s : State) : List Byte := slice s.src 40 72

/-- The client's random and the server's. -/
def State.randoms (s : State) : List Byte := arrayBytes s.regs.clientRandom ++ s.sentRandom

/-- The key material of the coming `GTLS_IDENTIFY`. -/
def State.derivedKeys (s : State) : List Byte := prf (arrayBytes s.regs.psk) s.randoms s.params.kdfOut

/-- The identity that the engine derives. -/
def State.derivedIdentity (s : State) : List Byte := hmac (slice s.derivedKeys 32 64) s.randoms

/-- The state after the session and the reply were written, before the completion. -/
def State.identified (s : State) : State :=
  (State.output
    { s with regs := s.regs.withSession s.sentRandom s.sentIdentity s.derivedIdentity s.derivedKeys }
    44 (identifyReply s.sentIdentity)).setGtls .serverDone

/-- What is left of `GTLS_IDENTIFY` after the checks of its message. -/
def State.checkedIdentity (s : State) : State :=
  if !s.dstOk 44 then s.failGtls .badOperand
  else if s.derivedIdentity != s.sentIdentity then s.failGtls .handshakeIdentityMismatch
  else s.identified.complete

theorem exec_gtlsIdentify_eq (s : State) :
    exec .gtlsIdentify s = .next (s.checkedMessage .serverIdentify 0xFF02 64 s.checkedIdentity) := rfl

theorem checkedIdentity_of_not_dst (hd : ¬ InBuf s s.regs.dstAddr 44) :
    s.checkedIdentity = s.failGtls .badOperand := by
  rw [State.checkedIdentity, dstOk_of_not_inBuf hd]
  rfl

theorem checkedIdentity_of_mismatch (hd : InBuf s s.regs.dstAddr 44) (hid : s.derivedIdentity ≠ s.sentIdentity) :
    s.checkedIdentity = s.failGtls .handshakeIdentityMismatch := by
  rw [State.checkedIdentity, dstOk_of_inBuf hd, if_neg (by decide), if_pos (bne_iff_ne.2 hid)]

theorem checkedIdentity_of_match (hd : InBuf s s.regs.dstAddr 44) (hid : s.derivedIdentity = s.sentIdentity) :
    s.checkedIdentity = s.identified.complete := by
  rw [State.checkedIdentity, dstOk_of_inBuf hd, hid, if_neg (by decide), bne_self_eq_false, if_neg (by decide)]

section

variable (hg : s.regs.gtlsState = .serverIdentify) (hs : InBuf s s.regs.srcAddr s.regs.srcLen.toNat)
  (hm : ¬ MessageMismatch s 0xFF02 64)

include hg hs hm

theorem exec_gtlsIdentify_of_match : exec .gtlsIdentify s = .next s.checkedIdentity := by
  rw [exec_gtlsIdentify_eq, checkedMessage_of_match hg hs hm]

variable (hd : InBuf s s.regs.dstAddr 44)

include hd

theorem raisesWith_gtlsIdentify_of_identity (hid : s.derivedIdentity ≠ s.sentIdentity) :
    RaisesWith .gtlsIdentify s .handshakeIdentityMismatch { s.regs with gtlsState := .failed } s.status.rxActive :=
  raisesWith_failGtls (by rw [exec_gtlsIdentify_of_match hg hs hm, checkedIdentity_of_mismatch hd hid])

theorem completesWith_gtlsIdentify (hid : s.derivedIdentity = s.sentIdentity) :
    CompletesWith .gtlsIdentify s s.identified.regs s.status.rxActive s.regs.dstAddr.toNat
      (identifyReply s.sentIdentity) :=
  completesWith_of_complete (s' := s.identified)
    (by rw [exec_gtlsIdentify_of_match hg hs hm, checkedIdentity_of_match hd hid]) rfl rfl rfl rfl rfl rfl

end

/-- Settles O53: the checks of the message, then the output's place, then the identity. -/
theorem gtlsIdentifyResult : Obligations.GtlsIdentifyResult := by
  intro s n m failed mismatch cr sr sid km cid
  have hexec := exec_gtlsIdentify_eq s
  refine ⟨onlyWordOf_encode (i := .gtlsIdentify) (by decide), fun hg => ?_, fun hg => ⟨fun hs => ?_, fun hs =>
    ⟨fun hm => ?_, fun hm hd => ?_, raisesWith_gtlsIdentify_of_identity hg hs, completesWith_gtlsIdentify hg hs⟩⟩⟩
  · exact raisesWith_raise (by rw [hexec, checkedMessage_of_state hg])
  · exact raisesWith_failGtls (by rw [hexec, checkedMessage_of_not_src hg hs])
  · exact raisesWith_failGtls (by rw [hexec, checkedMessage_of_mismatch hg hs hm])
  · exact raisesWith_failGtls (by rw [exec_gtlsIdentify_of_match hg hs hm, checkedIdentity_of_not_dst hd])

/-! ## `GTLS_DONE` (R250) -/

/-- The state after the counters were seeded, before the completion. -/
def State.sessionOpened (s : State) : State :=
  (State.setDstLen { s with regs := s.regs.seedCounters } 0).setGtls .established

/-- What is left of `GTLS_DONE` after the checks of its message. -/
def State.checkedVerdict (s : State) : State :=
  if byteAt s.src 8 != 0x00#8 then s.failGtls .handshakeRejected else s.sessionOpened.complete

theorem exec_gtlsDone_eq (s : State) :
    exec .gtlsDone s = .next (s.checkedMessage .serverDone 0xFF04 1 s.checkedVerdict) := rfl

theorem checkedVerdict_of_rejected (hb : byteAt s.src 8 ≠ 0#8) :
    s.checkedVerdict = s.failGtls .handshakeRejected :=
  if_pos (bne_iff_ne.2 hb)

theorem checkedVerdict_of_accepted (hb : byteAt s.src 8 = 0#8) : s.checkedVerdict = s.sessionOpened.complete :=
  if_neg (not_not.2 hb ∘ bne_iff_ne.1)

/-- The counters' seeds as numbers (10_state.md R31). -/
theorem seedCounters_eq (r : Regs) : r.seedCounters = { r with
    hmacClientCtr := toWord (r.ctrSeed.toNat % 65536), hmacServerCtr := toWord (r.ctrSeed.toNat / 65536) } := by
  have hclient : (r.ctrSeed.extractLsb' 0 16).setWidth 32 = toWord (r.ctrSeed.toNat % 65536) := by
    apply BitVec.eq_of_toNat_eq
    simp [toWord]
  have hserver : (r.ctrSeed.extractLsb' 16 16).setWidth 32 = toWord (r.ctrSeed.toNat / 65536) := by
    apply BitVec.eq_of_toNat_eq
    simp [toWord, Nat.shiftRight_eq_div_pow]
    omega
  rw [Regs.seedCounters, hclient, hserver]

theorem raisesWith_gtlsDone_of_state (hg : s.regs.gtlsState ≠ .serverDone) :
    RaisesWith .gtlsDone s .badState s.regs s.status.rxActive :=
  raisesWith_raise (by rw [exec_gtlsDone_eq, checkedMessage_of_state hg])

section

variable (hg : s.regs.gtlsState = .serverDone) (hs : InBuf s s.regs.srcAddr s.regs.srcLen.toNat)
  (hm : ¬ MessageMismatch s 0xFF04 1)

include hg hs hm

theorem exec_gtlsDone_of_match : exec .gtlsDone s = .next s.checkedVerdict := by
  rw [exec_gtlsDone_eq, checkedMessage_of_match hg hs hm]

theorem completesWith_gtlsDone (hb : byteAt s.src 8 = 0#8) :
    CompletesWith .gtlsDone s
      { s.regs with
        hmacClientCtr := toWord (s.regs.ctrSeed.toNat % 65536), hmacServerCtr := toWord (s.regs.ctrSeed.toNat / 65536)
        dstLen := 0#32, gtlsState := .established }
      s.status.rxActive 0 [] := by
  have h := completesWith_of_complete_nil (i := .gtlsDone) (s := s) (s' := s.sessionOpened) (a := 0)
    (by rw [exec_gtlsDone_of_match hg hs hm, checkedVerdict_of_accepted hb]) rfl rfl rfl rfl rfl rfl
  rw [State.sessionOpened, setGtls_regs, setDstLen_regs, seedCounters_eq] at h
  exact h

end

/-- Settles O55: the checks of the message, then its status byte. -/
theorem gtlsDoneResult : Obligations.GtlsDoneResult := by
  intro s n m failed mismatch
  have hexec := exec_gtlsDone_eq s
  refine ⟨onlyWordOf_encode (i := .gtlsDone) (by decide), raisesWith_gtlsDone_of_state, fun hg => ⟨fun hs => ?_,
    fun hs => ⟨fun hm => ?_, fun hm hb => ?_, completesWith_gtlsDone hg hs⟩⟩⟩
  · exact raisesWith_failGtls (by rw [hexec, checkedMessage_of_not_src hg hs])
  · exact raisesWith_failGtls (by rw [hexec, checkedMessage_of_mismatch hg hs hm])
  · exact raisesWith_failGtls (by rw [exec_gtlsDone_of_match hg hs hm, checkedVerdict_of_rejected hb])

/-! ## The moves of `GTLS_STATE` (R240, R241) -/

/-- The state that a handshake step is accepted in. -/
def AcceptedIn : Instr → GtlsState → Prop
  | .gtlsIdentify, g => g = .serverIdentify
  | .gtlsDone, g => g = .serverDone
  | _, _ => True

/-- The state that a handshake step moves to when it succeeds. -/
def successState : Instr → GtlsState
  | .gtlsIdentify => .serverDone
  | .gtlsDone => .established
  | _ => .serverIdentify

/-- The endings of a handshake step: not accepted, failed, or succeeded. -/
inductive HandshakeEnding (s : State) (i : Instr) : State → Prop
  | refused : HandshakeEnding s i (s.raise .badState)
  | failed (hg : AcceptedIn i s.regs.gtlsState) {e : ErrCode} (he : e ≠ .badState) :
      HandshakeEnding s i (s.failGtls e)
  | succeeded (hg : AcceptedIn i s.regs.gtlsState) {u : State} (hu : u.regs.gtlsState = successState i) :
      HandshakeEnding s i u.complete

/-- A check that fails an accepted step. -/
theorem HandshakeEnding.orFail {c : Prop} [Decidable c] (hg : AcceptedIn i s.regs.gtlsState)
    (hu : HandshakeEnding s i u) (he : e ≠ .badState := by decide) :
    HandshakeEnding s i (if c then s.failGtls e else u) := by
  split
  next => exact .failed hg he
  next => exact hu

theorem HandshakeEnding.checkedMessage (hneed : AcceptedIn i need)
    (hu : AcceptedIn i s.regs.gtlsState → HandshakeEnding s i u) :
    HandshakeEnding s i (s.checkedMessage need tag len u) := by
  by_cases hg : s.regs.gtlsState = need
  · subst hg
    rw [State.checkedMessage, bne_self_eq_false, if_neg (by decide)]
    exact .orFail hneed <| .orFail hneed <| .orFail hneed (hu hneed)
  · rw [checkedMessage_of_state hg]
    exact .refused

/-- All a handshake step can do to `GTLS_STATE`. -/
theorem handshakeEnding (hi : isHandshakeStep i = true) (h : exec i s = .next t) : HandshakeEnding s i t := by
  cases i with
  | gtlsHello =>
    cases (exec_gtlsHello_eq s).symm.trans h
    exact .orFail (i := .gtlsHello) trivial (.succeeded (i := .gtlsHello) trivial rfl)
  | gtlsIdentify =>
    cases (exec_gtlsIdentify_eq s).symm.trans h
    exact .checkedMessage rfl fun hg => .orFail hg <| .orFail hg (.succeeded hg rfl)
  | gtlsDone =>
    cases (exec_gtlsDone_eq s).symm.trans h
    exact .checkedMessage rfl fun hg => .orFail hg (.succeeded hg rfl)
  | _ => cases hi

theorem GtlsState.word_injective {g g' : GtlsState} (h : g.word = g'.word) : g = g' := by
  revert h
  cases g <;> cases g' <;> decide

theorem HostMove.gtlsState (h : HostMove s t) : t.regs.gtlsState = s.regs.gtlsState := by
  cases h with
  | store ag hr => rw [hr]
  | _ => rfl

theorem mayWrite_gtlsState_iff (i : Instr) :
    mayWrite i .gtlsState = true ↔ isHandshakeStep i = true ∨ i = .srst := by
  cases i <;> simp [mayWrite, isHandshakeStep]

/-- Only a handshake step and `SRST` write `GTLS_STATE` (30_encoding.md R83). -/
theorem writer_of_gtlsState_ne (h : exec i s = .next t) (hne : t.regs.gtlsState ≠ s.regs.gtlsState) :
    isHandshakeStep i = true ∨ i = .srst := by
  rw [← mayWrite_gtlsState_iff]
  by_contra hw
  exact hne (GtlsState.word_injective ((exec_ending h).readReg (by decide) (Bool.eq_false_iff.2 hw)))

theorem HandshakeEnding.moves (h : HandshakeEnding s i t) (hne : t.regs.gtlsState ≠ s.regs.gtlsState) :
    AcceptedIn i s.regs.gtlsState ∧ (t.regs.gtlsState = successState i ∨ t.regs.gtlsState = .failed) := by
  cases h with
  | refused => exact absurd rfl hne
  | failed hg => exact ⟨hg, .inr rfl⟩
  | succeeded hg hu => exact ⟨hg, .inl hu⟩

theorem HandshakeEnding.succeeds (h : HandshakeEnding s i t) (he : t.status.err = false) :
    AcceptedIn i s.regs.gtlsState ∧ t.regs.gtlsState = successState i := by
  cases h with
  | refused | failed => cases he
  | succeeded hg hu => exact ⟨hg, hu⟩

theorem HandshakeEnding.regs_eq (h : HandshakeEnding s i t) (he : t.status.errcode = .badState) :
    t.regs = s.regs := by
  cases h with
  | refused => rfl
  | failed hg hne => exact absurd he hne
  | succeeded => cases he

theorem HandshakeEnding.fails (h : HandshakeEnding s i t) (he : t.status.err = true)
    (hne : t.status.errcode ≠ .badState) : t.regs.gtlsState = .failed := by
  cases h with
  | refused => exact absurd rfl hne
  | failed => rfl
  | succeeded => cases he

/-- `SRST` and the reset input both end with the registers at their reset values (70_reset_and_hazards.md R332). -/
theorem regs_of_reset_step (hc : Performs s .srst ∨ nextTurn s = .reset) (h : step s = .next t) :
    t.regs = Regs.reset := by
  obtain ⟨ht, w, hw, hd⟩ | ht := hc
  · rw [step_of_engine ht hw, perform_of_op hd] at h
    cases h
    rfl
  · simp only [step, turnStep, ht, onNext_next] at h
    cases h
    rfl

/-- Settles O23: a step of the host or of another operation leaves `GTLS_STATE` alone, and a handshake step has one of
its three endings. -/
theorem handshakeStateMoves : Obligations.HandshakeStateMoves := by
  refine ⟨fun s t h hne => ?_, fun s t hc h => ?_, fun i s t hi h => ?_⟩
  · obtain ⟨-, u, hu, rfl⟩ | ⟨-, -, rfl⟩ | ⟨ht, w, i, u, hw, hd, hu, rfl⟩ | ⟨-, w, r, -, -, rfl⟩ | ⟨ht, rfl⟩ :=
      step_cases h
    · exact absurd (hostMove_of_hostStep hu).gtlsState hne
    · exact absurd rfl hne
    · have hperf : Performs s i := ⟨ht, w, hw, hd⟩
      obtain hi | rfl := writer_of_gtlsState_ne hu hne
      · obtain ⟨hg, hmove⟩ := (handshakeEnding hi hu).moves hne
        cases i with
        | gtlsHello => exact .inr (.inr (.inl ⟨hperf, hmove⟩))
        | gtlsIdentify => exact .inr (.inr (.inr (.inl ⟨hperf, hg, hmove⟩)))
        | gtlsDone => exact .inr (.inr (.inr (.inr ⟨hperf, hg, hmove⟩)))
        | _ => cases hi
      · cases hu
        exact .inr (.inl ⟨hperf, rfl⟩)
    · exact absurd rfl hne
    · exact .inl ⟨ht, rfl⟩
  · rw [regs_of_reset_step hc h]
    rfl
  · have hend := handshakeEnding hi h
    refine ⟨fun he => ?_, hend.regs_eq, hend.fails⟩
    obtain ⟨hg, hu⟩ := hend.succeeds he
    cases i with
    | gtlsHello => exact .inl ⟨rfl, hu⟩
    | gtlsIdentify => exact .inr (.inl ⟨rfl, hg, hu⟩)
    | gtlsDone => exact .inr (.inr ⟨rfl, hg, hu⟩)
    | _ => cases hi

/-! ## The three steps in a row (R252, R253) -/

theorem OperandsOnly.gtlsState (h : OperandsOnly s t) : t.regs.gtlsState = s.regs.gtlsState := by
  rw [OperandsOnly] at h
  rw [h]

/-- Settles O57: the identity check fails, and nothing the host may write takes `GTLS_STATE` out of `FAILED`. -/
theorem craftedIdentityIsRefused : Obligations.CraftedIdentityIsRefused := by
  intro s hg hn hs hd htag hdecl hid
  have hm : ¬ MessageMismatch s 0xFF02 64 := not_messageMismatch_of_srcLen rfl hn htag hdecl
  obtain ⟨t, ht, hst, hregs, hbuf, -⟩ :=
    raisesWith_gtlsIdentify_of_identity hg (by rw [hn]; exact hs) hm hd (Ne.symm hid)
  refine ⟨t, ht, by rw [hst], hregs, hbuf, fun u hu => raisesWith_gtlsDone_of_state ?_⟩
  rw [hu.gtlsState, hregs]
  exact nofun

/-- What `GTLS_IDENTIFY` left in the session registers (R246, R247). -/
structure SessionHolds (r : Regs) (sr sid km : List Byte) : Prop where
  symKey : arrayBytes r.symKey = slice km 0 16
  symIv : arrayBytes r.symIv = slice km 16 32
  hmacKey : arrayBytes r.hmacKey = slice km 32 64
  serverRandom : arrayBytes r.serverRandom = sr
  identities : r.serverIdentity = r.clientIdentity
  clientIdentity : arrayBytes r.clientIdentity = sid
  ctrSeed : r.ctrSeed.toNat = le16 (slice km 64 66) + 65536 * le16 (slice km 66 68)

theorem sessionHolds_identified (hsrc : s.src.length = 72) (hkdf : s.params.kdfOut = 68)
    (hid : s.derivedIdentity = s.sentIdentity) :
    SessionHolds s.identified.regs s.sentRandom s.sentIdentity s.derivedKeys := by
  have hkeys : s.derivedKeys.length = 68 := (prf_length _ _ _).trans hkdf
  have hsent {i j : Nat} (h : j ≤ 72) : (slice s.src i j).length = j - i := slice_length_eq (by omega)
  have hkey {i j : Nat} (h : j ≤ 68) : (slice s.derivedKeys i j).length = j - i := slice_length_eq (by omega)
  have hlow := le16_lt (slice s.derivedKeys 64 66)
  have hhigh := le16_lt (slice s.derivedKeys 66 68)
  rw [State.identified, hid]
  exact ⟨arrayBytes_bytesArray (hkey (by decide)), arrayBytes_bytesArray (hkey (by decide)),
    arrayBytes_bytesArray (hkey (by decide)), arrayBytes_bytesArray (hsent (by decide)), rfl,
    arrayBytes_bytesArray (hsent (by decide)), toNat_toWord (by omega)⟩

/-- The session registers do not depend on the operand registers. -/
theorem SessionHolds.of_operandsOnly {sr sid km : List Byte} (h : SessionHolds s.regs sr sid km)
    (ht : OperandsOnly s t) : SessionHolds t.regs sr sid km := by
  rw [OperandsOnly] at ht
  rw [ht]
  obtain ⟨hkey, hiv, hhmac, hsr, hids, hid, hctr⟩ := h
  exact ⟨hkey, hiv, hhmac, hsr, hids, hid, hctr⟩

/-- Settles O56: `GTLS_HELLO` leads to `SERVER_IDENTIFY`, `GTLS_IDENTIFY` from there to `SERVER_DONE` with the session,
`GTLS_DONE` from there to `ESTABLISHED` with the counters. -/
theorem handshakeCompletes : Obligations.HandshakeCompletes := by
  intro s0 s1 s2 s3 cr sr km hd0 h0 h12 hq hn hs hd htag hdecl hid h2 s4 h34 hn4 hs4 hsrc4
  obtain ⟨-, hregs1, -⟩ := (completesWith_gtlsHello hd0).of_next h0
  rw [OperandsOnly, hregs1] at h12
  have hkeys : s2.derivedKeys = km := by
    rw [State.derivedKeys, State.randoms, hq.kdfOut, h12]
    rfl
  have hderived : s2.derivedIdentity = s2.sentIdentity := by
    rw [State.derivedIdentity, State.randoms, hkeys, h12]
    exact hid.symm
  have hm : ¬ MessageMismatch s2 0xFF02 64 := not_messageMismatch_of_srcLen rfl hn htag hdecl
  obtain ⟨-, hregs3, -⟩ := (completesWith_gtlsIdentify (congrArg Regs.gtlsState h12) (by rw [hn]; exact hs) hm hd
    hderived).of_next h2
  have hlen : s2.src.length = 72 := by rw [src_length, State.srcLen, hn]; rfl
  have hsession := sessionHolds_identified hlen hq.kdfOut hderived
  rw [← hregs3, hkeys] at hsession
  obtain ⟨hkey, hiv, hhmac, hsr, hids, hcid, hctr⟩ := hsession.of_operandsOnly h34
  have hg4 : s4.regs.gtlsState = .serverDone := by rw [h34.gtlsState, hregs3]; rfl
  have hm4 : ¬ MessageMismatch s4 0xFF04 1 :=
    not_messageMismatch_of_srcLen rfl hn4 (by rw [hsrc4]; rfl) (by rw [hsrc4]; rfl)
  obtain ⟨s5, h5, hst, hregs5, -⟩ :=
    completesWith_gtlsDone hg4 (by rw [hn4]; exact hs4) hm4 (by rw [hsrc4]; rfl)
  have hlow := le16_lt (slice km 64 66)
  have hhigh := le16_lt (slice km 66 68)
  refine ⟨s5, h5, by rw [hst], ?_⟩
  rw [hregs5]
  exact ⟨rfl, hkey, hiv, hhmac, hsr, hids, hcid, hctr, (toNat_toWord (by omega)).trans (by omega),
    (toNat_toWord (by omega)).trans (by omega)⟩

end Sys2Proof.Machine
end

section
/-! SUPPORT. The statements about the sensor channel: the byte order of the CRC trailer, the body's split block by block,
and the checks and endings of `SENSOR_DECRYPT`. -/

namespace Sys2Proof.Machine

variable {s t u : State} {e : ErrCode} {q : Params} {mid n j : Nat} {restart : Bool}
  {k v body buf prev rest : List Byte}

/-! ## The CRC trailer (45_sensor.md R277) -/

/-- The trailer's value is read low byte first once the bytes of each half change places. -/
theorem crcTrailer_eq_le32 (a b c d : Byte) : crcTrailer [a, b, c, d] = le32 [b, a, d, c] := by
  show a.toNat * 0x100 + b.toNat + c.toNat * 0x1000000 + d.toNat * 0x10000 = _
  rw [le32_cons]
  omega

theorem le32_eq_iff (a b c d : Byte) {m : Nat} (hm : m < 2 ^ 32) :
    le32 [a, b, c, d] = m ↔ [a, b, c, d] = toLE32 m := by
  constructor
  · intro h
    rw [← h, toLE32_le32]
  · intro h
    rw [h, ← List.append_nil (toLE32 m), le32_toLE32 hm]

theorem toLE32_word (c : Word) :
    toLE32 c.toNat = [c.extractLsb' 0 8, c.extractLsb' 8 8, c.extractLsb' 16 8, c.extractLsb' 24 8] :=
  List.reverse_injective (toBE32_eq c)

/-- Settles O51: low byte first, four bytes stand for one number each. -/
theorem crcTrailerOrder : Obligations.CrcTrailerOrder := by
  intro c q hq
  obtain ⟨a, b, d, e, rfl⟩ := length_four hq
  rw [crcTrailer_eq_le32, le32_eq_iff _ _ _ _ c.isLt, toLE32_word]
  simp only [List.cons.injEq, and_true]
  exact ⟨fun ⟨hb, ha, he, hd⟩ => ⟨ha, hb, hd, he⟩, fun ⟨ha, hb, hd, he⟩ => ⟨hb, ha, he, hd⟩⟩

/-! ## The split block by block (R271, R273) -/

theorem splitFrom_succ_of_odd (hj : j % 2 = 1) :
    splitFrom q mid restart k v (n + 1) j prev rest =
      cbcDec k (if restart then v else prev) (rest.take q.sensorAesBlk) ++
        splitFrom q mid restart k v n (j + 1) (slice rest (q.sensorAesBlk - 16) q.sensorAesBlk)
          (rest.drop q.sensorAesBlk) := by
  have hlast : slice (rest.take q.sensorAesBlk) (q.sensorAesBlk - 16) q.sensorAesBlk =
      slice rest (q.sensorAesBlk - 16) q.sensorAesBlk := by
    rw [slice, List.drop_take, List.take_take, Nat.min_self, slice]
  rw [splitFrom, if_pos hj, blockSize_odd hj, hlast]

theorem splitFrom_succ_of_even (hj : j % 2 = 0) :
    splitFrom q mid restart k v (n + 1) j prev rest =
      rest.take (blockSize q mid j) ++ splitFrom q mid restart k v n (j + 1) prev (rest.drop (blockSize q mid j)) := by
  rw [splitFrom, if_neg (by omega)]

/-- Where block `j` starts (R271). -/
def blockStart (mid j : Nat) : Nat := if j = 0 then 0 else 0x3A7 + ceilDiv (j - 1) 2 * 0x3F0 + (j - 1) / 2 * mid

/-- The chaining block that the next AES block from number `j` on takes: the last ciphertext block of the AES block
before, which is number `2·(j / 2) - 1`; the session IV when there is none (R273). -/
def chainBlock (mid : Nat) (v body : List Byte) (j : Nat) : List Byte :=
  if j / 2 = 0 then v
  else slice body (blockStart mid (2 * (j / 2) - 1) + 0x3E0) (blockStart mid (2 * (j / 2) - 1) + 0x3F0)

theorem blockStart_of_pos (mid : Nat) (hj : 0 < j) :
    blockStart mid j = 0x3A7 + j / 2 * 0x3F0 + (j - 1) / 2 * mid := by
  rw [blockStart, if_neg hj.ne', ceilDiv, show j - 1 + 2 - 1 = j by omega]

theorem blockStart_succ (hq : q.HasSpecValues) (mid j : Nat) :
    blockStart mid (j + 1) = blockStart mid j + blockSize q mid j := by
  rw [blockSize, hq.sensorBlk0, hq.sensorAesBlk, blockStart_of_pos mid (Nat.add_pos_right j one_pos),
    Nat.add_sub_cancel]
  rcases j.eq_zero_or_pos with rfl | hpos
  · simp [blockStart]
  · rw [blockStart_of_pos mid hpos, if_neg hpos.ne']
    rcases Nat.mod_two_eq_zero_or_one j with hpar | hpar
    · rw [if_neg (by omega), show (j + 1) / 2 = j / 2 by omega, show j / 2 = (j - 1) / 2 + 1 by omega]
      ring
    · rw [if_pos hpar, show (j + 1) / 2 = j / 2 + 1 by omega, show (j - 1) / 2 = j / 2 by omega]
      ring

theorem blockStart_mono (mid : Nat) : Monotone (blockStart mid) := by
  refine monotone_nat_of_le_succ fun j => ?_
  rw [blockStart_succ (q := Params.spec) rfl]
  exact Nat.le_add_right _ _

/-- The passthrough blocks leave the chain alone. -/
theorem chainBlock_succ_of_even (hj : j % 2 = 0) : chainBlock mid v body (j + 1) = chainBlock mid v body j := by
  rw [chainBlock, chainBlock, show (j + 1) / 2 = j / 2 by omega]

/-- An AES block hands on its last ciphertext block. -/
theorem chainBlock_succ_of_odd (hj : j % 2 = 1) :
    chainBlock mid v body (j + 1) = slice body (blockStart mid j + 0x3E0) (blockStart mid j + 0x3F0) := by
  rw [chainBlock, if_neg (by omega), show 2 * ((j + 1) / 2) - 1 = j by omega]

theorem chainBlock_of_odd (hj : j % 2 = 1) : chainBlock mid v body j =
    if j = 1 then v else slice body (blockStart mid (j - 2) + 0x3E0) (blockStart mid (j - 2) + 0x3F0) := by
  rw [chainBlock, show 2 * (j / 2) - 1 = j - 2 by omega]
  exact if_congr (by omega) rfl rfl

section

variable (hq : q.HasSpecValues) (hk : k.length = 16) (hv : v.length = 16)

theorem blockStart_odd_succ (mid : Nat) (hj : j % 2 = 1) : blockStart mid (j + 1) = blockStart mid j + 0x3F0 := by
  rw [blockStart_succ (q := Params.spec) rfl, blockSize_odd hj]
  rfl

include hv in
theorem chainBlock_length (h : blockStart mid j ≤ body.length) : (chainBlock mid v body j).length = 16 := by
  rw [chainBlock]
  split
  next => exact hv
  next hj =>
    have hend := blockStart_odd_succ mid (j := 2 * (j / 2) - 1) (by omega)
    have hle := blockStart_mono mid (show 2 * (j / 2) - 1 + 1 ≤ j by omega)
    rw [slice_length_eq (by omega)]
    omega

theorem piece_length {start size : Nat} (h : start + size ≤ body.length) :
    ((body.drop start).take size).length = size := by
  rw [List.length_take, List.length_drop]
  omega

include hq hk hv in
/-- The pre-GEA bytes of an AES block are as many as it has. -/
theorem aesBlock_length (hj : j % 2 = 1) (h : blockStart mid (j + 1) ≤ body.length) :
    (cbcDec k (if restart then v else chainBlock mid v body j)
      ((body.drop (blockStart mid j)).take q.sensorAesBlk)).length = q.sensorAesBlk := by
  have hend := blockStart_odd_succ mid hj
  have hseg : ((body.drop (blockStart mid j)).take q.sensorAesBlk).length = q.sensorAesBlk :=
    piece_length (by rwa [hq.sensorAesBlk, ← hend])
  have hiv : (if restart then v else chainBlock mid v body j).length = 16 := by
    split
    · exact hv
    · exact chainBlock_length hv (by omega)
  rw [cbcDec_length hk hiv (by rw [hseg, hq.sensorAesBlk]), hseg]

include hq hk hv in
/-- What the split makes of the body from block `j` on, the blocks before it passed. -/
theorem drop_splitFrom (hj : j ≤ n) (h : blockStart mid j ≤ body.length) :
    (splitFrom q mid restart k v n 0 v body).drop (blockStart mid j) =
      splitFrom q mid restart k v (n - j) j (chainBlock mid v body j) (body.drop (blockStart mid j)) := by
  induction j with
  | zero => rfl
  | succ j ih =>
    have hle := blockStart_mono mid (Nat.le_succ j)
    have hnext : n - j = n - (j + 1) + 1 := by omega
    rw [blockStart_succ hq, ← List.drop_drop, ih (by omega) (hle.trans h), hnext, ← List.drop_drop]
    rcases Nat.mod_two_eq_zero_or_one j with hpar | hpar
    · rw [blockStart_succ hq] at h
      rw [splitFrom_succ_of_even hpar, List.drop_left' (piece_length h), chainBlock_succ_of_even hpar]
    · rw [splitFrom_succ_of_odd hpar, blockSize_odd hpar, List.drop_left' (aesBlock_length hq hk hv hpar h),
        chainBlock_succ_of_odd hpar, slice_drop, hq.sensorAesBlk]

include hq hk hv in
/-- The `size` pre-GEA bytes from block `j` on. -/
theorem slice_sensorSplit (hj : j < 14) (size : Nat) (h : blockStart mid (j + 1) ≤ body.length) :
    slice (sensorSplit q mid restart k v body) (blockStart mid j) (blockStart mid j + size) =
      (splitFrom q mid restart k v (13 - j + 1) j (chainBlock mid v body j)
        (body.drop (blockStart mid j))).take size := by
  have hle := (blockStart_mono mid (Nat.le_succ j)).trans h
  rw [slice, sensorSplit, hq.sensorBlocks, drop_splitFrom hq hk hv (by omega) hle, Nat.add_sub_cancel_left,
    show 15 - 1 - j = 13 - j + 1 by omega]

include hq hk hv in
theorem sensorSplit_aesBlock (hj : j < 14) (hodd : j % 2 = 1) (h : blockStart mid (j + 1) ≤ body.length) :
    slice (sensorSplit q mid restart k v body) (blockStart mid j) (blockStart mid j + 0x3F0) =
      cbcDec k (if restart then v else chainBlock mid v body j)
        (slice body (blockStart mid j) (blockStart mid j + 0x3F0)) := by
  have hlen := aesBlock_length (restart := restart) hq hk hv hodd h
  rw [hq.sensorAesBlk] at hlen
  rw [slice_sensorSplit hq hk hv hj _ h, splitFrom_succ_of_odd hodd, hq.sensorAesBlk, List.take_left' hlen, slice,
    Nat.add_sub_cancel_left]

include hq hk hv in
theorem sensorSplit_copied (hj : j < 14) (heven : j % 2 = 0) (h : blockStart mid (j + 1) ≤ body.length) :
    slice (sensorSplit q mid restart k v body) (blockStart mid j) (blockStart mid j + blockSize q mid j) =
      slice body (blockStart mid j) (blockStart mid j + blockSize q mid j) := by
  rw [slice_sensorSplit hq hk hv hj _ h, splitFrom_succ_of_even heven,
    List.take_left' (piece_length (by rwa [← blockStart_succ hq])), slice, Nat.add_sub_cancel_left]

include hq hk hv in
/-- The last block is copied. -/
theorem drop_sensorSplit (h : blockStart mid 14 ≤ body.length) :
    (sensorSplit q mid restart k v body).drop (blockStart mid 14) = body.drop (blockStart mid 14) := by
  rw [sensorSplit, hq.sensorBlocks, drop_splitFrom hq hk hv (Nat.le_refl 14) h]
  rfl

end

theorem blockStart_last (mid : Nat) : blockStart mid 14 = 0x3A7 + 7 * 0x3F0 + 6 * mid :=
  blockStart_of_pos mid (by decide)

/-- Settles O58: the split drops its blocks one by one. -/
theorem sensorSplitBlocks : Obligations.SensorSplitBlocks := by
  intro q mid restart k v body hq hk hv hbody
  have hend (j : Nat) (hj : j ≤ 13) : blockStart mid (j + 1) ≤ body.length :=
    (blockStart_mono mid (Nat.succ_le_succ hj)).trans ((blockStart_last mid).trans_le hbody)
  refine ⟨?_, ?_, fun j hj hodd => ?_, fun j hpos hj heven => ?_, ?_⟩
  · exact sensorSplit_length hq mid restart hk hv ((minBody_of_spec hq mid).trans_le hbody)
  · have h := sensorSplit_copied (restart := restart) hq hk hv (j := 0) (by decide) rfl (hend 0 (by decide))
    rw [blockSize, if_pos rfl, hq.sensorBlk0] at h
    exact h
  · have h := sensorSplit_aesBlock (restart := restart) hq hk hv (by omega) hodd (hend j hj)
    rw [chainBlock_of_odd hodd, ← ite_or] at h
    exact h
  · have h := sensorSplit_copied (restart := restart) hq hk hv (by omega) heven (hend j hj)
    rw [blockSize, if_neg (by omega), if_neg (by omega)] at h
    exact h
  · rw [← blockStart_last]
    exact drop_sensorSplit hq hk hv (hend 13 (by decide))

/-! ## `SENSOR_DECRYPT` (R272) -/

/-- The length of the body in a sensor payload. -/
def State.bodyLen (s : State) : Nat := s.regs.srcLen.toNat - 40

/-- The pre-GEA buffer of the coming `SENSOR_DECRYPT`. -/
def State.preGea (s : State) : List Byte :=
  sensorSplit s.params Config.midPassLen Config.cbcRestart (arrayBytes s.regs.symKey) (arrayBytes s.regs.symIv)
    (slice s.src 8 (8 + s.bodyLen))

/-- The server counter advanced (R276). -/
def State.counted (s : State) : State :=
  { s with regs := { s.regs with hmacServerCtr := s.regs.hmacServerCtr + 1#32 } }

/-- What is left of `SENSOR_DECRYPT` once the payload and the output's place have been checked. -/
def State.checkedTag (s : State) : State :=
  if hmac (arrayBytes s.regs.hmacKey) (integrityMessage s.regs.hmacServerCtr s.bodyLen s.preGea) !=
      slice s.src (8 + s.bodyLen) s.regs.srcLen.toNat then s.raise .integrityCheckFailed
  else sensorTail Config.geaNext s.bodyLen s.preGea s.counted

/-- What is left of `SENSOR_DECRYPT` once the payload has been checked; `keep` is the output's length. -/
def State.checkedImage (s : State) (keep : Nat) : State :=
  if keep % 2 != 0 then s.raise .badOperand
  else if !s.dstOk keep then s.raise .badOperand
  else s.checkedTag

theorem exec_sensorDecrypt_eq (s : State) : exec .sensorDecrypt s = .next (
    if s.regs.gtlsState != .established then s.raise .badState
    else if !s.srcOk then s.raise .badOperand
    else if s.regs.srcLen.toNat < 8 then s.raise .shortInput
    else if mcuTag s.src != 0xAA01 then s.raise .unexpectedDataType
    else if mcuDeclared s.src != s.regs.srcLen.toNat then s.raise .lengthMismatch
    else if s.regs.srcLen.toNat < 40 + minBody s.params Config.midPassLen then s.raise .shortInput
    else s.checkedImage (s.bodyLen - (s.params.sensorPad + 4))) := rfl

/-! ### The checks of the payload -/

theorem exec_sensorDecrypt_of_state (hg : s.regs.gtlsState ≠ .established) :
    exec .sensorDecrypt s = .next (s.raise .badState) := by
  rw [exec_sensorDecrypt_eq, if_pos (bne_iff_ne.2 hg)]

section

variable (hg : s.regs.gtlsState = .established)

include hg

theorem exec_sensorDecrypt_of_not_src (hs : ¬ InBuf s s.regs.srcAddr s.regs.srcLen.toNat) :
    exec .sensorDecrypt s = .next (s.raise .badOperand) := by
  rw [exec_sensorDecrypt_eq, hg, srcOk_of_not_inBuf hs]
  rfl

variable (hs : InBuf s s.regs.srcAddr s.regs.srcLen.toNat)

include hs

theorem exec_sensorDecrypt_of_short (hn : s.regs.srcLen.toNat < 8) :
    exec .sensorDecrypt s = .next (s.raise .shortInput) := by
  simp [exec_sensorDecrypt_eq, hg, srcOk_of_inBuf hs, hn]

variable (hn : 8 ≤ s.regs.srcLen.toNat)

include hn

theorem exec_sensorDecrypt_of_tag (htag : mcuTag s.src ≠ 0xAA01) :
    exec .sensorDecrypt s = .next (s.raise .unexpectedDataType) := by
  simp [exec_sensorDecrypt_eq, hg, srcOk_of_inBuf hs, hn.not_gt, htag]

variable (htag : mcuTag s.src = 0xAA01)

include htag

theorem exec_sensorDecrypt_of_declared (hdecl : mcuDeclared s.src ≠ s.regs.srcLen.toNat) :
    exec .sensorDecrypt s = .next (s.raise .lengthMismatch) := by
  simp [exec_sensorDecrypt_eq, hg, srcOk_of_inBuf hs, hn.not_gt, htag, hdecl]

variable (hdecl : mcuDeclared s.src = s.regs.srcLen.toNat)

include hdecl

theorem exec_sensorDecrypt_of_body_short (hb : s.regs.srcLen.toNat < 40 + minBody s.params Config.midPassLen) :
    exec .sensorDecrypt s = .next (s.raise .shortInput) := by
  simp [exec_sensorDecrypt_eq, hg, srcOk_of_inBuf hs, hn.not_gt, htag, hdecl, hb]

theorem exec_sensorDecrypt (hq : s.params.HasSpecValues)
    (hb : 40 + minBody s.params Config.midPassLen ≤ s.regs.srcLen.toNat) :
    exec .sensorDecrypt s = .next (s.checkedImage (s.bodyLen - 9)) := by
  simp [exec_sensorDecrypt_eq, hg, srcOk_of_inBuf hs, hn.not_gt, htag, hdecl, hb.not_gt, hq.sensorPad]

end

/-! ### The checks of the output's place, the tag and the CRC -/

theorem checkedImage_of_bad (h : n % 2 ≠ 0 ∨ ¬ InBuf s s.regs.dstAddr n) :
    s.checkedImage n = s.raise .badOperand := by
  rcases h with h | h
  · exact if_pos (bne_iff_ne.2 h)
  · rw [State.checkedImage, dstOk_of_not_inBuf h]
    exact ite_self _

theorem checkedImage_of_fits (hpar : n % 2 = 0) (hd : InBuf s s.regs.dstAddr n) : s.checkedImage n = s.checkedTag := by
  rw [State.checkedImage, hpar, dstOk_of_inBuf hd]
  rfl

/-- The body's tag is the one that the engine derives (R275). -/
def TagOk (s : State) : Prop :=
  hmac (arrayBytes s.regs.hmacKey) (integrityMessage s.regs.hmacServerCtr s.bodyLen s.preGea) =
    slice s.src (8 + s.bodyLen) s.regs.srcLen.toNat

/-- The pre-GEA image, without the padding and the CRC trailer (R279). -/
def State.image (s : State) : List Byte := slice s.preGea 5 (s.bodyLen - 4)

/-- The trailer holds the image's CRC (R277). -/
def CrcOk (s : State) : Prop :=
  (crc32Mpeg2 s.image).toNat = crcTrailer (slice s.preGea (s.bodyLen - 4) s.bodyLen)

theorem checkedTag_of_mismatch (h : ¬ TagOk s) : s.checkedTag = s.raise .integrityCheckFailed :=
  if_pos (bne_iff_ne.2 h)

theorem checkedTag_of_match (h : TagOk s) : s.checkedTag = sensorTail Config.geaNext s.bodyLen s.preGea s.counted :=
  if_neg (not_not.2 h ∘ bne_iff_ne.1)

/-- The first word of a register array, from its bytes. -/
theorem toWord_le32_arrayBytes (w : Vector Word 4) : toWord (le32 (arrayBytes w)) = w[0] := by
  have hcons : w.toList = w[0] :: w.toList.drop 1 := List.drop_eq_getElem_cons (i := 0) (by simp)
  rw [arrayBytes, hcons, List.flatMap_cons, le32_toLE32 w[0].isLt, toWord_toNat]

/-- `sensorTail` with the values of R6: 5 bytes of padding before the image, the CRC in the last 4. -/
theorem sensorTail_eq (next : Word → Word × BitVec 16) (hq : s.params.HasSpecValues) (hn : 9 ≤ n) :
    sensorTail next n buf s =
      if (crc32Mpeg2 (slice buf 5 (n - 4))).toNat != crcTrailer (slice buf (n - 4) n) then s.raise .crcMismatch
      else (s.output (n - 9) (gea next s.regs.symKey[0] (slice buf 5 (n - 4)))).complete := by
  have himage : slice (slice buf 5 n) 0 (n - 9) = slice buf 5 (n - 4) := by
    rw [slice_slice (by omega), show 5 + (n - 9) = n - 4 by omega]
  have htrailer : slice (slice buf 5 n) (n - 9) (n - 5) = slice buf (n - 4) n := by
    rw [slice_slice (by omega), show 5 + (n - 9) = n - 4 by omega, show 5 + (n - 5) = n by omega]
  rw [sensorTail, hq.sensorPad, toWord_le32_arrayBytes, himage, htrailer]

theorem counted_regs (s : State) : s.counted.regs =
    { s.regs with hmacServerCtr := toWord ((s.regs.hmacServerCtr.toNat + 1) % 2 ^ 32) } := by
  have hctr : s.regs.hmacServerCtr + 1#32 = toWord ((s.regs.hmacServerCtr.toNat + 1) % 2 ^ 32) := by
    apply BitVec.eq_of_toNat_eq
    simp [toWord]
  rw [State.counted, hctr]

section

variable (hq : s.params.HasSpecValues) (hn : 9 ≤ s.bodyLen) (ht : TagOk s)

include hq hn ht

theorem checkedTag_of_crcMismatch (hc : ¬ CrcOk s) : s.checkedTag = s.counted.raise .crcMismatch :=
  (checkedTag_of_match ht).trans ((sensorTail_eq (s := s.counted) _ hq hn).trans (if_pos (bne_iff_ne.2 hc)))

theorem checkedTag_of_crc (hc : CrcOk s) : s.checkedTag =
    (s.counted.output (s.bodyLen - 9) (gea Config.geaNext s.regs.symKey[0] s.image)).complete :=
  (checkedTag_of_match ht).trans
    ((sensorTail_eq (s := s.counted) _ hq hn).trans (if_neg (not_not.2 hc ∘ bne_iff_ne.1)))

variable (h : exec .sensorDecrypt s = .next s.checkedTag)

include h

theorem raisesWith_crcMismatch (hc : ¬ CrcOk s) :
    RaisesWith .sensorDecrypt s .crcMismatch
      { s.regs with hmacServerCtr := toWord ((s.regs.hmacServerCtr.toNat + 1) % 2 ^ 32) } s.status.rxActive := by
  rw [← counted_regs]
  rw [checkedTag_of_crcMismatch hq hn ht hc] at h
  exact raisesWith_of_raise (s' := s.counted) h rfl rfl rfl rfl rfl rfl

theorem completesWith_sensorDecrypt (hc : CrcOk s) :
    CompletesWith .sensorDecrypt s
      { s.regs with
        hmacServerCtr := toWord ((s.regs.hmacServerCtr.toNat + 1) % 2 ^ 32), dstLen := toWord (s.bodyLen - 9) }
      s.status.rxActive s.regs.dstAddr.toNat (gea Config.geaNext s.regs.symKey[0] s.image) := by
  rw [checkedTag_of_crc hq hn ht hc] at h
  have hdone := completesWith_of_complete (s' := s.counted.output _ _) h rfl rfl rfl rfl rfl rfl
  rw [State.output, setDstLen_regs, memWrite_regs, counted_regs] at hdone
  exact hdone

end

/-- Settles O59: the checks of the payload, of the output's place, of the tag and of the CRC, in this order. -/
theorem sensorDecryptResult : Obligations.SensorDecryptResult := by
  intro s hq len m n minBodyLen buf tagOk g q crcOk counted raises
  have hmin : minBody s.params Config.midPassLen = minBodyLen := minBody_of_spec hq _
  refine ⟨onlyWordOf_encode (i := .sensorDecrypt) (by decide), fun hg => ?_, fun hg => ⟨fun hs => ?_, fun hs =>
    ⟨fun hn => ?_, fun hn htag => ?_, fun hn htag hdecl => ?_, fun hn htag hdecl => ⟨fun hb => ?_, fun hb => ?_⟩⟩⟩⟩
  · exact raisesWith_raise (exec_sensorDecrypt_of_state hg)
  · exact raisesWith_raise (exec_sensorDecrypt_of_not_src hg hs)
  · exact raisesWith_raise (exec_sensorDecrypt_of_short hg hs hn)
  · exact raisesWith_raise (exec_sensorDecrypt_of_tag hg hs hn htag)
  · exact raisesWith_raise (exec_sensorDecrypt_of_declared hg hs hn htag hdecl)
  · exact raisesWith_raise (exec_sensorDecrypt_of_body_short hg hs hn htag hdecl (by rwa [hmin]))
  · have hexec := exec_sensorDecrypt hg hs hn htag hdecl hq (by rwa [hmin])
    refine ⟨fun hbad => ?_, fun hpar hd => ?_⟩
    · exact raisesWith_raise (hexec.trans (congrArg _ (checkedImage_of_bad hbad)))
    · rw [State.bodyLen, checkedImage_of_fits hpar hd] at hexec
      have hbody : 9 ≤ s.bodyLen := Nat.le_sub_of_add_le (le_trans (by omega) hb)
      exact ⟨fun ht => raisesWith_raise (hexec.trans (congrArg _ (checkedTag_of_mismatch ht))),
        fun ht => raisesWith_crcMismatch hq hbody ht hexec, fun ht => completesWith_sensorDecrypt hq hbody ht hexec⟩

/-! ## The server counter (R276) -/

/-- The endings of `SENSOR_DECRYPT`, by what becomes of the counter. -/
inductive SensorEnding (s : State) : State → Prop
  | refused {e : ErrCode} (he : e ≠ .crcMismatch) : SensorEnding s (s.raise e)
  | crcRefused : SensorEnding s (s.counted.raise .crcMismatch)
  | completed (n : Nat) (v : List Byte) : SensorEnding s (s.counted.output n v).complete

/-- A check that fails before the tag has been found right. -/
theorem SensorEnding.orRaise {c : Prop} [Decidable c] (hu : SensorEnding s u) (he : e ≠ .crcMismatch := by decide) :
    SensorEnding s (if c then s.raise e else u) := by
  split
  next => exact .refused he
  next => exact hu

theorem sensorEnding_tail (next : Word → Word × BitVec 16) (s : State) :
    SensorEnding s (sensorTail next n buf s.counted) := by
  rw [sensorTail]
  split
  next => exact .crcRefused
  next => exact .completed _ _

theorem sensorEnding (h : exec .sensorDecrypt s = .next t) : SensorEnding s t := by
  cases (exec_sensorDecrypt_eq s).symm.trans h
  exact .orRaise <| .orRaise <| .orRaise <| .orRaise <| .orRaise <| .orRaise <| .orRaise <| .orRaise <| .orRaise <|
    sensorEnding_tail _ s

/-- Settles O60, by cases on the ending. -/
theorem serverCounterAdvances : Obligations.ServerCounterAdvances := by
  intro s t h
  have hctr : (s.regs.hmacServerCtr + 1#32).toNat = (s.regs.hmacServerCtr.toNat + 1) % 2 ^ 32 := BitVec.toNat_add _ _
  cases sensorEnding h with
  | refused he => exact ⟨fun hok => (hok.elim Bool.noConfusion he).elim, fun _ _ => rfl⟩
  | crcRefused => exact ⟨fun _ => hctr, fun _ hne => absurd rfl hne⟩
  | completed n v => exact ⟨fun _ => hctr, fun herr => Bool.noConfusion herr⟩

end Sys2Proof.Machine
end

section
/-! SUPPORT. The statements about errors (60_exceptions.md): which code an operation ends with, and how long `STATUS`
keeps it. -/

namespace Sys2Proof.Machine

variable {s t : State} {i : Instr} {a : Access}

/-! ## Which codes an operation raises -/

/-- A completion leaves the code 0, a failure leaves a code of the operation's own row (60_exceptions.md R300). -/
theorem Ending.errcode (h : Ending s i t) : t.status.errcode = .ok ∨ t.status.errcode ∈ mayRaise i := by
  cases h with
  | raise he => exact .inr he
  | failGtls _ he _ => exact .inr he
  | frameMismatch => exact .inr (by simp [mayRaise])
  | chunkDropped he => exact .inr he
  | sensorMismatch => exact .inr (by simp [mayRaise])
  | _ => exact .inl rfl

/-- Settles O20: the numbers are those of `ErrCode.code`, and each ending of an operation raises only what it may. -/
theorem errorCodesByOperation : Obligations.ErrorCodesByOperation :=
  ⟨rfl, fun _ _ _ h => (exec_ending h).errcode⟩

/-! ## How long STATUS keeps its value -/

theorem writeReg_status {r : RegName} (v : Word) (hr : r ≠ .cmd) : (s.writeReg r v).status = s.status := by
  cases r with
  | cmd => exact absurd rfl hr
  | _ => rfl

theorem width_of_regViolation {width offset : Nat} (h : regViolation width offset = none) : width = 32 := by
  by_contra hw
  simp [regViolation, hw] at h

/-- A permitted register write is 32 bits wide (20_memory.md R67). -/
theorem width_of_regWrite {width offset : Nat} {v : Word} (h : violation s (.regWrite width offset v) = none) :
    width = 32 := by
  rw [violation_of_idle (idle_of_not_violation h nofun), idleViolation] at h
  split at h
  · cases h
  · exact width_of_regViolation ‹_›

/-- Of the host's accesses only the write of `CMD` touches `STATUS` (10_state.md R23, R26). -/
theorem status_of_access (h : hostAccess s a = .next t) :
    t.status = s.status ∨ ∃ w, a = .regWrite 32 0x000 w ∧ t.pend = some w ∧ t.status = s.status.accepted := by
  obtain ⟨hv, rfl⟩ := hostAccess_eq_next.1 h
  cases a with
  | regRead => exact .inl rfl
  | bufRead => exact .inl rfl
  | bufWrite => exact .inl rfl
  | regWrite width offset w =>
    cases hr : regAt offset with
    | none => simp [accessEffect, hr]
    | some r =>
      simp only [accessEffect, hr]
      by_cases hcmd : r = .cmd
      · subst hcmd
        obtain rfl := width_of_regWrite hv
        obtain rfl : 0x000 = offset := offset_of_regAt hr
        exact .inr ⟨w, rfl, rfl, rfl⟩
      · exact .inl (writeReg_status w hcmd)

theorem eq_wr_of_accessOf {st : HostStmt} {width offset : Nat} {v : Word}
    (h : accessOf st = some (.regWrite width offset v)) : st = .wr width offset v := by
  cases st with
  | wr => cases h; rfl
  | _ => cases h

/-- A turn of the host leaves `STATUS` alone, unless its statement writes `CMD` and the word is accepted (R26). -/
theorem status_of_hostStep (h : hostStep s = .next t) :
    t.status = s.status ∨ ∃ w, s.host.prog[s.host.pc]? = some (.wr 32 0x000 w) ∧ t.pend = some w ∧
      t.status = s.status.accepted := by
  obtain rfl | ⟨pc, rfl⟩ | ⟨st, a, hst, hacc, ha⟩ := hostStep_cases h
  · exact .inl rfl
  · exact .inl rfl
  · obtain hsame | ⟨w, rfl, hpend, hstatus⟩ := status_of_access ha
    · exact .inl hsame
    · exact .inr ⟨w, eq_wr_of_accessOf hacc ▸ hst, hpend, hstatus⟩

/-- Settles O13, by the kinds of step: only the host's turn can change `STATUS` without an operation or the reset input. -/
theorem errorStateLastsUntilNextCommand : Obligations.ErrorStateLastsUntilNextCommand := by
  intro s t h
  obtain ⟨ht, u, hu, rfl⟩ | ⟨-, -, rfl⟩ | ⟨ht, w, i, u, hw, -, -, rfl⟩ | ⟨ht, w, r, hw, -, rfl⟩ | ⟨ht, rfl⟩ := step_cases h
  · obtain hsame | ⟨w, hstmt, hpend, hstatus⟩ := status_of_hostStep hu
    · exact .inl hsame
    · exact .inr (.inl ⟨ht, ⟨w, hstmt, hpend⟩, hstatus⟩)
  · exact .inl rfl
  · exact .inr (.inr (.inl ⟨ht, by simp [hw]⟩))
  · exact .inr (.inr (.inl ⟨ht, by simp [hw]⟩))
  · exact .inr (.inr (.inr ht))

end Sys2Proof.Machine
end

section
/-! SUPPORT. The statements about the reset input and the hazards of the host port (70_reset_and_hazards.md): which
accesses are violations, said as conditions on the access instead of by the checks in their order. -/

namespace Sys2Proof.Machine

variable {s : State} {a : Access} {width o : Nat} {v : Word}

/-! ## The reset input -/

/-- The reset input's turn resets, whatever is pending (R330). -/
theorem step_of_reset (ht : nextTurn s = .reset) : step s = .next s.hardReset.endTurn := by
  simp [step, turnStep, ht]

/-- Settles O14, from the reset column of 10_state.md R24. -/
theorem resetInput : Obligations.ResetInput := by
  intro s ht
  refine ⟨_, step_of_reset ht, atResetValues_of_reset rfl rfl, ?_, rfl, rfl, ?_, rfl, rfl⟩
  · exact Status.word_reset
  · exact hardReset_readByte s

/-! ## While busy -/

theorem idleViolation_statusRead (s : State) : idleViolation s (.regRead 32 0x004) = none :=
  regViolation_offset .status

/-- A read of `STATUS` is no violation, busy or not (R340). -/
theorem violation_statusRead (s : State) : violation s (.regRead 32 0x004) = none := by
  have hread : isStatusRead (.regRead 32 0x004) = true := by decide
  simp [violation, hread, idleViolation_statusRead]

/-- A read of `STATUS` goes on in the host's program and touches the host alone (R68, R340). -/
theorem hostAccess_statusRead (s : State) :
    hostAccess s (.regRead 32 0x004) =
      .next { s with host := { s.host with pc := s.host.pc + 1, reads := s.host.reads ++ [s.status.word] } } := by
  refine hostAccess_eq_next.2 ⟨violation_statusRead s, ?_⟩
  have hreg : regAt 0x004 = some .status := regAt_offset .status
  simp [accessEffect, accessData, hreg, State.readReg]

/-- Settles O9: the read of `STATUS` is the one access that the busy check lets through. -/
theorem busyAllowsOnlyStatusReads : Obligations.BusyAllowsOnlyStatusReads := by
  refine fun s hb => ⟨?_, fun a ha => hostAccess_of_busy hb ha⟩
  exact ⟨_, hostAccess_statusRead s, rfl, rfl, rfl, rfl, sameBuffer_of_buf rfl rfl⟩

/-! ## The register map as ranges of offsets (10_state.md R24) -/

/-- No offset is left out between the first register and the last. -/
theorem regAt_isSome_of_word : ∀ k < 80, (regAt (4 * k)).isSome = true := by decide

theorem exists_offset_iff : (∃ r : RegName, r.offset = o) ↔ o % 4 = 0 ∧ o < 0x140 := by
  constructor
  · rintro ⟨r, rfl⟩
    exact (offset_lt r).symm
  · rintro ⟨ho, hlt⟩
    have hsome := regAt_isSome_of_word (o / 4) (by omega)
    rw [Nat.mul_div_cancel' (Nat.dvd_of_mod_eq_zero ho)] at hsome
    obtain ⟨r, hr⟩ := Option.isSome_iff_exists.1 hsome
    exact ⟨r, offset_of_regAt hr⟩

/-- The `R` registers are `STATUS`, `DST_LEN`, those from `RESULT` to `CTR_SEED`, and those behind `CLIENT_RANDOM`. -/
theorem cls_eq_r_iff (r : RegName) :
    r.cls = .r ↔ r.offset = 0x004 ∨ r.offset = 0x014 ∨ (0x030 ≤ r.offset ∧ r.offset < 0x060) ∨ 0x0A0 ≤ r.offset := by
  cases r <;> simp [RegName.cls, RegName.offset] <;> omega

/-! ## The violations (R343) -/

theorem regViolation_eq_none_iff : regViolation width o = none ↔ width = 32 ∧ ∃ r : RegName, r.offset = o := by
  constructor
  · intro h
    obtain rfl := width_of_regViolation h
    cases hr : regAt o with
    | some r => exact ⟨rfl, r, offset_of_regAt hr⟩
    | none =>
      by_cases ho : o % 4 = 0
      · simp [regViolation, hr, ho] at h
      · simp [regViolation, ho] at h
  · rintro ⟨rfl, r, rfl⟩
    exact regViolation_offset r

/-- A register access is a violation by its width or by its offset. -/
theorem regViolation_isSome_iff :
    (regViolation width o).isSome = true ↔ width ≠ 32 ∨ o % 4 ≠ 0 ∨ 0x140 ≤ o := by
  rw [Option.isSome_iff_ne_none, ne_eq, regViolation_eq_none_iff, exists_offset_iff]
  omega

/-- A register write is one also when the register has class `R` (10_state.md R23). -/
theorem idleViolation_regWrite_isSome_iff :
    (idleViolation s (.regWrite width o v)).isSome = true ↔ width ≠ 32 ∨ o % 4 ≠ 0 ∨ 0x140 ≤ o ∨ o = 0x004 ∨
      o = 0x014 ∨ (0x030 ≤ o ∧ o < 0x060) ∨ 0x0A0 ≤ o := by
  cases hv : regViolation width o with
  | some f =>
    have hbad := regViolation_isSome_iff.1 (Option.isSome_iff_exists.2 ⟨f, hv⟩)
    simp only [idleViolation, hv, Option.isSome_some, true_iff]
    omega
  | none =>
    obtain ⟨rfl, r, rfl⟩ := regViolation_eq_none_iff.1 hv
    obtain ⟨hlt, halign⟩ := offset_lt r
    have hclass : (idleViolation s (.regWrite 32 r.offset v)).isSome = true ↔ r.cls = .r := by
      simp [idleViolation, hv, regAt_offset]
    rw [hclass, cls_eq_r_iff]
    omega

/-- An access is a violation by the busy hazard, or by what makes it one of an idle engine (R340, R343). -/
theorem violation_isSome_iff :
    (violation s a).isSome = true ↔
      (s.status.busy = true ∧ a ≠ .regRead 32 0x004) ∨ (idleViolation s a).isSome = true := by
  cases hb : s.status.busy with
  | false => simp [violation_of_idle hb]
  | true =>
    by_cases ha : a = .regRead 32 0x004
    · simp [ha, violation_statusRead, idleViolation_statusRead]
    · simp [violation_of_busy hb ha, ha]

theorem hostAccess_fault_iff : (∃ f, hostAccess s a = .fault f) ↔ (violation s a).isSome = true := by
  unfold hostAccess
  cases violation s a <;> simp

/-- Settles O10, by the kinds of access. -/
theorem hostViolationsExactly : Obligations.HostViolationsExactly := by
  intro s a
  rw [hostAccess_fault_iff, violation_isSome_iff]
  refine or_congr_right ?_
  cases a with
  | regRead width o => exact regViolation_isSome_iff
  | regWrite width o v => exact idleViolation_regWrite_isSome_iff
  | bufRead x => simp [idleViolation]
  | bufWrite x b => simp [idleViolation]

end Sys2Proof.Machine
end
